-- ==== Sys2Proof/Word.lean ====
section
/-! DEFINITION. The bit-vector types of HUFFBLK (00_scope.md R6, R8): every value of the block is unsigned. -/

namespace Sys2Proof

/-- A 32-bit command word, response or counter (R6: CMD_W, RESP_W, CTR_W). -/
abbrev Word := BitVec 32

/-- A symbol, a packed byte or a register number (R6: NSYM; R12). -/
abbrev Byte := BitVec 8

/-- One frequency count (R6: CNT_W). -/
abbrev Count := BitVec 16

/-- A node weight, and TOTAL (R6: WGT_W). -/
abbrev Weight := BitVec 24

/-- A node index (R6: IDX_W). -/
abbrev NodeIdx := BitVec 9

end Sys2Proof
end

