-- ==== Sys2Proof/Syntax.lean ====
section
/-! DEFINITION. The commands of HUFFBLK: one constructor per row of the opcode map (30_encoding.md R68), operands at the
widths of R66. The register numbers of REG_RD (10_state.md R32) have a type of their own. -/

namespace Sys2Proof

/-- One command (R68). Every operand is a field of the command word, copied unchanged (R66). -/
inductive Instr where
  /-- NOP (45_control.md R103) -/
  | nop
  /-- FREQ_WR sym, cnt (40_freq_table.md R75) -/
  | freqWr (sym : Byte) (cnt : Count)
  /-- FREQ_RD sym (R76) -/
  | freqRd (sym : Byte)
  /-- FREQ_CLR (R77) -/
  | freqClr
  /-- BUILD (41_tree_builder.md R78) -/
  | build
  /-- NODE_WT idx (R83) -/
  | nodeWt (idx : NodeIdx)
  /-- NODE_LNK idx (R84) -/
  | nodeLnk (idx : NodeIdx)
  /-- GENCODES (42_code_generator.md R85) -/
  | gencodes
  /-- CODE_LEN sym (R88) -/
  | codeLen (sym : Byte)
  /-- CODE_BITS sym, k (R89) -/
  | codeBits (sym : Byte) (k : BitVec 3)
  /-- PACK_BEGIN (43_bit_packer.md R90) -/
  | packBegin
  /-- PACK_SYM sym (R91) -/
  | packSym (sym : Byte)
  /-- PACK_FLUSH (R92) -/
  | packFlush
  /-- UNPACK_BEGIN pad (44_bit_unpacker.md R95) -/
  | unpackBegin (pad : BitVec 3)
  /-- UNPACK_FEED byte (R97) -/
  | unpackFeed (v : Byte)
  /-- UNPACK_LAST byte (R98) -/
  | unpackLast (v : Byte)
  /-- UNPACK_END (R99) -/
  | unpackEnd
  /-- REG_RD reg (45_control.md R104) -/
  | regRd (v : Byte)
  /-- ERR_CLR (R105) -/
  | errClr
  /-- SRESET (R106) -/
  | sreset
  deriving DecidableEq, Repr

/-- The six formats of a command word (R65). -/
inductive Format where
  | n | s8 | sc | i9 | sk | p3
  deriving DecidableEq, Repr

/-- The registers of the REG_RD map (R32), in the order of their numbers 0x00 to 0x13. -/
inductive Reg where
  | status | errcode | errcmd | errinfo | root | nodeCnt | leafCnt | total | pacc | pBytes
  | pBits | pSyms | pPad | uPad | uRem | uUsed | uFed | uSyms | uNode | id
  deriving DecidableEq, Repr

/-- The mnemonics of the opcode map (R68), for the assembler of R73. -/
inductive Mnemonic where
  | nop | freqWr | freqRd | freqClr | build | nodeWt | nodeLnk | gencodes | codeLen | codeBits
  | packBegin | packSym | packFlush | unpackBegin | unpackFeed | unpackLast | unpackEnd
  | regRd | errClr | sreset
  deriving DecidableEq, Repr

end Sys2Proof
end

