-- ==== Sys2Proof/Decode.lean ====
section
/-! DEFINITION. Decoding and encoding command words (30_encoding.md R63 to R72). A command word crosses the interface as
one 32-bit parallel word (20_memory.md R41), so decoding takes a word, not bytes. -/

namespace Sys2Proof

/-- OP, bits 31:24 (R64). -/
def opField (w : Word) : Byte := w.extractLsb' 24 8

/-- SYM or V, bits 7:0 (R65). -/
def symField (w : Word) : Byte := w.extractLsb' 0 8

/-- CNT, bits 23:8 (R65). -/
def cntField (w : Word) : Count := w.extractLsb' 8 16

/-- IDX, bits 8:0 (R65). -/
def idxField (w : Word) : NodeIdx := w.extractLsb' 0 9

/-- K, bits 10:8 (R65). -/
def kField (w : Word) : BitVec 3 := w.extractLsb' 8 3

/-- PAD, bits 2:0 (R65). -/
def padField (w : Word) : BitVec 3 := w.extractLsb' 0 3

/-- The bits of 23:0 that a format reserves (R65). -/
def reservedMask : Format → Word
  | .n => 0x00FFFFFF#32
  | .s8 => 0x00FFFF00#32
  | .sc => 0x00000000#32
  | .i9 => 0x00FFFE00#32
  | .sk => 0x00FFF800#32
  | .p3 => 0x00FFFFF8#32

/-- One row of the opcode map (R68): the opcode, its format, and the command its operand fields make. -/
structure OpRow where
  op : Byte
  fmt : Format
  build : Word → Instr

/-- The opcode map (R68), the frequency table, the tree and the code table. -/
def opRowsA : List OpRow := [
  ⟨0x00#8, .n, fun _ => .nop⟩,
  ⟨0x01#8, .sc, fun w => .freqWr (symField w) (cntField w)⟩,
  ⟨0x02#8, .s8, fun w => .freqRd (symField w)⟩,
  ⟨0x03#8, .n, fun _ => .freqClr⟩,
  ⟨0x10#8, .n, fun _ => .build⟩,
  ⟨0x11#8, .i9, fun w => .nodeWt (idxField w)⟩,
  ⟨0x12#8, .i9, fun w => .nodeLnk (idxField w)⟩,
  ⟨0x20#8, .n, fun _ => .gencodes⟩,
  ⟨0x21#8, .s8, fun w => .codeLen (symField w)⟩,
  ⟨0x22#8, .sk, fun w => .codeBits (symField w) (kField w)⟩]

/-- The opcode map (R68), the packer, the unpacker and the control commands. -/
def opRowsB : List OpRow := [
  ⟨0x30#8, .n, fun _ => .packBegin⟩,
  ⟨0x31#8, .s8, fun w => .packSym (symField w)⟩,
  ⟨0x32#8, .n, fun _ => .packFlush⟩,
  ⟨0x40#8, .p3, fun w => .unpackBegin (padField w)⟩,
  ⟨0x41#8, .s8, fun w => .unpackFeed (symField w)⟩,
  ⟨0x42#8, .s8, fun w => .unpackLast (symField w)⟩,
  ⟨0x43#8, .n, fun _ => .unpackEnd⟩,
  ⟨0xF0#8, .s8, fun w => .regRd (symField w)⟩,
  ⟨0xF1#8, .n, fun _ => .errClr⟩,
  ⟨0xFF#8, .n, fun _ => .sreset⟩]

/-- The whole opcode map (R68). -/
def opRows : List OpRow := opRowsA ++ opRowsB

/-- Why a word is no command: an opcode outside the map (R69), or reserved bits set (R70). -/
inductive DecodeError where
  | unknownOpcode
  | reservedBits (bits : Word)
  deriving DecidableEq, Repr

/-- The info word of the E_ILLEGAL that an illegal word raises (R69, R70). -/
def DecodeError.info : DecodeError → Word
  | .unknownOpcode => 0
  | .reservedBits bits => bits

/-- The command a word stands for, or why it stands for none (R68 to R71): total on the 2^32 words. -/
def decode (w : Word) : Except DecodeError Instr :=
  match opRows.find? (fun r => r.op == opField w) with
  | none => .error .unknownOpcode
  | some r =>
    if w &&& reservedMask r.fmt = 0 then .ok (r.build w) else .error (.reservedBits (w &&& reservedMask r.fmt))

/-- The word of a command, as each command's rule writes it out: its opcode, zeros in the reserved bits, its operands in their
fields (R65, R68). -/
def encode : Instr → Word
  | .nop => 0x00000000#32
  | .freqWr sym cnt => 0x01000000#32 ||| (cnt.setWidth 32 <<< 8) ||| sym.setWidth 32
  | .freqRd sym => 0x02000000#32 ||| sym.setWidth 32
  | .freqClr => 0x03000000#32
  | .build => 0x10000000#32
  | .nodeWt idx => 0x11000000#32 ||| idx.setWidth 32
  | .nodeLnk idx => 0x12000000#32 ||| idx.setWidth 32
  | .gencodes => 0x20000000#32
  | .codeLen sym => 0x21000000#32 ||| sym.setWidth 32
  | .codeBits sym k => 0x22000000#32 ||| (k.setWidth 32 <<< 8) ||| sym.setWidth 32
  | .packBegin => 0x30000000#32
  | .packSym sym => 0x31000000#32 ||| sym.setWidth 32
  | .packFlush => 0x32000000#32
  | .unpackBegin pad => 0x40000000#32 ||| pad.setWidth 32
  | .unpackFeed v => 0x41000000#32 ||| v.setWidth 32
  | .unpackLast v => 0x42000000#32 ||| v.setWidth 32
  | .unpackEnd => 0x43000000#32
  | .regRd v => 0xF0000000#32 ||| v.setWidth 32
  | .errClr => 0xF1000000#32
  | .sreset => 0xFF000000#32

/-- The mnemonic of a command (R68). -/
def Instr.mnemonic : Instr → Mnemonic
  | .nop => .nop
  | .freqWr _ _ => .freqWr
  | .freqRd _ => .freqRd
  | .freqClr => .freqClr
  | .build => .build
  | .nodeWt _ => .nodeWt
  | .nodeLnk _ => .nodeLnk
  | .gencodes => .gencodes
  | .codeLen _ => .codeLen
  | .codeBits _ _ => .codeBits
  | .packBegin => .packBegin
  | .packSym _ => .packSym
  | .packFlush => .packFlush
  | .unpackBegin _ => .unpackBegin
  | .unpackFeed _ => .unpackFeed
  | .unpackLast _ => .unpackLast
  | .unpackEnd => .unpackEnd
  | .regRd _ => .regRd
  | .errClr => .errClr
  | .sreset => .sreset

/-- The word that `nbits` bits `w` of the opcode table make: every bit above them is 0 (R63: one 32-bit word). -/
def tableWord (nbits w : Nat) : Word := BitVec.ofNat 32 (w % 2 ^ nbits)

/-- The command the decoder reads from a word numbered as the opcode table numbers it. -/
def decodeTableWord (nbits w : Nat) : Option Instr :=
  match decode (tableWord nbits w) with
  | .ok i => some i
  | .error _ => none

end Sys2Proof
end

