-- ==== Sys2Proof/Config.lean ====
section
/-! DEFINITION. The parameters HUFFBLK fixes (00_scope.md R6, 10_state.md R31). OUT_DEPTH, the one open parameter, is the
state's own datum `State.outDepth`, so that every statement holds for every depth (log 3). -/

namespace Sys2Proof.Config

/-- NIL, the node index that means no node (R6, R12). -/
abbrev nil : NodeIdx := 0x1FF#9

/-- MAX_CODE_LEN (R6): no root-to-leaf path passes more than 255 internal nodes. -/
abbrev maxCodeLen : Nat := 255

/-- The read-only constant of the ID register (R31). -/
abbrev idValue : Word := 0x48554601#32

end Sys2Proof.Config
end

