-- ==== Sys2Proof/Machine/State.lean ====
section
/-! DEFINITION. The state of HUFFBLK (10_state.md), as plain data, and its value after reset (R35).
The fields after OUTQ are no registers of R35: what the ports show of a command's progress (70_reset_and_hazards.md R133), and the
model's own two, what the host does next and the open parameter OUT_DEPTH (R37, log 1, log 3). -/

namespace Sys2Proof.Machine

/-- One entry of the node arena (10_state.md R24). -/
structure Node where
  leaf : Bool
  sym : Byte
  wt : Weight
  left : NodeIdx
  right : NodeIdx
  deriving DecidableEq, Repr

/-- One entry of the code table (R26): LEN, and BITS left-aligned. -/
structure Code where
  len : Byte
  bits : BitVec 256
  deriving DecidableEq, Repr

/-- What the host does at the block's ports (70_reset_and_hazards.md R133): it delivers a command word, takes the byte at
the head of OUTQ, or drives the reset input. -/
inductive HostEvent where
  | command (w : Word)
  | drain
  | rst
  deriving DecidableEq, Repr

/-- OUT_DEPTH, at least 1 (00_scope.md R6): a FIFO of `more + 1` bytes, or the unbounded list that 20_memory.md R44 allows a
model (log 3). -/
inductive OutDepth where
  | unbounded
  | fifo (more : Nat)
  deriving DecidableEq, Repr

/-- What resp_data and err_o show while a command executes: RESP and STATUS.ERR as they were before it (R133, log 4). -/
structure Shown where
  resp : Word
  err : Bool
  deriving DecidableEq, Repr

/-- The error codes of 60_exceptions.md R109. -/
inductive Err where
  | illegal | seq | range | nocode | decBadbit | decEos | decTrail
  deriving DecidableEq, Repr

/-- The state of the block (R35), the progress of a command that waits for room in OUTQ (20_memory.md R44), the done pulse (R133),
and the model's own two fields. -/
structure State where
  /-- RESP (R15) -/
  resp : Word
  /-- STATUS bit 0, ERR (R16) -/
  err : Bool
  /-- STATUS bit 1, TREE_VALID (R17) -/
  treeValid : Bool
  /-- STATUS bit 2, CODES_VALID (R18) -/
  codesValid : Bool
  /-- STATUS bit 3, EMPTY (R19) -/
  empty : Bool
  /-- STATUS bit 4, SINGLE (R19) -/
  single : Bool
  /-- STATUS bit 5, PACK_OPEN (R20) -/
  packOpen : Bool
  /-- STATUS bit 6, UNPACK_OPEN (R20) -/
  unpackOpen : Bool
  /-- STATUS bit 7, U_LAST (R20) -/
  uLast : Bool
  /-- ERRCODE (R21) -/
  errCode : Byte
  /-- ERRCMD (R21) -/
  errCmd : Word
  /-- ERRINFO (R21) -/
  errInfo : Word
  /-- FREQ[0..255] (R22) -/
  freq : Vector Count 256
  /-- NODE[0..510] (R24) -/
  node : Vector Node 511
  /-- ROOT (R25) -/
  root : NodeIdx
  /-- NODE_CNT (R25) -/
  nodeCnt : BitVec 10
  /-- LEAF_CNT (R25) -/
  leafCnt : BitVec 9
  /-- CODE[0..255] (R26) -/
  code : Vector Code 256
  /-- ACC (R27) -/
  acc : Byte
  /-- NACC (R27) -/
  nacc : BitVec 4
  /-- P_BYTES (R28) -/
  pBytes : Word
  /-- P_BITS (R28) -/
  pBits : Word
  /-- P_SYMS (R28) -/
  pSyms : Word
  /-- P_PAD (R28) -/
  pPad : BitVec 3
  /-- U_PAD (R29) -/
  uPad : BitVec 3
  /-- U_REM (R29) -/
  uRem : Weight
  /-- U_NODE (R29) -/
  uNode : NodeIdx
  /-- U_USED (R30) -/
  uUsed : Word
  /-- U_FED (R30) -/
  uFed : Word
  /-- U_SYMS (R30) -/
  uSyms : Word
  /-- OUTQ, the head first (20_memory.md R44); while a command waits for room, the bytes it has yet to emit stand beyond the depth -/
  outq : List Byte
  /-- a command executes and waits for room in OUTQ (R44): cmd_ready is 0, and the ports show this (R133, log 4) -/
  executing : Option Shown
  /-- done: the last step ended a command, which completed, raised an error or was dropped (R133, log 13) -/
  done : Bool
  /-- the model's own: what the host does next, first to last (log 1) -/
  inbox : List HostEvent
  /-- the model's own: OUT_DEPTH (R6, log 3) -/
  outDepth : OutDepth
  deriving DecidableEq, Repr

/-- Why the machine stops. -/
inductive Fault where
  /-- Raised by NODE_WT, NODE_LNK, GENCODES, UNPACK_FEED and UNPACK_LAST: a walk of the arena met an index above 510, or
  GENCODES met a path of more than 255 steps. R24, R36 and R80 exclude both in every reachable state (log 8). Safe: the model stops
  where no run of the hardware comes. -/
  | arenaMalformed
  deriving DecidableEq, Repr

/-- Why the machine gives a command no meaning. -/
inductive Refusal where
  /-- Raised by an arm of `exec` whose command has no meaning yet; safe. No arm of this model raises it. -/
  | notModelled (mnemonic : String)
  deriving DecidableEq, Repr

/-- The result of running a command. -/
abbrev Result := Host.Outcome State Fault Refusal

/-- An arena entry nothing has written (unspecified and unobservable by R24; zeros are a DESIGN CHOICE, log 6). -/
def Node.blank : Node := ⟨false, 0, 0, 0, 0⟩

/-- A code entry of no code; also what the code table holds at reset (there a DESIGN CHOICE, log 6). -/
def Code.blank : Code := ⟨0, 0⟩

/-- The state after reset (R35), before the host has done anything. -/
def State.reset : State where
  resp := 0
  err := false
  treeValid := false
  codesValid := false
  empty := false
  single := false
  packOpen := false
  unpackOpen := false
  uLast := false
  errCode := 0
  errCmd := 0
  errInfo := 0
  freq := Vector.replicate 256 0
  node := Vector.replicate 511 Node.blank
  root := Config.nil
  nodeCnt := 0
  leafCnt := 0
  code := Vector.replicate 256 Code.blank
  acc := 0
  nacc := 0
  pBytes := 0
  pBits := 0
  pSyms := 0
  pPad := 0
  uPad := 0
  uRem := 0
  uNode := Config.nil
  uUsed := 0
  uFed := 0
  uSyms := 0
  outq := []
  executing := none
  done := false
  inbox := []
  outDepth := .unbounded

end Sys2Proof.Machine
end

