-- ==== Sys2Proof/Machine/Flags.lean ====
section
/-! DEFINITION. The STATUS word and the changes of its flags (10_state.md R16 to R20). -/

namespace Sys2Proof.Machine

/-- A flag at a bit of a 32-bit word. -/
def flagBit (b : Bool) (i : Nat) : Word := (BitVec.ofBool b).setWidth 32 <<< i

/-- STATUS as REG_RD and ERRINFO show it: ERR is bit 0, U_LAST is bit 7, bits 31:8 read as zero (R16). -/
def State.status (s : State) : Word :=
  flagBit s.err 0 ||| flagBit s.treeValid 1 ||| flagBit s.codesValid 2 ||| flagBit s.empty 3 ||| flagBit s.single 4
    ||| flagBit s.packOpen 5 ||| flagBit s.unpackOpen 6 ||| flagBit s.uLast 7

/-- A session is open (R20): PACK_OPEN or UNPACK_OPEN. -/
def State.sessionOpen (s : State) : Bool := s.packOpen || s.unpackOpen

/-- A write to FREQ clears TREE_VALID, CODES_VALID, EMPTY and SINGLE (R17 to R19; 40_freq_table.md R75, R77). -/
def State.invalidate (s : State) : State :=
  { s with treeValid := false, codesValid := false, empty := false, single := false }

/-- The flags BUILD leaves for a tree of `leaves` leaves (41_tree_builder.md R78). -/
def State.treeFlags (s : State) (leaves : Nat) : State :=
  { s with treeValid := true, codesValid := false, empty := leaves == 0, single := leaves == 1 }

end Sys2Proof.Machine
end

