-- ==== Sys2Proof/Machine/Operands.lean ====
section
/-! DEFINITION. How operands, stored fields and results are cut and joined: zero extension (00_scope.md R8), the bit order of
packed bytes and code slices (20_memory.md R40, R41), the packed response words (41_tree_builder.md R78, R84) and the
accumulator's shifts (43_bit_packer.md R91, R92). -/

namespace Sys2Proof.Machine

/-- `zext_32` (R8). -/
def zext {n : Nat} (v : BitVec n) : Word := v.setWidth 32

/-- The bits of a packed byte in the order they are read, bit 7 first (20_memory.md R40). -/
def byteBits (v : Byte) : List Bool := (List.range 8).map fun i => v.getLsbD (7 - i)

/-- The budget bits of the last packed byte: its 8 - PAD high bits (44_bit_unpacker.md R98, R100). -/
def budgetBits (pad : BitVec 3) (v : Byte) : List Bool := (byteBits v).take (8 - pad.toNat)

/-- Word K of a code, BITS[255-32K : 224-32K] (42_code_generator.md R89). -/
def codeSlice (bits : BitVec 256) (k : BitVec 3) : Word := bits.extractLsb' (224 - 32 * k.toNat) 32

/-- The bits of a code in emission order: c⟨i⟩ is BITS[255-i], for i below LEN (10_state.md R26). -/
def Code.path (c : Code) : List Bool := (List.range c.len.toNat).map fun i => c.bits.getLsbD (255 - i)

/-- A bit string stored left-aligned from bit 255-j on (R26, R85): BITS[255-j] holds its first bit. -/
def leftAlign : Nat → List Bool → BitVec 256
  | _, [] => 0
  | j, b :: p => ((BitVec.ofBool b).setWidth 256 <<< (255 - j)) ||| leftAlign (j + 1) p

/-- The code entry of a path from the root (R85). -/
def Code.ofPath (p : List Bool) : Code := ⟨BitVec.ofNat 8 p.length, leftAlign 0 p⟩

/-- The accumulator with one more code bit at bit 0 (43_bit_packer.md R91). -/
def shiftIn (acc : Byte) (b : Bool) : Byte := (acc <<< 1) ||| (BitVec.ofBool b).setWidth 8

/-- The last byte of a pack session: the accumulator padded on the right with zero bits (R92). -/
def padAcc (acc : Byte) (nacc : BitVec 4) : Byte := acc <<< (8 - nacc.toNat)

/-- BUILD's response: LEAF_CNT in 24:16, ROOT in 8:0 (41_tree_builder.md R78). -/
def buildResp (leafCnt : BitVec 9) (root : NodeIdx) : Word := (zext leafCnt <<< 16) ||| zext root

/-- NODE_LNK's response: a leaf's symbol in 7:0 under bit 31, an internal node's RIGHT in 24:16 and LEFT in 8:0
(41_tree_builder.md R84). -/
def linkWord (n : Node) : Word :=
  if n.leaf then 0x80000000#32 ||| zext n.sym else (zext n.right <<< 16) ||| zext n.left

/-- PACC, NACC in 11:8 and ACC in 7:0 as REG_RD shows them (10_state.md R27). -/
def paccWord (acc : Byte) (nacc : BitVec 4) : Word := (zext nacc <<< 8) ||| zext acc

end Sys2Proof.Machine
end

