-- ==== Sys2Proof/Machine/Ops.lean ====
section
/-! DEFINITION. The named operations over the block's spaces (20_memory.md R38) and the shared shape of every command:
the drop while an error is pending (60_exceptions.md R112, R114), the `require` checks (00_scope.md R9), raising an error (R110,
R115), completing with a response (10_state.md R15), and the reset of every element (R35, R123). -/

namespace Sys2Proof.Machine

/-! ## The spaces -/

/-- FREQ[sym] (10_state.md R22). -/
def State.freqAt (s : State) (sym : Byte) : Count := s.freq[sym.toNat]'sym.isLt

/-- FREQ[sym] <- cnt (R75). -/
def State.setFreq (s : State) (sym : Byte) (cnt : Count) : State :=
  { s with freq := s.freq.set sym.toNat cnt sym.isLt }

/-- FREQ[s] <- 0 for every s (R77). -/
def State.clearFreq (s : State) : State := { s with freq := Vector.replicate 256 0 }

/-- The exact sum of a frequency table. -/
def sumCounts (freq : Vector Count 256) : Nat := (freq.toList.map BitVec.toNat).sum

/-- TOTAL, equal at every moment to the sum of FREQ (R23). -/
def State.total (s : State) : Weight := BitVec.ofNat 24 (sumCounts s.freq)

/-- NODE[i] (R24); `none` for the index 511, which the arena does not have. -/
def State.nodeAt? (s : State) (i : NodeIdx) : Option Node := s.node[i.toNat]?

/-- CODE[sym] (R26). -/
def State.codeAt (s : State) (sym : Byte) : Code := s.code[sym.toNat]'sym.isLt

/-- emit(b): append b at the tail of OUTQ (20_memory.md R44). -/
def State.emit (s : State) (b : Byte) : State := { s with outq := s.outq ++ [b] }

/-! ## Errors -/

/-- The code of an error in ERRCODE (60_exceptions.md R109). -/
def Err.code : Err → Byte
  | .illegal => 0x01
  | .seq => 0x02
  | .range => 0x03
  | .nocode => 0x04
  | .decBadbit => 0x05
  | .decEos => 0x06
  | .decTrail => 0x07

/-- The decode errors, which also close the unpack session (R115). -/
def Err.isDecode : Err → Bool
  | .decBadbit | .decEos | .decTrail => true
  | .illegal | .seq | .range | .nocode => false

/-- Taking an error: ERR, ERRCODE, ERRCMD and ERRINFO are written (R110), a decode error closes the unpack session (R115), and
RESP is not written. There is no vector, no saved pc and no mode change. -/
def State.raise (s : State) (cmd : Word) (e : Err) (info : Word) : State :=
  { s with err := true, errCode := e.code, errCmd := cmd, errInfo := info, unpackOpen := s.unpackOpen && !e.isDecode }

/-- The return from an error: ERR and ERRCODE are cleared, nothing else is restored (R116, 45_control.md R105). -/
def State.clearErr (s : State) : State := { s with err := false, errCode := 0 }

/-! ## The shape of a command -/

/-- A command completes and writes RESP (10_state.md R15). -/
def complete (resp : Word) (s : State) : Result := .next { s with resp := resp }

/-- A command ends in an error (R110). -/
def fail (cmd : Word) (e : Err) (info : Word) (s : State) : Result := .next (s.raise cmd e info)

/-- While ERR = 1 the command is dropped and changes nothing (R112); otherwise it goes on. -/
def unlessPending (s : State) (body : Result) : Result := if s.err then .next s else body

/-- `require ok else e(info)` (R9). -/
def require (ok : Bool) (cmd : Word) (e : Err) (info : Word) (s : State) (body : Result) : Result :=
  if ok then body else fail cmd e info s

/-- The `require` of the sequencing rules: E_SEQ with STATUS as it was before the command (R109, 70_reset_and_hazards.md R127). -/
def requireSeq (ok : Bool) (cmd : Word) (s : State) (body : Result) : Result := require ok cmd .seq s.status s body

/-- A word that is no command: dropped while ERR = 1, else E_ILLEGAL (30_encoding.md R69, R70; R114). -/
def illegalCommand (w : Word) (d : DecodeError) (s : State) : Result := unlessPending s (fail w .illegal d.info s)

/-! ## Reset -/

/-- Every element at its reset value (R35, R122). The arena and the code table are not cleared (R123, log 7); what the host does
next and OUT_DEPTH are no elements of the block (R37). No command executes after it (R124). -/
def State.toReset (s : State) : State :=
  { State.reset with node := s.node, code := s.code, inbox := s.inbox, outDepth := s.outDepth }

end Sys2Proof.Machine
end

