-- ==== Sys2Proof/Machine/BitPacker.lean ====
section
/-! DEFINITION. The bit packer (43_bit_packer.md R90 to R94). -/

namespace Sys2Proof.Machine

/-- PACK_BEGIN (R90): P_PAD keeps the value of the last flush. -/
def execPackBegin (s : State) : Result :=
  unlessPending s <|
  requireSeq (s.codesValid && !s.sessionOpen) (encode .packBegin) s <|
  complete 0 { s with acc := 0, nacc := 0, pBytes := 0, pBits := 0, pSyms := 0, packOpen := true }

/-- One code bit into the accumulator; the eighth flushes it (R91). -/
def packBit (s : State) (b : Bool) : State :=
  if s.nacc + 1 = 8 then
    { s.emit (shiftIn s.acc b) with acc := 0, nacc := 0, pBytes := s.pBytes + 1 }
  else { s with acc := shiftIn s.acc b, nacc := s.nacc + 1 }

/-- The code bits of one symbol into the accumulator, the first bit first (R91). -/
def packBits (bits : List Bool) (s : State) : State := bits.foldl packBit s

/-- PACK_SYM sym (R91). Its response is the number of bytes the command emitted. -/
def execPackSym (sym : Byte) (s : State) : Result :=
  unlessPending s <|
  requireSeq s.packOpen (encode (.packSym sym)) s <|
  require (decide ((s.codeAt sym).len ≠ 0)) (encode (.packSym sym)) .nocode (zext sym) s <|
  let t := packBits (s.codeAt sym).path s
  complete (BitVec.ofNat 32 (t.outq.length - s.outq.length))
    { t with pBits := t.pBits + zext (s.codeAt sym).len, pSyms := t.pSyms + 1 }

/-- The end of a pack session (R92): a byte in progress is padded with zeros and emitted, and the session closes. -/
def flushAcc (s : State) : State :=
  if s.nacc = 0 then { s with pPad := 0, acc := 0, nacc := 0, packOpen := false }
  else
    { s.emit (padAcc s.acc s.nacc) with
      pBytes := s.pBytes + 1, pPad := BitVec.ofNat 3 (8 - s.nacc.toNat), acc := 0, nacc := 0, packOpen := false }

/-- PACK_FLUSH (R92). -/
def execPackFlush (s : State) : Result :=
  unlessPending s <|
  requireSeq s.packOpen (encode .packFlush) s <|
  complete (zext (flushAcc s).pPad) (flushAcc s)

end Sys2Proof.Machine
end

