-- ==== Sys2Proof/Machine/BitUnpacker.lean ====
section
/-! DEFINITION. The bit unpacker (44_bit_unpacker.md R95 to R102). -/

namespace Sys2Proof.Machine

/-- UNPACK_BEGIN pad (R95). -/
def execUnpackBegin (pad : BitVec 3) (s : State) : Result :=
  unlessPending s <|
  requireSeq (s.treeValid && !s.sessionOpen) (encode (.unpackBegin pad)) s <|
  complete (zext s.total)
    { s with
      uPad := pad, uRem := s.total, uNode := s.root, uUsed := 0, uFed := 0, uSyms := 0, uLast := false
      unpackOpen := true }

/-- What a walk of budget bits came to: it used them all and the command has emitted `e` symbols, or it stopped at a bit with a
decode error, or it left the arena (log 8). -/
inductive Walk where
  | ok (s : State) (e : Nat)
  | raised (err : Err) (s : State)
  | lost
  deriving DecidableEq, Repr

/-- Emit a decoded symbol (R96). -/
def emitSym (s : State) (sym : Byte) : State :=
  { s.emit sym with uRem := s.uRem - 1, uSyms := s.uSyms + 1 }

/-- `ubit(x)` (R96): consume one budget bit. A bit that raises is not counted in U_USED. -/
def ubit (x : Bool) (s : State) (e : Nat) : Walk :=
  if s.uRem = 0 then .raised .decTrail s
  else
    match s.nodeAt? s.uNode with
    | none => .lost
    | some n =>
      if n.leaf then
        if x then .raised .decBadbit s else .ok { emitSym s n.sym with uUsed := s.uUsed + 1 } (e + 1)
      else
        match s.nodeAt? (if x then n.right else n.left) with
        | none => .lost
        | some m =>
          if m.leaf then .ok { emitSym s m.sym with uNode := s.root, uUsed := s.uUsed + 1 } (e + 1)
          else .ok { s with uNode := if x then n.right else n.left, uUsed := s.uUsed + 1 } e

/-- The budget bits of one byte, the first first (R97, R98); the first that raises ends the walk (R111). -/
def feedBits : List Bool → State → Nat → Walk
  | [], s, e => .ok s e
  | x :: xs, s, e =>
    match ubit x s e with
    | .ok s e => feedBits xs s e
    | .raised err s => .raised err s
    | .lost => .lost

/-- A walk's outcome as a command's: a decode error carries U_USED as the bits before it left it (R96, R109). -/
def afterWalk (cmd : Word) (w : Walk) (k : State → Nat → Result) : Result :=
  match w with
  | .ok s e => k s e
  | .raised err s => fail cmd err s.uUsed s
  | .lost => .fault .arenaMalformed

/-- UNPACK_FEED byte (R97). -/
def execUnpackFeed (v : Byte) (s : State) : Result :=
  unlessPending s <|
  requireSeq (s.unpackOpen && !s.uLast) (encode (.unpackFeed v)) s <|
  afterWalk (encode (.unpackFeed v)) (feedBits (byteBits v) s 0) fun t e =>
  complete (BitVec.ofNat 32 e) { t with uFed := t.uFed + 1 }

/-- UNPACK_LAST byte (R98). For E_DEC_EOS the count of U_FED and U_LAST stand (60_exceptions.md R111). -/
def execUnpackLast (v : Byte) (s : State) : Result :=
  unlessPending s <|
  requireSeq (s.unpackOpen && !s.uLast) (encode (.unpackLast v)) s <|
  afterWalk (encode (.unpackLast v)) (feedBits (budgetBits s.uPad v) s 0) fun t e =>
  require (decide (t.uRem = 0)) (encode (.unpackLast v)) .decEos t.uUsed { t with uFed := t.uFed + 1, uLast := true } <|
  complete (BitVec.ofNat 32 e) { t with uFed := t.uFed + 1, uLast := true }

/-- UNPACK_END (R99). -/
def execUnpackEnd (s : State) : Result :=
  unlessPending s <|
  requireSeq s.unpackOpen (encode .unpackEnd) s <|
  requireSeq (decide (s.uFed = 0) || s.uLast) (encode .unpackEnd) s <|
  require (decide (s.uRem = 0)) (encode .unpackEnd) .decEos s.uUsed s <|
  complete s.uSyms { s with unpackOpen := false }

end Sys2Proof.Machine
end

