-- ==== Sys2Proof/Machine/CodeGenerator.lean ====
section
/-! DEFINITION. The code table generator (42_code_generator.md R85 to R89). -/

namespace Sys2Proof.Machine

/-- The code table with no code at all, which GENCODES starts from (R85). -/
def noCodes : Vector Code 256 := Vector.replicate 256 Code.blank

/-- `visit(i, p)` of R85: the pre-order walk that appends 0 going left and 1 going right and gives each leaf its path. The first
argument bounds the depth; `none` when the walk leaves the arena or goes deeper (excluded by R80, log 8). -/
def visit (nodes : Vector Node 511) : Nat → NodeIdx → List Bool → Vector Code 256 → Option (Vector Code 256)
  | 0, _, _, _ => none
  | depth + 1, i, p, tbl =>
    match nodes[i.toNat]? with
    | none => none
    | some n =>
      if n.leaf then some (tbl.set n.sym.toNat (Code.ofPath p) n.sym.isLt)
      else
        match visit nodes depth n.left (p ++ [false]) tbl with
        | none => none
        | some tbl => visit nodes depth n.right (p ++ [true]) tbl

/-- The code table of a tree (R85): no code for the empty tree, "0" for a single leaf (R87), else every leaf's path. -/
def codeTable (nodes : Vector Node 511) (root : NodeIdx) : Option (Vector Code 256) :=
  if root = Config.nil then some noCodes
  else
    match nodes[root.toNat]? with
    | none => none
    | some n =>
      if n.leaf then some (noCodes.set n.sym.toNat ⟨1, 0⟩ n.sym.isLt)
      else visit nodes (Config.maxCodeLen + 1) root [] noCodes

/-- The longest code length of a table, GENCODES' response (R85). -/
def maxLen (tbl : Vector Code 256) : Nat := (tbl.toList.map fun c => c.len.toNat).foldl max 0

/-- GENCODES (R85). -/
def execGencodes (s : State) : Result :=
  unlessPending s <|
  requireSeq (s.treeValid && !s.sessionOpen) (encode .gencodes) s <|
  match codeTable s.node s.root with
  | none => .fault .arenaMalformed
  | some tbl => complete (BitVec.ofNat 32 (maxLen tbl)) { s with code := tbl, codesValid := true }

/-- CODE_LEN sym (R88). -/
def execCodeLen (sym : Byte) (s : State) : Result :=
  unlessPending s <|
  requireSeq s.codesValid (encode (.codeLen sym)) s <|
  complete (zext (s.codeAt sym).len) s

/-- CODE_BITS sym, k (R89). -/
def execCodeBits (sym : Byte) (k : BitVec 3) (s : State) : Result :=
  unlessPending s <|
  requireSeq s.codesValid (encode (.codeBits sym k)) s <|
  complete (codeSlice (s.codeAt sym).bits k) s

end Sys2Proof.Machine
end

