-- ==== Sys2Proof/Machine/Control.lean ====
section
/-! DEFINITION. The control commands (45_control.md R103 to R106), which run while an error is pending (60_exceptions.md R112),
and the register map of REG_RD (10_state.md R32). -/

namespace Sys2Proof.Machine

/-- The register map, in the order of the register numbers 0x00 to 0x13 (R32). -/
def regMap : List Reg := [
  .status, .errcode, .errcmd, .errinfo, .root, .nodeCnt, .leafCnt, .total, .pacc, .pBytes,
  .pBits, .pSyms, .pPad, .uPad, .uRem, .uUsed, .uFed, .uSyms, .uNode, .id]

/-- The value REG_RD returns, zero-extended (R32). -/
def State.readReg (s : State) : Reg → Word
  | .status => s.status
  | .errcode => zext s.errCode
  | .errcmd => s.errCmd
  | .errinfo => s.errInfo
  | .root => zext s.root
  | .nodeCnt => zext s.nodeCnt
  | .leafCnt => zext s.leafCnt
  | .total => zext s.total
  | .pacc => paccWord s.acc s.nacc
  | .pBytes => s.pBytes
  | .pBits => s.pBits
  | .pSyms => s.pSyms
  | .pPad => zext s.pPad
  | .uPad => zext s.uPad
  | .uRem => zext s.uRem
  | .uUsed => s.uUsed
  | .uFed => s.uFed
  | .uSyms => s.uSyms
  | .uNode => zext s.uNode
  | .id => Config.idValue

/-- NOP (R103). -/
def execNop (s : State) : Result := complete 0 s

/-- REG_RD reg (R104): runs in every state for a number of the map; any other number raises E_RANGE, and while ERR = 1 is
dropped instead (R112). -/
def execRegRd (v : Byte) (s : State) : Result :=
  match regMap[v.toNat]? with
  | some r => complete (s.readReg r) s
  | none => unlessPending s <| fail (encode (.regRd v)) .range (zext v) s

/-- ERR_CLR (R105). -/
def execErrClr (s : State) : Result := complete (zext s.errCode) s.clearErr

/-- SRESET (R106): RESP too is at its reset value. -/
def execSreset (s : State) : Result := .next s.toReset

end Sys2Proof.Machine
end

