-- ==== Sys2Proof/Machine/FreqTable.lean ====
section
/-! DEFINITION. The frequency-table commands (40_freq_table.md R75 to R77). -/

namespace Sys2Proof.Machine

/-- FREQ_WR sym, cnt (R75). -/
def execFreqWr (sym : Byte) (cnt : Count) (s : State) : Result :=
  unlessPending s <|
  requireSeq (!s.sessionOpen) (encode (.freqWr sym cnt)) s <|
  complete 0 (s.setFreq sym cnt).invalidate

/-- FREQ_RD sym (R76). -/
def execFreqRd (sym : Byte) (s : State) : Result :=
  unlessPending s <| complete (zext (s.freqAt sym)) s

/-- FREQ_CLR (R77). -/
def execFreqClr (s : State) : Result :=
  unlessPending s <|
  requireSeq (!s.sessionOpen) (encode .freqClr) s <|
  complete 0 s.clearFreq.invalidate

end Sys2Proof.Machine
end

