-- ==== Sys2Proof/Machine/TreeBuilder.lean ====
section
/-! DEFINITION. The tree builder (41_tree_builder.md R78 to R84). The priority queue exists only inside BUILD (10_state.md R33). -/

namespace Sys2Proof.Machine

/-- The leaf of a symbol (R78, R79). -/
def leafNode (sym : Byte) (cnt : Count) : Node := ⟨true, sym, cnt.setWidth 24, Config.nil, Config.nil⟩

/-- The internal node over two nodes of the queue; its weight is their sum, in 24 bits (R78). -/
def innerNode (wt : Weight) (left right : Nat) : Node := ⟨false, 0, wt, BitVec.ofNat 9 left, BitVec.ofNat 9 right⟩

/-- One leaf per symbol with a non-zero count, in ascending order of symbol (R79). -/
def leafArena (freq : Vector Count 256) : List Node :=
  freq.toList.zipIdx.filterMap fun (cnt, sym) => if cnt = 0 then none else some (leafNode (BitVec.ofNat 8 sym) cnt)

/-- What the queue holds of a node: its weight and its index (R80). -/
structure QKey where
  wt : Weight
  idx : Nat
  deriving DecidableEq, Repr

/-- The order of removal: least weight, among equal weights the earliest inserted, that is the lowest index (R78, R80). -/
def QKey.before (a b : QKey) : Bool := decide (a.wt < b.wt) || (decide (a.wt = b.wt) && decide (a.idx < b.idx))

/-- The first of `k` and `ks` in the order of removal. -/
def leastKey (k : QKey) (ks : List QKey) : QKey := ks.foldl (fun a b => if b.before a then b else a) k

/-- Remove the first node in the order of removal (R80). -/
def takeLeast : List QKey → Option (QKey × List QKey)
  | [] => none
  | k :: ks => some (leastKey k ks, (k :: ks).erase (leastKey k ks))

/-- The merge loop of R78: while the queue holds two nodes, the first removed becomes LEFT, the second RIGHT, and the new node
takes the next index and enters the queue. Each round shortens the queue by one, so its length bounds the rounds. -/
def mergeAll : Nat → List Node → List QKey → List Node
  | 0, arena, _ => arena
  | rounds + 1, arena, q =>
    match takeLeast q with
    | none => arena
    | some (a, q) =>
      match takeLeast q with
      | none => arena
      | some (b, q) =>
        mergeAll rounds (arena ++ [innerNode (a.wt + b.wt) a.idx b.idx]) (q ++ [⟨a.wt + b.wt, arena.length⟩])

/-- The queue of the leaves, in index order (R78). -/
def leafQueue (leaves : List Node) : List QKey := leaves.zipIdx.map fun (n, i) => ⟨n.wt, i⟩

/-- The arena entries 0 to NODE_CNT-1 that BUILD makes from a frequency table (R78, R79). -/
def buildArena (freq : Vector Count 256) : List Node :=
  mergeAll (leafArena freq).length (leafArena freq) (leafQueue (leafArena freq))

/-- The arena with its first entries overwritten; the others keep what they hold (10_state.md R24). -/
def overlay (nodes : List Node) (old : Vector Node 511) : Vector Node 511 :=
  Vector.ofFn fun i : Fin 511 => (nodes[i.val]?).getD old[i.val]

/-- ROOT of an arena (R78): its last entry, or NIL when it is empty. -/
def rootOf (nodes : List Node) : NodeIdx := if nodes.isEmpty then Config.nil else BitVec.ofNat 9 (nodes.length - 1)

/-- The state that holds the tree of the current FREQ (R78): arena, ROOT, NODE_CNT, LEAF_CNT and the flags. -/
def State.withTree (s : State) : State :=
  { s with
    node := overlay (buildArena s.freq) s.node
    root := rootOf (buildArena s.freq)
    nodeCnt := BitVec.ofNat 10 (buildArena s.freq).length
    leafCnt := BitVec.ofNat 9 (leafArena s.freq).length }.treeFlags (leafArena s.freq).length

/-- BUILD (R78). -/
def execBuild (s : State) : Result :=
  unlessPending s <|
  requireSeq (!s.sessionOpen) (encode .build) s <|
  complete (buildResp s.withTree.leafCnt s.withTree.root) s.withTree

/-- A node the host names by its index: E_SEQ without a valid tree, E_RANGE at or above NODE_CNT (R83, R84). -/
def withNode (cmd : Word) (idx : NodeIdx) (s : State) (k : Node → Result) : Result :=
  requireSeq s.treeValid cmd s <|
  require (decide (idx.toNat < s.nodeCnt.toNat)) cmd .range (zext idx) s <|
  match s.nodeAt? idx with
  | none => .fault .arenaMalformed
  | some n => k n

/-- NODE_WT idx (R83). -/
def execNodeWt (idx : NodeIdx) (s : State) : Result :=
  unlessPending s <| withNode (encode (.nodeWt idx)) idx s fun n => complete (zext n.wt) s

/-- NODE_LNK idx (R84). -/
def execNodeLnk (idx : NodeIdx) (s : State) : Result :=
  unlessPending s <| withNode (encode (.nodeLnk idx)) idx s fun n => complete (linkWord n) s

end Sys2Proof.Machine
end

