-- ==== Sys2Proof/Machine/Dispatch.lean ====
section
/-! DEFINITION. One arm per command (30_encoding.md R68), each one call of its meaning. -/

namespace Sys2Proof.Machine

def exec (i : Instr) (s : State) : Host.Outcome State Fault Refusal :=
  match i with
  | .nop => Sys2Proof.Machine.execNop s
  | .freqWr sym cnt => Sys2Proof.Machine.execFreqWr sym cnt s
  | .freqRd sym => Sys2Proof.Machine.execFreqRd sym s
  | .freqClr => Sys2Proof.Machine.execFreqClr s
  | .build => Sys2Proof.Machine.execBuild s
  | .nodeWt idx => Sys2Proof.Machine.execNodeWt idx s
  | .nodeLnk idx => Sys2Proof.Machine.execNodeLnk idx s
  | .gencodes => Sys2Proof.Machine.execGencodes s
  | .codeLen sym => Sys2Proof.Machine.execCodeLen sym s
  | .codeBits sym k => Sys2Proof.Machine.execCodeBits sym k s
  | .packBegin => Sys2Proof.Machine.execPackBegin s
  | .packSym sym => Sys2Proof.Machine.execPackSym sym s
  | .packFlush => Sys2Proof.Machine.execPackFlush s
  | .unpackBegin pad => Sys2Proof.Machine.execUnpackBegin pad s
  | .unpackFeed v => Sys2Proof.Machine.execUnpackFeed v s
  | .unpackLast v => Sys2Proof.Machine.execUnpackLast v s
  | .unpackEnd => Sys2Proof.Machine.execUnpackEnd s
  | .regRd v => Sys2Proof.Machine.execRegRd v s
  | .errClr => Sys2Proof.Machine.execErrClr s
  | .sreset => Sys2Proof.Machine.execSreset s

end Sys2Proof.Machine
end

