-- ==== Sys2Proof/Machine/HostPort.lean ====
section
/-! DEFINITION. The block's ports (70_reset_and_hazards.md R133) seen from the block: what a host event does, and the wait of a
command that emits into a full OUTQ (20_memory.md R44, R131). -/

namespace Sys2Proof.Machine

/-- OUTQ of a depth has room for `n` bytes (R6, R44); the unbounded list has room for any number. -/
def fits : OutDepth → Nat → Bool
  | .unbounded, _ => true
  | .fifo more, n => decide (n ≤ more + 1)

/-- The host takes the byte at the head of OUTQ (R44); nothing is transferred while OUTQ is empty (R133: out_valid; log 5). -/
def takeByte (s : State) : State := { s with outq := s.outq.tail }

/-- The reset input (R122, R124). It ends no command: done stays 0. -/
def resetInput (s : State) : State := s.toReset

/-- No command ends in this step (R133: done is a pulse). -/
def quiet (s : State) : State := { s with done := false }

/-- A command that has run ends once its bytes have found room in OUTQ, with the done pulse; until then it goes on executing, and
the ports show what they showed before it (R44, R133). -/
def finish (shown : Shown) (s : State) : State :=
  if fits s.outDepth s.outq.length then { s with executing := none, done := true }
  else { s with executing := some shown, done := false }

/-- A command's outcome at the ports. -/
def settled (shown : Shown) : Result → Result
  | .next s => .next (finish shown s)
  | .fault f => .fault f
  | .refused r => .refused r

/-- One step of the wait for room. cmd_ready is 0, so the host's next commands stay as they are, in order (`held`); its next act at
another port takes effect: a drain takes a byte and may end the command, a reset abandons it (R124). With no such act the command
waits on, for ever if none comes (R131). -/
def waitStep (shown : Shown) (s : State) : List HostEvent → List HostEvent → State
  | _, [] => quiet s
  | held, .command w :: rest => waitStep shown s (held ++ [.command w]) rest
  | held, .drain :: rest => finish shown (takeByte { s with inbox := held ++ rest })
  | held, .rst :: rest => resetInput { s with inbox := held ++ rest }

/-- The word put on the command port in front of everything else the host does, with no command executing (log 1). -/
def deliver (s : State) (w : Word) : State := { s with inbox := .command w :: s.inbox, executing := none }

end Sys2Proof.Machine
end

