-- ==== Sys2Proof/Machine/Step.lean ====
section
/-! DEFINITION. One step of the block: what it does at the host's next event. -/

namespace Sys2Proof.Machine

/-- A word accepted at the command port is decoded and run (00_scope.md R10), or raises E_ILLEGAL (30_encoding.md R69 to R71). -/
def runWord (w : Word) (s : State) : Result :=
  match decode w with
  | .ok i => exec i s
  | .error d => illegalCommand w d s

/-- The host's next event (70_reset_and_hazards.md R122, R133). A command word runs, and ends once its bytes have found room in OUTQ;
while one waits for room, `waitStep`. With no event the block keeps its state (60_exceptions.md R121, R125, log 2). -/
def step (s : State) : Host.Outcome State Fault Refusal :=
  match s.executing with
  | some shown => .next (waitStep shown s [] s.inbox)
  | none =>
    match s.inbox with
    | [] => .next (quiet s)
    | .drain :: rest => .next (takeByte (quiet { s with inbox := rest }))
    | .rst :: rest => .next (resetInput { s with inbox := rest })
    | .command w :: rest => settled ⟨s.resp, s.err⟩ (runWord w { s with inbox := rest })

/-- `s` with the word that `nbits` bits `w` of the opcode table make delivered next at the command port (log 1). -/
def State.withFetchWord (s : State) (nbits w : Nat) : State := deliver s (tableWord nbits w)

end Sys2Proof.Machine
end

