-- ==== Sys2Proof/WellFormed.lean ====
section
/-! DEFINITION. When an assembly command is well formed (30_encoding.md R67, R73): the operands its format asks for, each
fitting its field. A term of `Instr` is well formed by its types: its operands have the widths of R66, and every value of a
field is a legal operand (R67; the range of IDX and of a register number is checked when the command runs). -/

namespace Sys2Proof

/-- An operand as the assembler reads it: a number, or a register name, which only REG_RD takes (R73). -/
inductive AsmOperand where
  | num (n : Nat)
  | reg (r : Reg)
  deriving DecidableEq, Repr

/-- One line of assembly: a mnemonic and its operands in the order of R73. -/
structure AsmCmd where
  mnemonic : Mnemonic
  operands : List AsmOperand
  deriving DecidableEq, Repr

/-- Why the assembler refuses a command; each reason has a name of its own (R73). -/
inductive AsmError where
  /-- the line's first word is no mnemonic of R68 -/
  | unknownMnemonic
  /-- an operand is no number, character or register name -/
  | badOperand
  /-- the number of operands is not the format's -/
  | operandCount
  /-- a register name stands where REG_RD does not -/
  | registerName
  /-- SYM or V does not fit 8 bits -/
  | symTooWide
  /-- CNT does not fit 16 bits -/
  | cntTooWide
  /-- IDX does not fit 9 bits -/
  | idxTooWide
  /-- K does not fit 3 bits -/
  | kTooWide
  /-- PAD does not fit 3 bits -/
  | padTooWide
  deriving DecidableEq, Repr

/-- The format of each mnemonic (R68). -/
def Mnemonic.format : Mnemonic → Format
  | .nop | .freqClr | .build | .gencodes | .packBegin | .packFlush | .unpackEnd | .errClr | .sreset => .n
  | .freqRd | .codeLen | .packSym | .unpackFeed | .unpackLast | .regRd => .s8
  | .freqWr => .sc
  | .nodeWt | .nodeLnk => .i9
  | .codeBits => .sk
  | .unpackBegin => .p3

/-- What is wrong with an assembly command, if anything is: the checks of R73 in the order of its operands. -/
def AsmCmd.problem (c : AsmCmd) : Option AsmError :=
  match c.mnemonic.format, c.operands with
  | .n, [] => none
  | .s8, [.num v] => if v < 2 ^ 8 then none else some .symTooWide
  | .s8, [.reg _] => if c.mnemonic = .regRd then none else some .registerName
  | .sc, [.num sym, .num cnt] =>
    if 2 ^ 8 ≤ sym then some .symTooWide else if cnt < 2 ^ 16 then none else some .cntTooWide
  | .i9, [.num idx] => if idx < 2 ^ 9 then none else some .idxTooWide
  | .sk, [.num sym, .num k] =>
    if 2 ^ 8 ≤ sym then some .symTooWide else if k < 2 ^ 3 then none else some .kTooWide
  | .p3, [.num pad] => if pad < 2 ^ 3 then none else some .padTooWide
  | .sc, [_, _] | .i9, [_] | .sk, [_, _] | .p3, [_] => some .registerName
  | .n, _ | .s8, _ | .sc, _ | .i9, _ | .sk, _ | .p3, _ => some .operandCount

/-- An assembly command is well formed when nothing is wrong with it. -/
def AsmCmd.wellFormed (c : AsmCmd) : Bool := c.problem.isNone

end Sys2Proof
end

