-- ==== Sys2Proof/Machine/Assembler.lean ====
section
/-! DEFINITION. The assembler's side of the encoding: assembly commands and lines of text to commands (30_encoding.md R73), and
the pseudo-instructions (R74). Host side: the block sees only the words. -/

namespace Sys2Proof.Machine

/-- The number of a register (10_state.md R32). -/
def regNumber (r : Reg) : Nat := regMap.idxOf r

/-- The number an operand stands for: itself, or a register's number (R73). -/
def asmValue : AsmOperand → Nat
  | .num n => n
  | .reg r => regNumber r

/-- The command an assembly command with the right number of operands stands for. -/
def asmBuild (m : Mnemonic) (a b : Nat) : Instr :=
  match m with
  | .nop => .nop
  | .freqWr => .freqWr (BitVec.ofNat 8 a) (BitVec.ofNat 16 b)
  | .freqRd => .freqRd (BitVec.ofNat 8 a)
  | .freqClr => .freqClr
  | .build => .build
  | .nodeWt => .nodeWt (BitVec.ofNat 9 a)
  | .nodeLnk => .nodeLnk (BitVec.ofNat 9 a)
  | .gencodes => .gencodes
  | .codeLen => .codeLen (BitVec.ofNat 8 a)
  | .codeBits => .codeBits (BitVec.ofNat 8 a) (BitVec.ofNat 3 b)
  | .packBegin => .packBegin
  | .packSym => .packSym (BitVec.ofNat 8 a)
  | .packFlush => .packFlush
  | .unpackBegin => .unpackBegin (BitVec.ofNat 3 a)
  | .unpackFeed => .unpackFeed (BitVec.ofNat 8 a)
  | .unpackLast => .unpackLast (BitVec.ofNat 8 a)
  | .unpackEnd => .unpackEnd
  | .regRd => .regRd (BitVec.ofNat 8 a)
  | .errClr => .errClr
  | .sreset => .sreset

/-- Assemble one command, or refuse it by name (R73). -/
def assemble (c : AsmCmd) : Except AsmError Instr :=
  match c.problem with
  | some e => .error e
  | none => .ok (asmBuild c.mnemonic ((c.operands.map asmValue).getD 0 0) ((c.operands.map asmValue).getD 1 0))

/-! ## Text -/

/-- The spelling of the mnemonics (R68). -/
def mnemonicNames : List (String × Mnemonic) := [
  ("NOP", .nop), ("FREQ_WR", .freqWr), ("FREQ_RD", .freqRd), ("FREQ_CLR", .freqClr), ("BUILD", .build),
  ("NODE_WT", .nodeWt), ("NODE_LNK", .nodeLnk), ("GENCODES", .gencodes), ("CODE_LEN", .codeLen),
  ("CODE_BITS", .codeBits), ("PACK_BEGIN", .packBegin), ("PACK_SYM", .packSym), ("PACK_FLUSH", .packFlush),
  ("UNPACK_BEGIN", .unpackBegin), ("UNPACK_FEED", .unpackFeed), ("UNPACK_LAST", .unpackLast),
  ("UNPACK_END", .unpackEnd), ("REG_RD", .regRd), ("ERR_CLR", .errClr), ("SRESET", .sreset)]

/-- The spelling of the register names (10_state.md R32). -/
def regNames : List (String × Reg) := [
  ("STATUS", .status), ("ERRCODE", .errcode), ("ERRCMD", .errcmd), ("ERRINFO", .errinfo), ("ROOT", .root),
  ("NODE_CNT", .nodeCnt), ("LEAF_CNT", .leafCnt), ("TOTAL", .total), ("PACC", .pacc), ("P_BYTES", .pBytes),
  ("P_BITS", .pBits), ("P_SYMS", .pSyms), ("P_PAD", .pPad), ("U_PAD", .uPad), ("U_REM", .uRem),
  ("U_USED", .uUsed), ("U_FED", .uFed), ("U_SYMS", .uSyms), ("U_NODE", .uNode), ("ID", .id)]

/-- A hexadecimal digit's value. -/
def hexDigit? (c : Char) : Option Nat :=
  if '0' ≤ c ∧ c ≤ '9' then some (c.toNat - '0'.toNat)
  else if 'a' ≤ c ∧ c ≤ 'f' then some (c.toNat - 'a'.toNat + 10)
  else if 'A' ≤ c ∧ c ≤ 'F' then some (c.toNat - 'A'.toNat + 10)
  else none

/-- The value of digits in a base, the most significant first; `none` if one is no digit of it. -/
def digits? (base acc : Nat) : List Char → Option Nat
  | [] => some acc
  | c :: cs =>
    match hexDigit? c with
    | none => none
    | some d => if d < base then digits? base (acc * base + d) cs else none

/-- One operand of a line: `0x` and hexadecimal digits, decimal digits, a character in single quotes, or a register name (R73). -/
def operand? : List Char → Option AsmOperand
  | [] => none
  | '0' :: 'x' :: d :: ds => (digits? 16 0 (d :: ds)).map .num
  | ['\'', c, '\''] => some (.num c.toNat)
  | cs =>
    match digits? 10 0 cs with
    | some n => some (.num n)
    | none => (regNames.lookup (String.ofList cs)).map .reg

/-- Without the blanks around it. -/
def strip (cs : List Char) : List Char := ((cs.dropWhile (· == ' ')).reverse.dropWhile (· == ' ')).reverse

/-- The text of a line cut at its commas, up to its comment; a quoted character is taken as it stands (R73). -/
def cutLine : List Char → List Char → List (List Char)
  | cur, [] => [cur]
  | cur, '\'' :: c :: '\'' :: rest => cutLine (cur ++ ['\'', c, '\'']) rest
  | cur, ';' :: _ => [cur]
  | cur, ',' :: rest => cur :: cutLine [] rest
  | cur, c :: rest => cutLine (cur ++ [c]) rest

/-- The operands of a line, each blank-stripped; none when there is only blank text. -/
def operands? (parts : List (List Char)) : Option (List AsmOperand) :=
  match parts.map strip with
  | [[]] => some []
  | ps => ps.mapM operand?

/-- One line of assembly (R73): `none` for a line with no command. -/
def assembleLine (line : String) : Except AsmError (Option Instr) :=
  match cutLine [] line.toList with
  | [] => .ok none
  | first :: parts =>
    let first := strip first
    let name := first.takeWhile (· != ' ')
    if first.isEmpty && parts.isEmpty then .ok none
    else
      match mnemonicNames.lookup (String.ofList name) with
      | none => .error .unknownMnemonic
      | some m =>
        match operands? (first.drop name.length :: parts) with
        | none => .error .badOperand
        | some ops =>
          match assemble ⟨m, ops⟩ with
          | .ok i => .ok (some i)
          | .error e => .error e

/-! ## Pseudo-instructions -/

/-- The pseudo-instructions of R74. -/
inductive Pseudo where
  | loadFreq (entries : List (Byte × Count))
  | packBytes (bytes : List Byte)
  | encode (bytes : List Byte)
  | decode (pad : BitVec 3) (packed : List Byte)
  | clr
  deriving DecidableEq, Repr

/-- The commands that feed a packed stream: UNPACK_LAST for its last byte, UNPACK_FEED for the others, nothing for the empty
stream (R74; 20_memory.md R59). -/
def feedCommands : List Byte → List Instr
  | [] => []
  | [b] => [.unpackLast b]
  | b :: bs => .unpackFeed b :: feedCommands bs

/-- The commands a pseudo-instruction expands to (R74). -/
def Pseudo.expand : Pseudo → List Instr
  | .loadFreq entries => .freqClr :: entries.map fun (sym, cnt) => .freqWr sym cnt
  | .packBytes bytes => bytes.map .packSym
  | .encode bytes => [.build, .gencodes, .packBegin] ++ bytes.map .packSym ++ [.packFlush]
  | .decode pad packed => [.build, .unpackBegin pad] ++ feedCommands packed ++ [.unpackEnd]
  | .clr => [.errClr]

end Sys2Proof.Machine
end

