-- ==== Sys2Proof/Machine/Container.lean ====
section
/-! DEFINITION. The host's side (20_memory.md R50 to R62): the container format, and the host's encode and decode procedures as
command lists for the block. It is outside the block (00_scope.md R5) and no step of the machine uses it. -/

namespace Sys2Proof.Machine

/-- The commands of a host procedure run one after another; the first fault or refusal ends the run. No command waits for room in
OUTQ here, whatever the depth: that the host drains OUTQ, the premise of 70_reset_and_hazards.md R131, is presumed (log 19). -/
def execAll : List Instr → State → Result
  | [], s => .next s
  | i :: is, s =>
    match exec i s with
    | .next s => execAll is s
    | .fault f => .fault f
    | .refused r => .refused r

/-- Why a container is corrupt before the block is involved (R60). -/
inductive ContainerError where
  | badFlag | truncatedHeader | badPadding | repeatedValue | zeroCount
  deriving DecidableEq, Repr

/-- What a container holds (R50 to R52, R57). -/
inductive Contents where
  | empty
  | raw (bytes : List Byte)
  | encoded (entries : List (Byte × Count)) (packed : List Byte) (pad : BitVec 3)
  deriving DecidableEq, Repr

/-- A table entry: the value, then its count in little-endian order (R52, R55). -/
def entryBytes (e : Byte × Count) : List Byte := [e.1, e.2.extractLsb' 0 8, e.2.extractLsb' 8 8]

/-- The encoded form (R52): flag, distinct_count (0x00 for 256 values, R53), entries, packed stream, padding count. -/
def encodedForm (entries : List (Byte × Count)) (packed : List Byte) (pad : BitVec 3) : List Byte :=
  [1, BitVec.ofNat 8 entries.length] ++ entries.flatMap entryBytes ++ packed ++ [pad.setWidth 8]

/-- The raw form (R51). -/
def rawForm (bytes : List Byte) : List Byte := 0 :: bytes

/-- The selection of R58 for a non-empty input: the raw form unless the encoded form is shorter than the input. -/
def selectForm (input : List Byte) (entries : List (Byte × Count)) (packed : List Byte) (pad : BitVec 3) : List Byte :=
  if input.length ≤ 3 + 3 * entries.length + packed.length then rawForm input else encodedForm entries packed pad

/-- The table entries at the head of a byte list, and the rest; `none` when the list is too short. -/
def takeEntries : Nat → List Byte → Option (List (Byte × Count) × List Byte)
  | 0, bs => some ([], bs)
  | n + 1, v :: lo :: hi :: bs => (takeEntries n bs).map fun (es, rest) => ((v, (hi.setWidth 16 <<< 8) ||| lo.setWidth 16) :: es, rest)
  | _ + 1, _ => none

/-- A container read as R50 to R53 and R57 say, with the checks of R60. -/
def parseContainer : List Byte → Except ContainerError Contents
  | [] => .ok .empty
  | flag :: bs =>
    if flag = 0 then .ok (.raw bs)
    else if flag ≠ 1 then .error .badFlag
    else
      match bs with
      | [] => .error .truncatedHeader
      | d :: bs =>
        match takeEntries (if d = 0 then 256 else d.toNat) bs with
        | none => .error .truncatedHeader
        | some (entries, rest) =>
          match rest.getLast? with
          | none => .error .truncatedHeader
          | some pad =>
            if 7 < pad then .error .badPadding
            else if ¬ (entries.map Prod.fst).Nodup then .error .repeatedValue
            else if (entries.map Prod.snd).contains 0 then .error .zeroCount
            else .ok (.encoded entries rest.dropLast (pad.setWidth 3))

/-- The counts of an input, one entry per value that occurs, in ascending order of value (R54, R61); counting is the host's (R5). -/
def countEntries (input : List Byte) : List (Byte × Nat) :=
  ((List.range 256).map fun v => (BitVec.ofNat 8 v, input.count (BitVec.ofNat 8 v))).filter fun e => e.2 ≠ 0

/-- The entries as the block takes them (R61): `none` when a count exceeds 65535, and the host emits the raw form. -/
def blockEntries (input : List Byte) : Option (List (Byte × Count)) :=
  if (countEntries input).all fun e => e.2 ≤ 65535 then
    some ((countEntries input).map fun e => (e.1, BitVec.ofNat 16 e.2))
  else none

/-- The commands of R61 steps 3 and 4. -/
def encodeCommands (entries : List (Byte × Count)) (input : List Byte) : List Instr :=
  (Pseudo.loadFreq entries).expand ++ (Pseudo.encode input).expand

/-- The commands of R59 steps 3.3 to 3.6. -/
def decodeCommands (entries : List (Byte × Count)) (packed : List Byte) (pad : BitVec 3) : List Instr :=
  (Pseudo.loadFreq entries).expand ++ (Pseudo.decode pad packed).expand

/-- The bytes a run of commands emits, and the state it ends in; `none` when the run stops or an error is pending at its end. -/
def emittedBy (cmds : List Instr) (s : State) : Option (List Byte × State) :=
  match execAll cmds s with
  | .next t => if t.err then none else some (t.outq.drop s.outq.length, t)
  | .fault _ => none
  | .refused _ => none

/-- The host's compression of an input with the block in state `s` (R57, R58, R61). -/
def compress (input : List Byte) (s : State) : Option (List Byte) :=
  if input = [] then some []
  else
    match blockEntries input with
    | none => some (rawForm input)
    | some entries => (emittedBy (encodeCommands entries input) s).map fun (packed, t) => selectForm input entries packed t.pPad

/-- The host's decompression of a container with the block in state `s` (R59); `none` is a decode failure. -/
def decompress (container : List Byte) (s : State) : Option (List Byte) :=
  match parseContainer container with
  | .error _ => none
  | .ok .empty => some []
  | .ok (.raw bytes) => some bytes
  | .ok (.encoded entries packed pad) => (emittedBy (decodeCommands entries packed pad) s).map Prod.fst

end Sys2Proof.Machine
end

