-- ==== Sys2Proof/Machine/Ports.lean ====
section
/-! DEFINITION. What the host reads at the block's output ports (70_reset_and_hazards.md R133); done is the field `State.done`. Only
clk and the number of cycles are left out (log 13). -/

namespace Sys2Proof.Machine

/-- cmd_ready: the block can accept a command, since it executes none (R133, 20_memory.md R43). -/
def State.cmdReady (s : State) : Bool := s.executing.isNone

/-- err_o, a level equal to STATUS.ERR (60_exceptions.md R117); while a command executes, as it was before it (log 4). -/
def State.errO (s : State) : Bool :=
  match s.executing with
  | none => s.err
  | some shown => shown.err

/-- resp_data, the RESP register, held until the next command completes (R133). -/
def State.respData (s : State) : Word :=
  match s.executing with
  | none => s.resp
  | some shown => shown.resp

/-- out_valid: OUTQ is not empty (R133). -/
def State.outValid (s : State) : Bool := !s.outq.isEmpty

/-- out_data: the byte at the head of OUTQ, while out_valid (R133). -/
def State.outData (s : State) : Option Byte := s.outq.head?

end Sys2Proof.Machine
end

