-- ==== Sys2Proof/Safety.lean ====
section
/-! DEFINITION. What a good state of HUFFBLK is: the invariants of 10_state.md R36, with what R16, R26, R27, R44, R93, R101 and R109
add, in a form every step keeps; and when two states differ only in storage no command can show (R24, R26). -/

namespace Sys2Proof.Machine

/-- "The node arena, ROOT, NODE_CNT and LEAF_CNT hold the tree of the current FREQ contents" (R16). -/
def State.TreeCurrent (s : State) : Prop :=
  s.node.toList.take (buildArena s.freq).length = buildArena s.freq ∧
  s.nodeCnt = BitVec.ofNat 10 (buildArena s.freq).length ∧
  s.root = rootOf (buildArena s.freq) ∧
  s.leafCnt = BitVec.ofNat 9 (leafArena s.freq).length

/-- "The code table holds the codes of the current tree" (R16). -/
def State.CodesCurrent (s : State) : Prop := codeTable s.node s.root = some s.code

/-- The walker stands at ROOT, or at an internal node below it (R36.8). -/
def State.WalkerPlaced (s : State) : Prop :=
  s.uNode = s.root ∨ (s.uNode < s.root ∧ (s.nodeAt? s.uNode).map Node.leaf = some false)

/-- What a string of data bits decodes to on the tree of `s`, walked from node `u`: the symbols it completes and where the walker ends,
by the rule of 44_bit_unpacker.md R96 but for its count of the symbols owed. `none` for a 1 on a single leaf, and where the walk
leaves the arena. -/
def State.decodeBits (s : State) (u : NodeIdx) : List Bool → Option (List Byte × NodeIdx)
  | [] => some ([], u)
  | b :: bits =>
    match s.nodeAt? u with
    | none => none
    | some n =>
      if n.leaf then
        if b then none else (s.decodeBits u bits).map fun (syms, v) => (n.sym :: syms, v)
      else
        match s.nodeAt? (if b then n.right else n.left) with
        | none => none
        | some m =>
          if m.leaf then (s.decodeBits s.root bits).map fun (syms, v) => (m.sym :: syms, v)
          else s.decodeBits (if b then n.right else n.left) bits

/-- A symbol is owed before each of the bits, walked from where the walker stands: those before it have completed fewer symbols than
U_REM (R96). -/
def State.Owes (s : State) (bits : List Bool) : Prop :=
  ∀ k, k < bits.length → ∀ syms u, s.decodeBits s.uNode (bits.take k) = some (syms, u) → syms.length < s.uRem.toNat

/-- The state after the walker has consumed `used` bits that completed `syms` and led it to `u`: all that the bits write (R96). -/
def State.walked (s : State) (used : Nat) (syms : List Byte) (u : NodeIdx) : State :=
  { s with
    outq := s.outq ++ syms, uRem := s.uRem - BitVec.ofNat 24 syms.length, uSyms := s.uSyms + BitVec.ofNat 32 syms.length,
    uUsed := s.uUsed + BitVec.ofNat 32 used, uNode := u }

/-- The invariants of R36, strengthened so that every step keeps them. The part of R36.8 about the last consumed bit is not here, since
the state does not record whether a bit completed a symbol: it is `Obligations.TheWalkerReturnsToRootWithEachSymbol`. -/
structure State.Inv (s : State) : Prop where
  /-- R36.1 -/
  oneSession : ¬ (s.packOpen = true ∧ s.unpackOpen = true)
  /-- R36.2 -/
  packHasCodes : s.packOpen = true → s.codesValid = true
  /-- R36.3 -/
  unpackHasTree : s.unpackOpen = true → s.treeValid = true
  /-- R36.4 -/
  codesHaveTree : s.codesValid = true → s.treeValid = true
  /-- R16, R36.5 -/
  treeCurrent : s.treeValid = true → s.TreeCurrent
  /-- R16 -/
  codesCurrent : s.codesValid = true → s.CodesCurrent
  /-- R19 -/
  emptyFlag : s.empty = (s.treeValid && s.leafCnt == 0)
  /-- R19 -/
  singleFlag : s.single = (s.treeValid && s.leafCnt == 1)
  /-- R36.6 -/
  naccSmall : s.nacc ≤ 7
  /-- R27: the bits of ACC above NACC are 0 -/
  accClean : s.acc.toNat < 2 ^ s.nacc.toNat
  /-- R36.7 -/
  packIdle : s.packOpen = false → s.nacc = 0 ∧ s.acc = 0
  /-- R93, modulo 2^32 -/
  packAccount : s.packOpen = true → 8#32 * s.pBytes + s.nacc.setWidth 32 = s.pBits
  /-- R93, modulo 2^32 -/
  flushAccount : s.packOpen = false → 8#32 * s.pBytes - s.pPad.setWidth 32 = s.pBits
  /-- R36.8 -/
  walker : s.unpackOpen = true → s.WalkerPlaced
  /-- R36.8: the walker stands at ROOT once the last symbol is complete -/
  walkerDone : s.unpackOpen = true → s.uRem = 0 → s.uNode = s.root
  /-- R36.8: the walker stands at ROOT before the first bit -/
  walkerStart : s.unpackOpen = true → s.uUsed = 0 → s.uNode = s.root
  /-- R96: no symbol takes more than 255 bits, and each step down the tree leads to a lower index, so U_USED does not wrap -/
  usedBound : s.unpackOpen = true → s.uUsed.toNat + s.uNode.toNat ≤ 255 * s.uSyms.toNat + s.root.toNat
  /-- R95, R96: the symbols owed and the symbols emitted make up TOTAL -/
  owed : s.unpackOpen = true → s.uRem ≤ s.total ∧ s.uRem.setWidth 32 + s.uSyms = s.total.setWidth 32
  /-- R101, modulo 2^32 -/
  budget : s.unpackOpen = true → s.uUsed = 8#32 * s.uFed - (if s.uLast then s.uPad.setWidth 32 else 0)
  /-- R98: an open session that has had its last byte owes nothing -/
  lastOwesNothing : s.unpackOpen = true → s.uLast = true → s.uRem = 0
  /-- R36.9 -/
  noErrNoCode : s.err = false → s.errCode = 0
  /-- R109 -/
  errHasCode : s.err = true → 1 ≤ s.errCode ∧ s.errCode ≤ 7
  /-- R44: OUTQ holds no more than its depth, unless a command waits for room -/
  outqFits : fits s.outDepth s.outq.length = s.executing.isNone
  /-- R112: a command that emits found no error pending -/
  shownClear : ∀ shown, s.executing = some shown → shown.err = false
  /-- R133: done tells of a command that has ended -/
  doneReady : s.done = true → s.executing = none

/-- Two states that differ only in storage no command can return: arena entries at or above NODE_CNT or of no valid tree, and a
code table that is not valid (R24, R26). -/
structure State.SameButHidden (s t : State) : Prop where
  rest : t = { s with node := t.node, code := t.code }
  tree : s.treeValid = true → t.node.toList.take s.nodeCnt.toNat = s.node.toList.take s.nodeCnt.toNat
  codes : s.codesValid = true → t.code = s.code

end Sys2Proof.Machine
end

