-- ==== Sys2Proof/Certificates/Slice0/Obligations.lean ====
section
/-! DEFINITION. The statements for the provers, each a rule of the spec about the machine, and the few terms they are said in.
Where a statement gives a command's result it gives the whole next state, so what the command leaves unchanged is in it too. -/

open Sys2Proof Sys2Proof.Machine

namespace Sys2Proof.Claims

/-- The state after an error that is no decode error (60_exceptions.md R110): nothing else changes. -/
def errorState (s : State) (cmd : Word) (code : Byte) (info : Word) : State :=
  { s with err := true, errCode := code, errCmd := cmd, errInfo := info }

/-- A session is open (10_state.md R20). -/
def InSession (s : State) : Prop := s.packOpen = true ∨ s.unpackOpen = true

/-- The number of symbols with a non-zero count (R36.5). -/
def leafTotal (s : State) : Nat := (s.freq.toList.filter (· ≠ 0)).length

/-- The number of symbols below `sym` with a non-zero count. -/
def leavesBelow (s : State) (sym : Byte) : Nat := ((s.freq.toList.take sym.toNat).filter (· ≠ 0)).length

/-- NODE[i] by a number. -/
def entry (s : State) (i : Nat) : Option Node := s.node[i]?

/-- Node `i` stands in the queue when node `n` is made: it exists and no node made since the leaves has taken it (R78). -/
def InQueue (s : State) (leaves n i : Nat) : Prop :=
  i < n ∧ ∀ j, leaves ≤ j → j < n → ∀ m, entry s j = some m → m.left.toNat ≠ i ∧ m.right.toNat ≠ i

/-- Node `i` leaves the queue before node `j`: less weight, or equal weight and lower index (R80). -/
def LeavesBefore (s : State) (i j : Nat) : Prop :=
  ∀ a b, entry s i = some a → entry s j = some b → a.wt < b.wt ∨ (a.wt = b.wt ∧ i < j)

/-- The node a bit string leads to, 0 left and 1 right (42_code_generator.md R86). -/
def follow (s : State) : NodeIdx → List Bool → Option Node
  | i, [] => s.nodeAt? i
  | i, b :: p =>
    match s.nodeAt? i with
    | none => none
    | some n => if n.leaf then none else follow s (if b then n.right else n.left) p

/-- The code bits of a symbol in emission order (10_state.md R26). -/
def codeOf (s : State) (sym : Byte) : List Bool := (s.codeAt sym).path

/-- The bits of a byte list, bit 7 of the first byte first (20_memory.md R40). -/
def bitsOf (bytes : List Byte) : List Bool := bytes.flatMap byteBits

/-- The bits that wait in the accumulator, the earliest first (10_state.md R27). -/
def waiting (s : State) : List Bool := (byteBits s.acc).drop (8 - s.nacc.toNat)

/-- The bits of the accumulator above NACC are 0, and NACC is at most 7 (10_state.md R27, R36.6). -/
def PackerClean (s : State) : Prop := s.nacc ≤ 7 ∧ s.acc.toNat < 2 ^ s.nacc.toNat

/-- `n` steps one after another; the first stop ends them. -/
def stepN : Nat → State → Result
  | 0, s => .next s
  | n + 1, s =>
    match step s with
    | .next t => stepN n t
    | .fault f => .fault f
    | .refused q => .refused q

/-- The budget bits that a command feeds the walker (44_bit_unpacker.md R97, R98). -/
def budgetOf (s : State) : Instr → List Bool
  | .unpackFeed v => byteBits v
  | .unpackLast v => (byteBits v).take (8 - s.uPad.toNat)
  | _ => []

/-- The condition of the sequencing table (70_reset_and_hazards.md R127). -/
def SequenceAllows (s : State) : Instr → Prop
  | .freqWr _ _ | .freqClr | .build => ¬ InSession s
  | .gencodes => s.treeValid = true ∧ ¬ InSession s
  | .nodeWt _ | .nodeLnk _ => s.treeValid = true
  | .codeLen _ | .codeBits _ _ => s.codesValid = true
  | .packBegin => s.codesValid = true ∧ ¬ InSession s
  | .packSym _ | .packFlush => s.packOpen = true
  | .unpackBegin _ => s.treeValid = true ∧ ¬ InSession s
  | .unpackFeed _ | .unpackLast _ => s.unpackOpen = true ∧ s.uLast = false
  | .unpackEnd => s.unpackOpen = true ∧ (s.uFed = 0 ∨ s.uLast = true)
  | .nop | .freqRd _ | .regRd _ | .errClr | .sreset => True

/-- The commands that run while an error is pending (60_exceptions.md R112). -/
def RunsWhilePending : Instr → Prop
  | .nop | .errClr | .sreset => True
  | .regRd v => v ≤ 0x13
  | _ => False

/-- The commands that only read (20_memory.md R49). -/
def OnlyReads : Instr → Prop
  | .freqRd _ | .nodeWt _ | .nodeLnk _ | .codeLen _ | .codeBits _ _ | .regRd _ => True
  | _ => False

/-- The pack commands. -/
def IsPack : Instr → Prop
  | .packBegin | .packSym _ | .packFlush => True
  | _ => False

/-- The unpack commands. -/
def IsUnpack : Instr → Prop
  | .unpackBegin _ | .unpackFeed _ | .unpackLast _ | .unpackEnd => True
  | _ => False

/-- The packer's accounting of R93, modulo 2^32, with R36.6. -/
def PackerAccounts (s : State) : Prop :=
  s.nacc ≤ 7 ∧
  (s.packOpen = true → 8#32 * s.pBytes + s.nacc.setWidth 32 = s.pBits) ∧
  (s.packOpen = false → 8#32 * s.pBytes - s.pPad.setWidth 32 = s.pBits)

/-- The packer's accounting of R93 as integers, with R36.6. -/
def PackerAccountsExactly (s : State) : Prop :=
  s.nacc ≤ 7 ∧
  (s.packOpen = true → 8 * s.pBytes.toNat + s.nacc.toNat = s.pBits.toNat) ∧
  (s.packOpen = false → 8 * s.pBytes.toNat = s.pBits.toNat + s.pPad.toNat)

/-- The next step does not wrap P_BITS (43_bit_packer.md R93): a PACK_SYM that it accepts finds room for its code's length. -/
def BitsDoNotWrap (s : State) : Prop :=
  ∀ w rest sym, s.executing = none → s.inbox = .command w :: rest → decode w = .ok (.packSym sym) → s.err = false →
    s.packOpen = true → s.pBits.toNat + (s.codeAt sym).len.toNat < 2 ^ 32

/-- The opcodes of the map with the format of each (30_encoding.md R68), written out from the rule. -/
def legalOpcodes : List (Byte × Format) := [
  (0x00, .n), (0x01, .sc), (0x02, .s8), (0x03, .n), (0x10, .n), (0x11, .i9), (0x12, .i9), (0x20, .n), (0x21, .s8),
  (0x22, .sk), (0x30, .n), (0x31, .s8), (0x32, .n), (0x40, .p3), (0x41, .s8), (0x42, .s8), (0x43, .n), (0xF0, .s8),
  (0xF1, .n), (0xFF, .n)]

/-- The reserved masks, written out from R65. -/
def reservedBits : Format → Word
  | .n => 0x00FFFFFF
  | .s8 => 0x00FFFF00
  | .sc => 0x00000000
  | .i9 => 0x00FFFE00
  | .sk => 0x00FFF800
  | .p3 => 0x00FFFFF8

end Sys2Proof.Claims

open Sys2Proof.Claims

/-! ## Encoding and stepping -/

/-- Every command's word decodes to the command (30_encoding.md R65, R68): no operand bit is dropped. -/
def Obligations.DecodeOfEncode : Prop := ∀ i : Instr, decode (encode i) = .ok i

/-- A word that decodes is the word of the command it decodes to (30_encoding.md R71: every word is exactly one row or illegal). -/
def Obligations.EncodeOfDecode : Prop := ∀ (w : Word) (i : Instr), decode w = .ok i → encode i = w

/-- The example words of 30_encoding.md R73 decode to the commands they stand for, and so do two words of the test vectors whose
fields are full (V-CG-7, V-CT-15). -/
def Obligations.ExampleWordsDecode : Prop :=
  decode 0x10000000 = .ok .build ∧ decode 0x31000041 = .ok (.packSym 0x41) ∧
  decode 0x01000541 = .ok (.freqWr 0x41 5) ∧ decode 0x12000008 = .ok (.nodeLnk 8) ∧
  decode 0x22000042 = .ok (.codeBits 0x42 0) ∧ decode 0x40000001 = .ok (.unpackBegin 1) ∧
  decode 0xF0000000 = .ok (.regRd 0) ∧ decode 0xF0000009 = .ok (.regRd 9) ∧
  decode 0x22000742 = .ok (.codeBits 0x42 7) ∧ decode 0x110001FF = .ok (.nodeWt 0x1FF)

/-- A command word at the command port of a block that executes nothing runs, if it is legal, that command, the host's other events
untouched; its fault is the step's; with room for its bytes the step ends in its state, with the done pulse (20_memory.md R43,
70_reset_and_hazards.md R133). The list of events is the model's (log 1). -/
def Obligations.StepRunsTheDecodedCommand : Prop :=
  ∀ (s : State) (w : Word) (rest : List HostEvent) (i : Instr), s.executing = none → s.inbox = .command w :: rest →
    decode w = .ok i →
    (∀ t, exec i { s with inbox := rest } = .next t → fits t.outDepth t.outq.length = true →
      step s = .next { t with executing := none, done := true }) ∧
    (∀ f, exec i { s with inbox := rest } = .fault f → step s = .fault f)

/-- An illegal opcode (30_encoding.md R69) or a set reserved bit (R70) raises E_ILLEGAL with its info word and changes nothing
else; while an error is pending it is dropped. Either way the command is done. -/
def Obligations.IllegalWordsRaiseIllegal : Prop :=
  ∀ (s : State) (w : Word) (rest : List HostEvent), s.executing = none → s.inbox = .command w :: rest →
    fits s.outDepth s.outq.length = true →
    (((0x04 ≤ opField w ∧ opField w ≤ 0x0F) ∨ (0x13 ≤ opField w ∧ opField w ≤ 0x1F) ∨
      (0x23 ≤ opField w ∧ opField w ≤ 0x2F) ∨ (0x33 ≤ opField w ∧ opField w ≤ 0x3F) ∨
      (0x44 ≤ opField w ∧ opField w ≤ 0xEF) ∨ (0xF2 ≤ opField w ∧ opField w ≤ 0xFE)) →
      (s.err = false → step s = .next { errorState s w 1 0 with inbox := rest, done := true }) ∧
      (s.err = true → step s = .next { s with inbox := rest, done := true })) ∧
    (∀ fmt, (opField w, fmt) ∈ legalOpcodes → w &&& reservedBits fmt ≠ 0 →
      (s.err = false → step s = .next { errorState s w 1 (w &&& reservedBits fmt) with inbox := rest, done := true }) ∧
      (s.err = true → step s = .next { s with inbox := rest, done := true }))

/-- The host's other events (20_memory.md R44, 70_reset_and_hazards.md R122, R133, 60_exceptions.md R121): a drain takes the head of
OUTQ, and one that finds OUTQ empty transfers nothing and is used up; the reset input has SRESET's effect, also while a command
executes; with no event an idle block keeps its state. None of them ends a command. That the events are a list is the model's choice
(log 1); what an empty list and a drain of an empty OUTQ do is deduced (logs 2 and 5). -/
def Obligations.HostEventsTakeEffect : Prop :=
  (∀ (s : State) rest b q, s.executing = none → s.inbox = .drain :: rest → s.outq = b :: q →
    step s = .next { s with inbox := rest, outq := q, done := false }) ∧
  (∀ (s : State) rest, s.executing = none → s.inbox = .drain :: rest → s.outq = [] →
    step s = .next { s with inbox := rest, done := false }) ∧
  (∀ (s : State) rest, s.inbox = .rst :: rest → step s = exec .sreset { s with inbox := rest }) ∧
  (∀ s : State, s.executing = none → s.inbox = [] → step s = .next { s with done := false })

/-- A command that emits beyond OUT_DEPTH waits (20_memory.md R44, R130): it goes on executing, its bytes in order behind OUTQ. While it
waits the host's commands stay as they are; a drain takes the head of OUTQ and, when the rest fits, the command is done; a reset
abandons it (R124); with neither, nothing moves and the command never completes (R131). With as many drains as the excess and no reset
before them the command is done by exactly so many steps, whatever comes after. That a later drain or reset overtakes a waiting
command word in the list of events is the model's choice (logs 1 and 4). -/
def Obligations.FullOutputMakesCommandsWait : Prop :=
  (∀ (s t : State) (w : Word) (rest : List HostEvent) (i : Instr), s.executing = none → s.inbox = .command w :: rest →
    decode w = .ok i → exec i { s with inbox := rest } = .next t → fits t.outDepth t.outq.length = false →
    step s = .next { t with executing := some ⟨s.resp, s.err⟩, done := false }) ∧
  (∀ (s : State) (shown : Shown) (before later : List HostEvent), s.executing = some shown →
    (∀ ev ∈ before, ∃ w, ev = .command w) →
    (s.inbox = before ++ .drain :: later →
      (fits s.outDepth (s.outq.length - 1) = true →
        step s = .next { s with inbox := before ++ later, outq := s.outq.drop 1, executing := none, done := true }) ∧
      (fits s.outDepth (s.outq.length - 1) = false →
        step s = .next { s with inbox := before ++ later, outq := s.outq.drop 1, done := false })) ∧
    (s.inbox = before ++ .rst :: later → step s = .next { s.toReset with inbox := before ++ later }) ∧
    (s.inbox = before → step s = .next { s with done := false })) ∧
  (∀ (s : State) (shown : Shown) (more excess : Nat) (before later : List HostEvent), s.executing = some shown →
    s.outDepth = .fifo more → s.outq.length = more + 1 + excess → s.inbox = before ++ .drain :: later →
    HostEvent.rst ∉ before → before.count .drain + 1 = excess →
    stepN excess s = .next { s with
      inbox := before.filter (· ≠ .drain) ++ later, outq := s.outq.drop excess, executing := none, done := true })

/-- What the ports tell of a command (70_reset_and_hazards.md R133, 60_exceptions.md R117): an accepted word is done in its step or
leaves the block executing; done comes only with cmd_ready; while cmd_ready is 0 no command word is taken; and resp_data and err_o are
held in every step without done, unless a reset comes. -/
def Obligations.PortsTellOfACommandsProgress : Prop :=
  ∀ s t : State, step s = .next t →
    (∀ w rest, s.cmdReady = true → s.inbox = .command w :: rest → t.done = t.cmdReady) ∧
    (t.done = true → t.cmdReady = true) ∧
    (s.cmdReady = false →
      t.inbox.filter (fun ev => ev ≠ .drain ∧ ev ≠ .rst) = s.inbox.filter (fun ev => ev ≠ .drain ∧ ev ≠ .rst)) ∧
    (t.done = false →
      (t.respData = s.respData ∧ t.errO = s.errO) ∨ (HostEvent.rst ∈ s.inbox ∧ t.respData = 0 ∧ t.errO = false))

/-! ## Errors -/

/-- While ERR = 1 every word but a legal NOP, ERR_CLR, SRESET or REG_RD of a register number up to 0x13 is dropped: no state
changes at all, and the command is done (60_exceptions.md R112). Those four are not dropped: NOP writes 0 to RESP, ERR_CLR returns
ERRCODE and clears the error, SRESET resets, and REG_RD returns the register of its number, whose values
`RegRdReadsTheRegisterMap` gives. -/
def Obligations.PendingErrorDropsCommands : Prop :=
  ∀ (s : State) (w : Word) (rest : List HostEvent), s.executing = none → s.inbox = .command w :: rest →
    fits s.outDepth s.outq.length = true → s.err = true →
    ((∀ i, decode w = .ok i → ¬ RunsWhilePending i) → step s = .next { s with inbox := rest, done := true }) ∧
    (∀ i, decode w = .ok i → RunsWhilePending i →
      ∃ t, exec i { s with inbox := rest } = .next t ∧ step s = .next { t with executing := none, done := true }) ∧
    (decode w = .ok .nop → step s = .next { s with inbox := rest, resp := 0, done := true }) ∧
    (decode w = .ok .errClr →
      step s = .next { s with inbox := rest, resp := s.errCode.setWidth 32, err := false, errCode := 0, done := true }) ∧
    (decode w = .ok .sreset → step s = .next { s.toReset with inbox := rest, done := true }) ∧
    (∀ v, decode w = .ok (.regRd v) → v ≤ 0x13 →
      ∃ r, regMap[v.toNat]? = some r ∧ step s = .next { s with inbox := rest, resp := s.readReg r, done := true })

/-- The sequencing table (70_reset_and_hazards.md R127): a command issued while its condition is false raises E_SEQ, with STATUS as
it was as the info word, and changes nothing else; a command issued while it is true raises no E_SEQ. -/
def Obligations.SequencingTableIsEnforced : Prop :=
  ∀ (i : Instr) (s : State), s.err = false →
    (¬ SequenceAllows s i → exec i s = .next (errorState s (encode i) 2 s.status)) ∧
    (SequenceAllows s i → ∀ t, exec i s = .next t → t.err = true → t.errCode ≠ 2)

/-- Raising an error (60_exceptions.md R110, R111, R115): RESP is kept, ERRCMD is the command word and the code is one of R109; an
error of a `require` check changes nothing else; a decode error also closes the unpack session. -/
def Obligations.ErrorsAreRecordedPrecisely : Prop :=
  ∀ (i : Instr) (s t : State), s.err = false → exec i s = .next t → t.err = true →
    t.resp = s.resp ∧ t.errCmd = encode i ∧
    ((2 ≤ t.errCode ∧ t.errCode ≤ 4 ∧ t = errorState s (encode i) t.errCode t.errInfo) ∨
      (5 ≤ t.errCode ∧ t.errCode ≤ 7 ∧ t.unpackOpen = false ∧ s.unpackOpen = true ∧
        ∃ v, i = .unpackFeed v ∨ i = .unpackLast v ∨ (i = .unpackEnd ∧ t.errCode = 6)))

/-- The error registers describe the first error since the last ERR_CLR or reset (60_exceptions.md R113). -/
def Obligations.FirstErrorIsKept : Prop :=
  ∀ (i : Instr) (s t : State), s.err = true → exec i s = .next t → i ≠ .errClr → i ≠ .sreset →
    t.err = true ∧ t.errCode = s.errCode ∧ t.errCmd = s.errCmd ∧ t.errInfo = s.errInfo

/-- ERR_CLR (45_control.md R105, 60_exceptions.md R116): returns ERRCODE, clears ERR and ERRCODE, restores nothing else; in every
state. With no error pending (ERRCODE 0, 10_state.md R36.9) only RESP is written. -/
def Obligations.ErrClrReturnsFromTheError : Prop :=
  encode .errClr = 0xF1000000 ∧
  (∀ s : State, exec .errClr s = .next { s with resp := s.errCode.setWidth 32, err := false, errCode := 0 }) ∧
  (∀ s : State, s.err = false → s.errCode = 0 → exec .errClr s = .next { s with resp := 0 })

/-! ## Control -/

/-- NOP (45_control.md R103) completes in every state and writes only RESP, with 0. -/
def Obligations.NopWritesOnlyResp : Prop :=
  encode .nop = 0x00000000 ∧ ∀ s : State, exec .nop s = .next { s with resp := 0 }

/-- REG_RD (10_state.md R32, 45_control.md R104) of every register of the map: in every state, an error pending or not, it
completes with the register's value zero-extended and writes only RESP (STATUS is said bit by bit by `StatusBitsReadInTheirPlaces`);
any other number raises E_RANGE, and while ERR = 1 is dropped. -/
def Obligations.RegRdReadsTheRegisterMap : Prop :=
  (∀ v : Byte, encode (.regRd v) = 0xF0000000 ||| v.setWidth 32) ∧
  ∀ s : State,
    (∀ v : Byte, 0x13 < v → s.err = false →
      exec (.regRd v) s = .next (errorState s (encode (.regRd v)) 3 (v.setWidth 32))) ∧
    (∀ v : Byte, 0x13 < v → s.err = true → exec (.regRd v) s = .next s) ∧
    exec (.regRd 0x00) s = .next { s with resp := s.status } ∧
    exec (.regRd 0x01) s = .next { s with resp := s.errCode.setWidth 32 } ∧
    exec (.regRd 0x02) s = .next { s with resp := s.errCmd } ∧
    exec (.regRd 0x03) s = .next { s with resp := s.errInfo } ∧
    exec (.regRd 0x04) s = .next { s with resp := s.root.setWidth 32 } ∧
    exec (.regRd 0x05) s = .next { s with resp := s.nodeCnt.setWidth 32 } ∧
    exec (.regRd 0x06) s = .next { s with resp := s.leafCnt.setWidth 32 } ∧
    exec (.regRd 0x07) s = .next { s with resp := BitVec.ofNat 32 (s.freq.toList.map BitVec.toNat).sum } ∧
    exec (.regRd 0x08) s = .next { s with resp := (s.nacc.setWidth 32 <<< 8) ||| s.acc.setWidth 32 } ∧
    exec (.regRd 0x09) s = .next { s with resp := s.pBytes } ∧
    exec (.regRd 0x0A) s = .next { s with resp := s.pBits } ∧
    exec (.regRd 0x0B) s = .next { s with resp := s.pSyms } ∧
    exec (.regRd 0x0C) s = .next { s with resp := s.pPad.setWidth 32 } ∧
    exec (.regRd 0x0D) s = .next { s with resp := s.uPad.setWidth 32 } ∧
    exec (.regRd 0x0E) s = .next { s with resp := s.uRem.setWidth 32 } ∧
    exec (.regRd 0x0F) s = .next { s with resp := s.uUsed } ∧
    exec (.regRd 0x10) s = .next { s with resp := s.uFed } ∧
    exec (.regRd 0x11) s = .next { s with resp := s.uSyms } ∧
    exec (.regRd 0x12) s = .next { s with resp := s.uNode.setWidth 32 } ∧
    exec (.regRd 0x13) s = .next { s with resp := 0x48554601 }

/-- The fields of STATUS stand at the bits of 10_state.md R16, and bits 31:8 read as zero. -/
def Obligations.StatusBitsReadInTheirPlaces : Prop :=
  ∀ s : State, ∃ r : Word, exec (.regRd 0x00) s = .next { s with resp := r } ∧
    r.getLsbD 0 = s.err ∧ r.getLsbD 1 = s.treeValid ∧ r.getLsbD 2 = s.codesValid ∧ r.getLsbD 3 = s.empty ∧
    r.getLsbD 4 = s.single ∧ r.getLsbD 5 = s.packOpen ∧ r.getLsbD 6 = s.unpackOpen ∧ r.getLsbD 7 = s.uLast ∧
    r.toNat < 2 ^ 8

/-- SRESET (45_control.md R106) runs in every state and leaves every element at its reset value (10_state.md R35); the arena and
the code table are not cleared (70_reset_and_hazards.md R123). That their contents are kept, which R123 calls unspecified, is the
model's choice (log 7), and so is that the two model fields, what the host does next and OUT_DEPTH, are kept (logs 1 and 3). -/
def Obligations.SresetRestoresResetValues : Prop :=
  encode .sreset = 0xFF000000 ∧
  ∀ s : State, ∃ t, exec .sreset s = .next t ∧ t.resp = 0 ∧ t.status = 0 ∧ t.errCode = 0 ∧ t.errCmd = 0 ∧ t.errInfo = 0 ∧
    (∀ sym, t.freqAt sym = 0) ∧ t.total = 0 ∧ t.root = 0x1FF ∧ t.nodeCnt = 0 ∧ t.leafCnt = 0 ∧
    t.acc = 0 ∧ t.nacc = 0 ∧ t.pBytes = 0 ∧ t.pBits = 0 ∧ t.pSyms = 0 ∧ t.pPad = 0 ∧
    t.uPad = 0 ∧ t.uRem = 0 ∧ t.uNode = 0x1FF ∧ t.uUsed = 0 ∧ t.uFed = 0 ∧ t.uSyms = 0 ∧ t.outq = [] ∧
    t.cmdReady = true ∧ t.node = s.node ∧ t.code = s.code ∧ t.inbox = s.inbox ∧ t.outDepth = s.outDepth

/-- After a reset, from whatever state, only NOP, FREQ_WR, FREQ_RD, FREQ_CLR, BUILD, REG_RD, ERR_CLR and SRESET succeed, and every
other command raises E_SEQ (70_reset_and_hazards.md R125); a REG_RD succeeds for the numbers of its map (R104). -/
def Obligations.AfterResetOnlyEightCommandsSucceed : Prop :=
  ∀ s : State,
    (∀ i : Instr, (∃ sym cnt, i = .freqWr sym cnt) ∨ (∃ sym, i = .freqRd sym) ∨ (∃ v, i = .regRd v ∧ v ≤ 0x13) ∨
        i ∈ [Instr.nop, .freqClr, .build, .errClr, .sreset] →
      ∃ t, exec i s.toReset = .next t ∧ t.err = false) ∧
    (∀ i : Instr, (∀ sym cnt, i ≠ .freqWr sym cnt) → (∀ sym, i ≠ .freqRd sym) → (∀ v, i ≠ .regRd v) →
        i ∉ [Instr.nop, .freqClr, .build, .errClr, .sreset] →
      exec i s.toReset = .next (errorState s.toReset (encode i) 2 0))

/-- No read has a side effect (20_memory.md R49): a read that raises nothing changes only RESP, and repeated it returns the same. -/
def Obligations.ReadsChangeOnlyResp : Prop :=
  ∀ (i : Instr) (s t : State), OnlyReads i → s.err = false → exec i s = .next t → t.err = false →
    t = { s with resp := t.resp } ∧ exec i t = .next t

/-- Who writes what, over all commands (10_state.md R24 to R26, R35; 20_memory.md R38): FREQ only FREQ_WR and FREQ_CLR; the arena
and its registers only BUILD; CODE only GENCODES; the packer's state only pack commands; the unpacker's only unpack commands; OUTQ
only grows at its tail; SRESET, which resets all of these but the arena and CODE, apart. That SRESET keeps the contents of the arena
and of CODE, which R123 calls unspecified, is the model's choice (log 7), and so is that nothing writes the model's own two fields (logs
1 and 3). RESP, the tree flags and the error registers are said command by command. -/
def Obligations.EachCommandWritesOnlyItsOwnState : Prop :=
  ∀ (i : Instr) (s t : State), exec i s = .next t →
    (t.inbox = s.inbox ∧ t.outDepth = s.outDepth) ∧
    (i ≠ .build → t.node = s.node) ∧ (i ≠ .gencodes → t.code = s.code) ∧
    (i ≠ .sreset →
      ((∀ sym cnt, i ≠ .freqWr sym cnt) → i ≠ .freqClr → t.freq = s.freq) ∧
      (i ≠ .build → t.root = s.root ∧ t.nodeCnt = s.nodeCnt ∧ t.leafCnt = s.leafCnt) ∧
      (¬ IsPack i → t.acc = s.acc ∧ t.nacc = s.nacc ∧ t.pBytes = s.pBytes ∧ t.pBits = s.pBits ∧ t.pSyms = s.pSyms ∧
        t.pPad = s.pPad ∧ t.packOpen = s.packOpen) ∧
      (¬ IsUnpack i → t.uPad = s.uPad ∧ t.uRem = s.uRem ∧ t.uNode = s.uNode ∧ t.uUsed = s.uUsed ∧ t.uFed = s.uFed ∧
        t.uSyms = s.uSyms ∧ t.unpackOpen = s.unpackOpen ∧ t.uLast = s.uLast) ∧
      t.executing = s.executing ∧ t.done = s.done ∧
      s.outq <+: t.outq)

/-! ## The frequency table -/

/-- FREQ_WR (40_freq_table.md R75). -/
def Obligations.FreqWrLoadsACount : Prop :=
  ∀ (sym : Byte) (cnt : Count) (s : State),
    encode (.freqWr sym cnt) = 0x01000000 ||| (cnt.setWidth 32 <<< 8) ||| sym.setWidth 32 ∧
    (s.err = false → InSession s → exec (.freqWr sym cnt) s = .next (errorState s (encode (.freqWr sym cnt)) 2 s.status)) ∧
    (s.err = false → ¬ InSession s →
      ∃ t, exec (.freqWr sym cnt) s = .next t ∧
        t = { s with
          freq := t.freq, treeValid := false, codesValid := false, empty := false, single := false, resp := 0 } ∧
        t.freqAt sym = cnt ∧ (∀ other, other ≠ sym → t.freqAt other = s.freqAt other) ∧
        t.total = s.total - (s.freqAt sym).setWidth 24 + cnt.setWidth 24)

/-- FREQ_RD (40_freq_table.md R76): at any time while no error is pending. -/
def Obligations.FreqRdReturnsTheCount : Prop :=
  ∀ (sym : Byte) (s : State),
    encode (.freqRd sym) = 0x02000000 ||| sym.setWidth 32 ∧
    (s.err = false → exec (.freqRd sym) s = .next { s with resp := (s.freqAt sym).setWidth 32 }) ∧
    exec (.freqRd sym) State.reset = .next { State.reset with resp := 0 }

/-- FREQ_CLR (40_freq_table.md R77); a BUILD after it gives the empty tree. -/
def Obligations.FreqClrZeroesTheTable : Prop :=
  ∀ s : State,
    encode .freqClr = 0x03000000 ∧
    (s.err = false → InSession s → exec .freqClr s = .next (errorState s (encode .freqClr) 2 s.status)) ∧
    (s.err = false → ¬ InSession s →
      ∃ t, exec .freqClr s = .next t ∧
        t = { s with
          freq := t.freq, treeValid := false, codesValid := false, empty := false, single := false, resp := 0 } ∧
        (∀ sym, t.freqAt sym = 0) ∧ t.total = 0 ∧
        ∃ u, exec .build t = .next u ∧ u.empty = true ∧ u.root = 0x1FF)

/-- TOTAL never overflows its 24 bits (00_scope.md R6, 10_state.md R23): it is the exact sum of the counts, REG_RD 0x07 reads it, and
it is 0 at reset. -/
def Obligations.TotalIsTheExactSum : Prop :=
  (∀ s : State, s.total.toNat = (s.freq.toList.map BitVec.toNat).sum ∧ s.total.toNat ≤ 16776960 ∧
    exec (.regRd 0x07) s = .next { s with resp := s.total.setWidth 32 }) ∧
  State.reset.total = 0

/-! ## The tree -/

/-- BUILD completes whenever no error is pending and no session is open, and writes exactly the arena, its three registers, the four
tree flags and RESP (41_tree_builder.md R78), with the counts of R80; in a session it raises E_SEQ. -/
def Obligations.BuildCompletesWithItsCounts : Prop :=
  ∀ s : State, s.err = false →
    (InSession s → exec .build s = .next (errorState s 0x10000000 2 s.status)) ∧
    (¬ InSession s →
      ∃ t, exec .build s = .next t ∧
        t = { s with
          node := t.node, root := t.root, nodeCnt := t.nodeCnt, leafCnt := t.leafCnt, treeValid := true, codesValid := false,
          empty := decide (leafTotal s = 0), single := decide (leafTotal s = 1),
          resp := (t.leafCnt.setWidth 32 <<< 16) ||| t.root.setWidth 32 } ∧
        t.leafCnt.toNat = leafTotal s ∧ t.nodeCnt.toNat = 2 * leafTotal s - 1 ∧
        t.root.toNat = if leafTotal s = 0 then 0x1FF else 2 * leafTotal s - 2)

/-- The empty case (41_tree_builder.md R82). The arena has no defined entry then, and what it holds is left open (10_state.md R24). -/
def Obligations.BuildOfTheEmptyTable : Prop :=
  ∀ s : State, s.err = false → ¬ InSession s → (∀ sym, s.freqAt sym = 0) →
    ∃ t, exec .build s = .next t ∧ t = { s with
      node := t.node, root := 0x1FF, nodeCnt := 0, leafCnt := 0, treeValid := true, codesValid := false, empty := true,
      single := false, resp := 0x000001FF }

/-- The single-symbol case (41_tree_builder.md R81): the leaf is NODE[0] and the root, no merge occurs. What the other entries hold is
left open (10_state.md R24). -/
def Obligations.BuildOfASingleSymbol : Prop :=
  ∀ (s : State) (sym : Byte), s.err = false → ¬ InSession s → s.freqAt sym ≠ 0 →
    (∀ other, other ≠ sym → s.freqAt other = 0) →
    ∃ t, exec .build s = .next t ∧
      entry t 0 = some ⟨true, sym, (s.freqAt sym).setWidth 24, 0x1FF, 0x1FF⟩ ∧
      t = { s with
        node := t.node, root := 0, nodeCnt := 1, leafCnt := 1, treeValid := true, codesValid := false, empty := false,
        single := true, resp := 0x00010000 }

/-- Leaf creation (41_tree_builder.md R79): the leaf of the k-th symbol with a non-zero count, in ascending order, has index k; and
the tree depends on the FREQ contents alone. -/
def Obligations.LeavesStandInSymbolOrder : Prop :=
  (∀ s t : State, s.err = false → ¬ InSession s → exec .build s = .next t →
    ∀ sym, s.freqAt sym ≠ 0 →
      entry t (leavesBelow s sym) = some ⟨true, sym, (s.freqAt sym).setWidth 24, 0x1FF, 0x1FF⟩) ∧
  (∀ s s' t t' : State, s.err = false → ¬ InSession s → s'.err = false → ¬ InSession s' → s.freq = s'.freq →
    exec .build s = .next t → exec .build s' = .next t' →
      t.root = t'.root ∧ t.nodeCnt = t'.nodeCnt ∧ t.leafCnt = t'.leafCnt ∧ t.resp = t'.resp ∧
      ∀ i, i < t.nodeCnt.toNat → entry t i = entry t' i)

/-- Merge order (41_tree_builder.md R80): every internal node is made over the two nodes that leave the queue first, by least weight
and then lowest index; the first is its LEFT child, the second its RIGHT child, and its weight is their sum. -/
def Obligations.MergesTakeTheLeastTwo : Prop :=
  ∀ s t : State, s.err = false → ¬ InSession s → exec .build s = .next t →
    ∀ n, leafTotal s ≤ n → n < t.nodeCnt.toNat →
      ∃ m a b, entry t n = some m ∧ entry t m.left.toNat = some a ∧ entry t m.right.toNat = some b ∧
        m.leaf = false ∧ m.sym = 0 ∧ m.wt = a.wt + b.wt ∧
        InQueue t (leafTotal s) n m.left.toNat ∧ InQueue t (leafTotal s) n m.right.toNat ∧ m.left ≠ m.right ∧
        LeavesBefore t m.left.toNat m.right.toNat ∧
        ∀ i, InQueue t (leafTotal s) n i → i ≠ m.left.toNat → i ≠ m.right.toNat → LeavesBefore t m.right.toNat i

/-- The shape of the tree (41_tree_builder.md R80, 10_state.md R24, R36.5): each internal node's children have lower indices, every
node but the root has exactly one parent, the root weighs TOTAL, no weight exceeds TOTAL, and no 24-bit sum overflows. -/
def Obligations.TheTreeIsWellShaped : Prop :=
  ∀ s t : State, s.err = false → ¬ InSession s → exec .build s = .next t → 1 ≤ leafTotal s →
    (∀ i m, i < t.nodeCnt.toNat → entry t i = some m → m.wt ≤ t.total ∧ (m.leaf = true ↔ i < leafTotal s)) ∧
    (∀ i m a b, leafTotal s ≤ i → i < t.nodeCnt.toNat → entry t i = some m →
      entry t m.left.toNat = some a → entry t m.right.toNat = some b →
      m.left.toNat < i ∧ m.right.toNat < i ∧ m.wt.toNat = a.wt.toNat + b.wt.toNat) ∧
    (∀ i, i + 1 < t.nodeCnt.toNat → ∃ p, leafTotal s ≤ p ∧ p < t.nodeCnt.toNat ∧
      (∃ m, entry t p = some m ∧ (m.left.toNat = i ∨ m.right.toNat = i)) ∧
      ∀ q m, leafTotal s ≤ q → q < t.nodeCnt.toNat → entry t q = some m → m.left.toNat = i ∨ m.right.toNat = i → q = p) ∧
    (∃ m, t.nodeAt? t.root = some m ∧ m.wt = t.total)

/-- NODE_WT (41_tree_builder.md R83): E_SEQ without a valid tree, E_RANGE at or above NODE_CNT, else the weight. -/
def Obligations.NodeWtReturnsTheWeight : Prop :=
  ∀ (idx : NodeIdx) (s : State),
    encode (.nodeWt idx) = 0x11000000 ||| idx.setWidth 32 ∧
    (s.err = false → s.treeValid = false → exec (.nodeWt idx) s = .next (errorState s (encode (.nodeWt idx)) 2 s.status)) ∧
    (s.err = false → s.treeValid = true → s.nodeCnt.toNat ≤ idx.toNat →
      exec (.nodeWt idx) s = .next (errorState s (encode (.nodeWt idx)) 3 (idx.setWidth 32))) ∧
    (∀ n, s.err = false → s.treeValid = true → idx.toNat < s.nodeCnt.toNat → s.nodeAt? idx = some n →
      exec (.nodeWt idx) s = .next { s with resp := n.wt.setWidth 32 })

/-- NODE_LNK (41_tree_builder.md R84): a leaf's symbol with bit 31 set, an internal node's RIGHT in 24:16 and LEFT in 8:0. -/
def Obligations.NodeLnkReturnsTheLinks : Prop :=
  ∀ (idx : NodeIdx) (s : State),
    encode (.nodeLnk idx) = 0x12000000 ||| idx.setWidth 32 ∧
    (s.err = false → s.treeValid = false → exec (.nodeLnk idx) s = .next (errorState s (encode (.nodeLnk idx)) 2 s.status)) ∧
    (s.err = false → s.treeValid = true → s.nodeCnt.toNat ≤ idx.toNat →
      exec (.nodeLnk idx) s = .next (errorState s (encode (.nodeLnk idx)) 3 (idx.setWidth 32))) ∧
    (∀ n, s.err = false → s.treeValid = true → idx.toNat < s.nodeCnt.toNat → s.nodeAt? idx = some n →
      exec (.nodeLnk idx) s = .next { s with
        resp := if n.leaf then 0x80000000 ||| n.sym.setWidth 32
          else (n.right.setWidth 32 <<< 16) ||| n.left.setWidth 32 })

/-! ## The codes -/

/-- GENCODES (42_code_generator.md R85): E_SEQ without a valid tree or in a session; otherwise, in every good state, it completes,
writes only the code table, CODES_VALID and RESP, gives exactly the symbols with a count a code, and answers the greatest length. -/
def Obligations.GencodesCompletesWithTheGreatestLength : Prop :=
  ∀ s : State, s.err = false →
    (s.treeValid = false ∨ InSession s → exec .gencodes s = .next (errorState s 0x20000000 2 s.status)) ∧
    (s.Inv → s.treeValid = true → ¬ InSession s →
      ∃ t, exec .gencodes s = .next t ∧ t = { s with code := t.code, codesValid := true, resp := t.resp } ∧
        (∀ sym, (t.codeAt sym).len.toNat ≤ t.resp.toNat) ∧
        (t.resp = 0 ∨ ∃ sym, (t.codeAt sym).len.toNat = t.resp.toNat) ∧
        (∀ sym, (t.codeAt sym).len = 0 ↔ s.freqAt sym = 0))

/-- Code assignment (42_code_generator.md R86): with at least two symbols, a symbol's code is the path of left (0) and right (1)
steps from ROOT to its leaf. -/
def Obligations.CodesArePathsToTheirLeaves : Prop :=
  ∀ s : State, s.Inv → s.codesValid = true → 2 ≤ leafTotal s → ∀ sym, (s.codeAt sym).len ≠ 0 →
    ∃ n, follow s s.root (codeOf s sym) = some n ∧ n.leaf = true ∧ n.sym = sym

/-- The code storage (10_state.md R26): every bit of BITS at or beyond LEN is 0, and LEN is 0 exactly when the symbol has no leaf. -/
def Obligations.CodesAreLeftAligned : Prop :=
  ∀ s : State, s.Inv → s.codesValid = true → ∀ sym,
    ((s.codeAt sym).len = 0 ↔ s.freqAt sym = 0) ∧
    ∀ i, (s.codeAt sym).len.toNat ≤ i → i < 256 → (s.codeAt sym).bits.getLsbD (255 - i) = false

/-- The single-leaf code (42_code_generator.md R87): the one symbol present has the code "0". -/
def Obligations.TheSingleLeafCodeIsZero : Prop :=
  ∀ s t : State, s.Inv → s.err = false → s.treeValid = true → s.single = true → ¬ InSession s →
    exec .gencodes s = .next t → ∀ sym, s.freqAt sym ≠ 0 → codeOf t sym = [false]

/-- The prefix property (42_code_generator.md R86): no code is a prefix of another. -/
def Obligations.NoCodeIsAPrefixOfAnother : Prop :=
  ∀ s : State, s.Inv → s.codesValid = true → ∀ sym other, sym ≠ other →
    (s.codeAt sym).len ≠ 0 → (s.codeAt other).len ≠ 0 → ¬ (codeOf s sym <+: codeOf s other)

/-- Completeness (42_code_generator.md R86): with at least two symbols the sum of 2^-LEN over the present ones is exactly 1. -/
def Obligations.TheCodeIsComplete : Prop :=
  ∀ s : State, s.Inv → s.codesValid = true → 2 ≤ leafTotal s →
    ((s.code.toList.filter fun c => c.len ≠ 0).map fun c => 2 ^ (255 - c.len.toNat)).sum = 2 ^ 255

/-- CODE_LEN (42_code_generator.md R88); in every good state a symbol without a leaf, one whose count is 0, reads 0. -/
def Obligations.CodeLenReturnsTheLength : Prop :=
  ∀ (sym : Byte) (s : State),
    encode (.codeLen sym) = 0x21000000 ||| sym.setWidth 32 ∧
    (s.err = false → s.codesValid = false → exec (.codeLen sym) s = .next (errorState s (encode (.codeLen sym)) 2 s.status)) ∧
    (s.err = false → s.codesValid = true → exec (.codeLen sym) s = .next { s with resp := (s.codeAt sym).len.setWidth 32 }) ∧
    (s.Inv → s.err = false → s.codesValid = true → s.freqAt sym = 0 → exec (.codeLen sym) s = .next { s with resp := 0 })

/-- CODE_BITS (42_code_generator.md R89): resp[31 - j] is BITS[255 - 32K - j], which in every good state is code bit 32K + j, or 0
beyond the code. -/
def Obligations.CodeBitsReturnsTheSlice : Prop :=
  ∀ (sym : Byte) (k : BitVec 3) (s : State),
    encode (.codeBits sym k) = 0x22000000 ||| (k.setWidth 32 <<< 8) ||| sym.setWidth 32 ∧
    (s.err = false → s.codesValid = false →
      exec (.codeBits sym k) s = .next (errorState s (encode (.codeBits sym k)) 2 s.status)) ∧
    (s.err = false → s.codesValid = true →
      ∃ r : Word, exec (.codeBits sym k) s = .next { s with resp := r } ∧
        ∀ j, j < 32 → r.getLsbD (31 - j) = (s.codeAt sym).bits.getLsbD (255 - 32 * k.toNat - j) ∧
          (s.Inv → r.getLsbD (31 - j) = (codeOf s sym).getD (32 * k.toNat + j) false))

/-! ## The packer -/

/-- PACK_BEGIN (43_bit_packer.md R90): P_PAD is kept. -/
def Obligations.PackBeginOpensASession : Prop :=
  ∀ s : State,
    encode .packBegin = 0x30000000 ∧
    (s.err = false → s.codesValid = false ∨ InSession s →
      exec .packBegin s = .next (errorState s (encode .packBegin) 2 s.status)) ∧
    (s.err = false → s.codesValid = true → ¬ InSession s →
      exec .packBegin s = .next { s with
        acc := 0, nacc := 0, pBytes := 0, pBits := 0, pSyms := 0, packOpen := true, resp := 0 })

/-- PACK_SYM (43_bit_packer.md R91): E_SEQ with no session, E_NOCODE for a symbol without a code, else the code's bits follow the
waiting ones, whole bytes go out as they fill, floor((NACC + LEN) / 8) of them, and nothing else changes. -/
def Obligations.PackSymAppendsTheCode : Prop :=
  ∀ (sym : Byte) (s : State),
    encode (.packSym sym) = 0x31000000 ||| sym.setWidth 32 ∧
    (s.err = false → s.packOpen = false → exec (.packSym sym) s = .next (errorState s (encode (.packSym sym)) 2 s.status)) ∧
    (s.err = false → s.packOpen = true → (s.codeAt sym).len = 0 →
      exec (.packSym sym) s = .next (errorState s (encode (.packSym sym)) 4 (sym.setWidth 32))) ∧
    (s.err = false → s.packOpen = true → (s.codeAt sym).len ≠ 0 → PackerClean s →
      ∃ t bytes, exec (.packSym sym) s = .next t ∧
        t = { s with
          acc := t.acc, nacc := t.nacc, outq := s.outq ++ bytes, pBytes := s.pBytes + BitVec.ofNat 32 bytes.length,
          pBits := s.pBits + (s.codeAt sym).len.setWidth 32, pSyms := s.pSyms + 1,
          resp := BitVec.ofNat 32 bytes.length } ∧
        PackerClean t ∧ bytes.length = (s.nacc.toNat + (s.codeAt sym).len.toNat) / 8 ∧
        bitsOf bytes ++ waiting t = waiting s ++ codeOf s sym)

/-- PACK_FLUSH (43_bit_packer.md R92): the waiting bits, padded on the right with zeros, go out as the last byte. -/
def Obligations.PackFlushPadsAndCloses : Prop :=
  ∀ s : State,
    encode .packFlush = 0x32000000 ∧
    (s.err = false → s.packOpen = false → exec .packFlush s = .next (errorState s (encode .packFlush) 2 s.status)) ∧
    (s.err = false → s.packOpen = true → s.nacc = 0 →
      exec .packFlush s = .next { s with pPad := 0, acc := 0, nacc := 0, packOpen := false, resp := 0 }) ∧
    (s.err = false → s.packOpen = true → s.nacc ≠ 0 → PackerClean s →
      ∃ b, byteBits b = waiting s ++ List.replicate (8 - s.nacc.toNat) false ∧
        exec .packFlush s = .next { s with
          outq := s.outq ++ [b], pBytes := s.pBytes + 1, pPad := BitVec.ofNat 3 (8 - s.nacc.toNat), acc := 0, nacc := 0,
          packOpen := false, resp := BitVec.ofNat 32 (8 - s.nacc.toNat) })

/-- The packer's accounting (43_bit_packer.md R93): 8 x P_BYTES + NACC = P_BITS in a session and 8 x P_BYTES - P_PAD = P_BITS after a
flush. As integers they hold at reset and are kept by every step that does not wrap P_BITS; modulo 2^32 by every step. -/
def Obligations.PackerAccountingIsKept : Prop :=
  PackerAccountsExactly State.reset ∧ PackerAccounts State.reset ∧
  (∀ s t : State, PackerAccountsExactly s → BitsDoNotWrap s → step s = .next t → PackerAccountsExactly t) ∧
  ∀ s t : State, PackerAccounts s → step s = .next t → PackerAccounts t

/-- The packer's output (43_bit_packer.md R94): the session of any symbols that have codes emits their codes' bits in order,
padded with zeros to whole bytes, and nothing else; P_PAD is the number of zeros. `execAll` runs the commands with no wait for room in
OUTQ, the model's choice (log 19). -/
def Obligations.ASessionPacksTheConcatenatedCodes : Prop :=
  ∀ (s : State) (syms : List Byte), s.Inv → s.err = false → s.codesValid = true → ¬ InSession s →
    (∀ sym ∈ syms, (s.codeAt sym).len ≠ 0) →
    ∃ t bytes, execAll ([.packBegin] ++ syms.map .packSym ++ [.packFlush]) s = .next t ∧ t.err = false ∧
      t.outq = s.outq ++ bytes ∧
      bitsOf bytes = syms.flatMap (codeOf s) ++ List.replicate t.pPad.toNat false ∧
      t.pBytes = BitVec.ofNat 32 bytes.length ∧ t.pSyms = BitVec.ofNat 32 syms.length

/-! ## The unpacker -/

/-- UNPACK_BEGIN (44_bit_unpacker.md R95). -/
def Obligations.UnpackBeginOpensASession : Prop :=
  ∀ (pad : BitVec 3) (s : State),
    encode (.unpackBegin pad) = 0x40000000 ||| pad.setWidth 32 ∧
    (s.err = false → s.treeValid = false ∨ InSession s →
      exec (.unpackBegin pad) s = .next (errorState s (encode (.unpackBegin pad)) 2 s.status)) ∧
    (s.err = false → s.treeValid = true → ¬ InSession s →
      exec (.unpackBegin pad) s = .next { s with
        uPad := pad, uRem := s.total, uNode := s.root, uUsed := 0, uFed := 0, uSyms := 0, uLast := false,
        unpackOpen := true, resp := s.total.setWidth 32 })

/-- UNPACK_FEED (44_bit_unpacker.md R96, R97) completes whenever a symbol is owed before each of the byte's 8 bits and they lead through
the tree: the symbols the bits complete come out in order, the walker stands where they end, 8 bits and one byte are counted, and
RESP is the number of symbols. In every good state with a symbol owed the bits lead through the tree, whatever they are when it is no
single leaf and for the byte 0 when it is, and 8 symbols owed are enough for any byte. -/
def Obligations.UnpackFeedCompletesWhileSymbolsAreOwed : Prop :=
  ∀ (v : Byte) (s : State), s.err = false → s.unpackOpen = true → s.uLast = false →
    (∀ syms u, s.decodeBits s.uNode (byteBits v) = some (syms, u) → s.Owes (byteBits v) →
      exec (.unpackFeed v) s = .next { s.walked 8 syms u with
        uFed := s.uFed + 1, resp := BitVec.ofNat 32 syms.length }) ∧
    (s.Inv → s.uRem ≠ 0 → s.single = false ∨ v = 0 →
      ∃ syms u, s.decodeBits s.uNode (byteBits v) = some (syms, u) ∧ syms.length ≤ 8 ∧
        (s.single = true → syms.length = 8) ∧ (8 ≤ s.uRem.toNat → s.Owes (byteBits v)))

/-- UNPACK_LAST (44_bit_unpacker.md R96, R98) completes when the byte's 8 - U_PAD high bits, from wherever the walker stands, complete
exactly the symbols owed and none of them comes after the last: they are emitted in order, the byte is counted and marked as the
last. So it is, from ROOT, when those bits are the codes of as many symbols as are owed. When symbols are still owed after those bits,
the walker at ROOT or mid-path, it raises E_DEC_EOS: ERRINFO is the count with all of them, the symbols completed are emitted, the byte is
counted and marked as the last, and the session closes (60_exceptions.md R111, R115). -/
def Obligations.UnpackLastCompletesAtTheLastSymbol : Prop :=
  ∀ (v : Byte) (s : State), s.err = false → s.unpackOpen = true → s.uLast = false →
    (∀ syms u, s.decodeBits s.uNode (budgetOf s (.unpackLast v)) = some (syms, u) → s.Owes (budgetOf s (.unpackLast v)) →
      syms.length = s.uRem.toNat →
      exec (.unpackLast v) s = .next { s.walked (8 - s.uPad.toNat) syms u with
        uRem := 0, uFed := s.uFed + 1, uLast := true, resp := BitVec.ofNat 32 syms.length }) ∧
    (∀ syms, s.Inv → s.codesValid = true → s.uNode = s.root → s.uRem.toNat = syms.length →
      (∀ sym ∈ syms, (s.codeAt sym).len ≠ 0) → budgetOf s (.unpackLast v) = syms.flatMap (codeOf s) →
      exec (.unpackLast v) s = .next { s.walked (8 - s.uPad.toNat) syms s.root with
        uRem := 0, uFed := s.uFed + 1, uLast := true, resp := BitVec.ofNat 32 syms.length }) ∧
    (∀ syms u, s.decodeBits s.uNode (budgetOf s (.unpackLast v)) = some (syms, u) → syms.length < s.uRem.toNat →
      exec (.unpackLast v) s = .next
        { errorState (s.walked (8 - s.uPad.toNat) syms u) (encode (.unpackLast v)) 6
            (s.uUsed + BitVec.ofNat 32 (8 - s.uPad.toNat)) with
          uFed := s.uFed + 1, uLast := true, unpackOpen := false })

/-- UNPACK_END (44_bit_unpacker.md R99). -/
def Obligations.UnpackEndChecksAndCloses : Prop :=
  ∀ s : State,
    encode .unpackEnd = 0x43000000 ∧
    (s.err = false → s.unpackOpen = false ∨ (s.uFed ≠ 0 ∧ s.uLast = false) →
      exec .unpackEnd s = .next (errorState s (encode .unpackEnd) 2 s.status)) ∧
    (s.err = false → s.unpackOpen = true → s.uFed = 0 ∨ s.uLast = true → s.uRem ≠ 0 →
      exec .unpackEnd s = .next { errorState s (encode .unpackEnd) 6 s.uUsed with unpackOpen := false }) ∧
    (s.err = false → s.unpackOpen = true → s.uFed = 0 ∨ s.uLast = true → s.uRem = 0 →
      exec .unpackEnd s = .next { s with unpackOpen := false, resp := s.uSyms })

/-- A data bit after the last symbol raises E_DEC_TRAIL, and a 1 bit while the tree is a single leaf E_DEC_BADBIT, at whichever bit of
the byte it comes (44_bit_unpacker.md R96, 60_exceptions.md R109): the bits before it have their effects, the bit itself is not counted,
ERRINFO is the count before it, and the session closes (R111, R115). -/
def Obligations.BadBitsRaiseDecodeErrors : Prop :=
  ∀ (v : Byte) (i : Instr) (s : State) (k : Nat) (syms : List Byte) (u : NodeIdx), i = .unpackFeed v ∨ i = .unpackLast v →
    s.err = false → s.unpackOpen = true → s.uLast = false → k < (budgetOf s i).length →
    s.decodeBits s.uNode ((budgetOf s i).take k) = some (syms, u) → s.Owes ((budgetOf s i).take k) →
    (syms.length = s.uRem.toNat →
      exec i s = .next { errorState (s.walked k syms u) (encode i) 7 (s.uUsed + BitVec.ofNat 32 k) with
        unpackOpen := false }) ∧
    (s.Inv → s.single = true → syms.length < s.uRem.toNat → (budgetOf s i)[k]? = some true →
      exec i s = .next { errorState (s.walked k syms u) (encode i) 5 (s.uUsed + BitVec.ofNat 32 k) with
        unpackOpen := false })

/-- What stands after a decode error in a byte (60_exceptions.md R111, R115): the state the bits before the failing one lead to, as
they decode on the tree: the symbols they completed are emitted, and U_REM, U_SYMS, U_USED and U_NODE are as they left them; ERRINFO is
U_USED; for E_DEC_EOS all the bits have been consumed, the byte is counted and U_LAST set; the session is closed and nothing else
changes. E_DEC_EOS comes with symbols still owed, E_DEC_TRAIL at a bit with none owed, E_DEC_BADBIT at a 1 bit at a leaf. -/
def Obligations.DecodeErrorsKeepTheirEffects : Prop :=
  ∀ (v : Byte) (i : Instr) (s t : State), i = .unpackFeed v ∨ i = .unpackLast v → s.err = false → exec i s = .next t →
    t.err = true → 5 ≤ t.errCode →
    ∃ (syms : List Byte) (used : Nat), used ≤ (budgetOf s i).length ∧
      s.decodeBits s.uNode ((budgetOf s i).take used) = some (syms, t.uNode) ∧ s.Owes ((budgetOf s i).take used) ∧
      t = { s.walked used syms t.uNode with
        uFed := if t.errCode = 6 then s.uFed + 1 else s.uFed, uLast := (t.errCode == 6) || s.uLast, unpackOpen := false,
        err := true, errCode := t.errCode, errCmd := encode i, errInfo := t.uUsed } ∧
      ((t.errCode = 6 ∧ i = .unpackLast v ∧ used = 8 - s.uPad.toNat ∧ syms.length < s.uRem.toNat) ∨
        (t.errCode = 7 ∧ used < (budgetOf s i).length ∧ syms.length = s.uRem.toNat) ∨
        (t.errCode = 5 ∧ (budgetOf s i)[used]? = some true ∧ syms.length < s.uRem.toNat ∧
          (s.nodeAt? t.uNode).map Node.leaf = some true))

/-- U_NODE is ROOT after a bit that completed a symbol, and an internal node strictly below ROOT after one that did not (10_state.md
R36.8): after every bit step on a current tree, and after every UNPACK_FEED and UNPACK_LAST that raises nothing, where U_SYMS tells
whether the last of the command's bits completed a symbol. The reference decoding of the other statements ends so too. -/
def Obligations.TheWalkerReturnsToRootWithEachSymbol : Prop :=
  (∀ (s t : State) (x : Bool) (e e' : Nat), s.TreeCurrent → s.WalkerPlaced → ubit x s e = .ok t e' →
    t.root = s.root ∧
    ((e' = e + 1 ∧ t.uSyms = s.uSyms + 1 ∧ t.uNode = t.root) ∨
      (e' = e ∧ t.uSyms = s.uSyms ∧ t.uNode < t.root ∧ (t.nodeAt? t.uNode).map Node.leaf = some false))) ∧
  (∀ (v : Byte) (i : Instr) (s t : State), i = .unpackFeed v ∨ i = .unpackLast v → s.Inv → s.err = false →
    exec i s = .next t → t.err = false →
    ∃ u e, feedBits (budgetOf s i).dropLast s 0 = .ok u e ∧
      ((t.uSyms = u.uSyms + 1 ∧ t.uNode = t.root) ∨
        (t.uSyms = u.uSyms ∧ t.uNode < t.root ∧ (t.nodeAt? t.uNode).map Node.leaf = some false))) ∧
  (∀ (s : State) (bits : List Bool) (b : Bool) (syms syms' : List Byte) (u u' : NodeIdx), s.Inv → s.unpackOpen = true →
    s.decodeBits s.uNode bits = some (syms, u) → s.decodeBits s.uNode (bits ++ [b]) = some (syms', u') →
    (syms' ≠ syms → u' = s.root) ∧
    (syms' = syms → u' < s.root ∧ (s.nodeAt? u').map Node.leaf = some false))

/-- The padding bits are never data (44_bit_unpacker.md R100): two last bytes that agree on the 8 - U_PAD high bits have the same
effect, but for the command word an error records. -/
def Obligations.PaddingBitsAreIgnored : Prop :=
  ∀ (v v' : Byte) (s t : State), (∀ i, s.uPad.toNat ≤ i → i < 8 → v.getLsbD i = v'.getLsbD i) →
    exec (.unpackLast v) s = .next t →
    ∃ t', exec (.unpackLast v') s = .next t' ∧ { t' with errCmd := t.errCmd } = t

/-- Termination (44_bit_unpacker.md R101): after an UNPACK_END that raises nothing, U_SYMS is TOTAL, U_USED is 8 x U_FED - U_PAD
(0 when nothing was fed), modulo 2^32, and the walker stands at ROOT. -/
def Obligations.ASuccessfulEndHasDecodedEverything : Prop :=
  ∀ s t : State, s.Inv → s.err = false → exec .unpackEnd s = .next t → t.err = false →
    t.uSyms = t.total.setWidth 32 ∧
    t.uUsed = (if t.uLast then 8#32 * t.uFed - t.uPad.setWidth 32 else 0) ∧ t.uNode = t.root

/-- The unpacker inverts the packer (44_bit_unpacker.md R102): for any symbols that have codes, as many as TOTAL, the bytes a pack
session emits, given to an unpack session with its padding count on the same tree, give back exactly the symbols, with no error.
`execAll` runs the commands with no wait for room in OUTQ, the model's choice (log 19). -/
def Obligations.UnpackingInvertsPacking : Prop :=
  ∀ (s : State) (syms : List Byte), s.Inv → s.err = false → s.codesValid = true → ¬ InSession s →
    (∀ sym ∈ syms, (s.codeAt sym).len ≠ 0) → syms.length = s.total.toNat →
    ∃ t bytes u, execAll ([.packBegin] ++ syms.map .packSym ++ [.packFlush]) s = .next t ∧
      t.outq = s.outq ++ bytes ∧
      execAll ([.unpackBegin t.pPad] ++ feedCommands bytes ++ [.unpackEnd]) t = .next u ∧
      u.err = false ∧ u.outq = t.outq ++ syms

/-! ## The whole machine -/

/-- The reset state is a good state (10_state.md R35, R36). -/
def Obligations.ResetIsAGoodState : Prop := State.reset.Inv

/-- Every step keeps the invariants of 10_state.md R36, in the strengthened form of `State.Inv`, whatever the host does. Of R36.8,
`State.Inv` holds the first sentence and ROOT before the first bit; that the walker is at ROOT after each completed symbol is
`TheWalkerReturnsToRootWithEachSymbol`. -/
def Obligations.EveryStepKeepsTheInvariants : Prop := ∀ s t : State, s.Inv → step s = .next t → t.Inv

/-- From a good state no step stops: no walk leaves the arena (60_exceptions.md R108), so the fault `arenaMalformed`, the model's choice
(log 8), is not met; the hang of a full OUTQ that the host never drains is a wait that goes on (70_reset_and_hazards.md R131). -/
def Obligations.GoodStatesNeverStop : Prop := ∀ s : State, s.Inv → ∃ t, step s = .next t

/-- What the spec leaves unspecified is unobservable (10_state.md R24, R26): two good states that differ only in hidden storage
step alike and go on differing only there. -/
def Obligations.UnspecifiedStorageIsUnobservable : Prop :=
  ∀ s t : State, s.Inv → t.Inv → s.SameButHidden t →
    (∀ s', step s = .next s' → ∃ t', step t = .next t' ∧ s'.SameButHidden t') ∧
    (∀ f, step s = .fault f → step t = .fault f)

/-- The round trip of the host's procedures (20_memory.md R62): what `compress` makes of any input, with the block in any good state
with no error and no session, `decompress` turns back into it, with the block in any such state. Both are the model's own functions
for the host (log 15), and run the commands with no wait for room in OUTQ (log 19). -/
def Obligations.DecompressInvertsCompress : Prop :=
  ∀ (input : List Byte) (s s' : State), s.Inv → s'.Inv → s.err = false → s'.err = false → ¬ InSession s → ¬ InSession s' →
    ∃ c, compress input s = some c ∧ decompress c s' = some input ∧ c.length ≤ input.length + 1
end

