-- ==== Sys2Proof/Laws/Tree.lean ====
section
/-! SUPPORT. The tree that BUILD makes, as a tree: what the merge loop keeps, and what the arena it ends in holds
(41_tree_builder.md R78 to R80). -/

namespace Sys2Proof.Laws

open Sys2Proof.Machine

/-- A Huffman tree as a recursive type: the arena of 10_state.md R24 read from a node down. -/
inductive HTree where
  | leaf (sym : Byte)
  | node (l r : HTree)

namespace HTree

/-- The symbols at the leaves, left to right. -/
def syms : HTree → List Byte
  | leaf s => [s]
  | node l r => l.syms ++ r.syms

/-- The longest path to a leaf. -/
def depth : HTree → Nat
  | leaf _ => 0
  | node l r => max l.depth r.depth + 1

/-- Each leaf's symbol with its path, 0 left and 1 right, in pre-order (42_code_generator.md R86). -/
def paths : HTree → List (Byte × List Bool)
  | leaf s => [(s, [])]
  | node l r => l.paths.map (fun x => (x.1, false :: x.2)) ++ r.paths.map (fun x => (x.1, true :: x.2))

theorem syms_length_pos (t : HTree) : 0 < t.syms.length := by
  induction t with
  | leaf => simp [syms]
  | node l r ihl ihr => simp [syms]; omega

/-- A path passes fewer internal nodes than the tree has leaves (R80). -/
theorem depth_lt_length (t : HTree) : t.depth < t.syms.length := by
  induction t with
  | leaf => simp [syms, depth]
  | node l r ihl ihr =>
    have := l.syms_length_pos
    have := r.syms_length_pos
    simp [syms, depth]; omega

theorem map_fst_paths (t : HTree) : t.paths.map Prod.fst = t.syms := by
  induction t with
  | leaf => rfl
  | node l r ihl ihr => simp [paths, syms, ← ihl, ← ihr, Function.comp_def]

theorem length_le_depth (t : HTree) : ∀ x ∈ t.paths, x.2.length ≤ t.depth := by
  induction t with
  | leaf => simp [paths, depth]
  | node l r ihl ihr =>
    intro x hx
    simp only [paths, List.mem_append, List.mem_map] at hx
    obtain ⟨y, hy, rfl⟩ | ⟨y, hy, rfl⟩ := hx
    · have := ihl y hy; simp [depth]; omega
    · have := ihr y hy; simp [depth]; omega

/-- No path is a prefix of another leaf's: paths of distinct leaves part at some node. -/
theorem paths_pairwise (t : HTree) : t.paths.Pairwise fun x y => ¬ x.2 <+: y.2 ∧ ¬ y.2 <+: x.2 := by
  induction t with
  | leaf => simp [paths]
  | node l r ihl ihr =>
    simp only [paths, List.pairwise_append, List.pairwise_map, List.mem_map]
    refine ⟨ihl.imp (by simp), ihr.imp (by simp), ?_⟩
    rintro _ ⟨x, -, rfl⟩ _ ⟨y, -, rfl⟩
    simp

/-- The weights 2^-LEN of the leaves sum to 1, scaled by 2^n for an n no path exceeds (42_code_generator.md R86). -/
theorem kraft (t : HTree) : ∀ n, t.depth ≤ n → (t.paths.map fun x => 2 ^ (n - x.2.length)).sum = 2 ^ n := by
  induction t with
  | leaf => simp [paths]
  | node l r ihl ihr =>
    intro n hn
    obtain ⟨m, rfl⟩ : ∃ m, n = m + 1 := ⟨n - 1, by simp [depth] at hn; omega⟩
    simp only [depth] at hn
    have hl := ihl m (by omega)
    have hr := ihr m (by omega)
    simp only [paths, List.map_append, List.map_map, List.sum_append, Function.comp_def, List.length_cons,
      Nat.add_sub_add_right, hl, hr]
    omega

end HTree

/-- Node `i` of an arena, looked up by `g`, is the root of the tree `t`. -/
def Rep (g : Nat → Option Node) (i : Nat) : HTree → Prop
  | .leaf s => ∃ n, g i = some n ∧ n.leaf = true ∧ n.sym = s
  | .node l r => ∃ n, g i = some n ∧ n.leaf = false ∧ Rep g n.left.toNat l ∧ Rep g n.right.toNat r

/-- A larger arena holds the same trees. -/
theorem Rep.mono {g g' : Nat → Option Node} (hg : ∀ i n, g i = some n → g' i = some n) :
    ∀ {t : HTree} {i : Nat}, Rep g i t → Rep g' i t
  | .leaf _, _, ⟨n, h, hl, hs⟩ => ⟨n, hg _ _ h, hl, hs⟩
  | .node _ _, _, ⟨n, h, hl, h1, h2⟩ => ⟨n, hg _ _ h, hl, h1.mono hg, h2.mono hg⟩

/-! ## The queue -/

theorem leastKey_mem (k : QKey) (ks : List QKey) : leastKey k ks ∈ k :: ks := by
  unfold leastKey
  induction ks generalizing k with
  | nil => simp
  | cons x xs ih =>
    simp only [List.foldl_cons]
    split
    · exact List.mem_cons_of_mem _ (ih x)
    · rcases List.mem_cons.1 (ih k) with h | h
      · rw [h]; simp
      · exact List.mem_cons_of_mem _ (List.mem_cons_of_mem _ h)

/-- Removing the first node of the queue leaves the others. -/
theorem takeLeast_perm {q q' : List QKey} {a : QKey} (h : takeLeast q = some (a, q')) : q.Perm (a :: q') := by
  cases q with
  | nil => simp [takeLeast] at h
  | cons k ks =>
    simp only [takeLeast, Option.some.injEq, Prod.mk.injEq] at h
    obtain ⟨rfl, rfl⟩ := h
    exact List.perm_cons_erase (leastKey_mem k ks)

theorem takeLeast_eq_none {q : List QKey} : takeLeast q = none ↔ q = [] := by
  cases q <;> simp [takeLeast]

/-- `before` is the strict order of the pairs (weight, index) (R78). -/
theorem before_iff (a b : QKey) :
    a.before b = true ↔ a.wt.toNat < b.wt.toNat ∨ (a.wt.toNat = b.wt.toNat ∧ a.idx < b.idx) := by
  simp [QKey.before, BitVec.lt_def, BitVec.toNat_eq]

theorem before_trans {a b c : QKey} (h : b.before a = false) (h' : c.before b = false) : c.before a = false := by
  rw [Bool.eq_false_iff, ne_eq, before_iff] at *
  omega

/-- Nothing in the queue comes before the node that is removed (R80). -/
theorem leastKey_first (k : QKey) (ks : List QKey) : ∀ x ∈ k :: ks, x.before (leastKey k ks) = false := by
  unfold leastKey
  induction ks generalizing k with
  | nil => simp [QKey.before]
  | cons y ys ih =>
    simp only [List.foldl_cons]
    intro x hx
    split
    · next hb =>
      have hy := ih y y (by simp)
      rcases List.mem_cons.1 hx with rfl | hx
      · refine before_trans hy ?_
        rw [Bool.eq_false_iff, ne_eq, before_iff]
        rw [before_iff] at hb
        omega
      · exact ih y x hx
    · next hb =>
      simp only [Bool.not_eq_true] at hb
      have hk := ih k k (by simp)
      rcases List.mem_cons.1 hx with rfl | hx
      · exact hk
      · rcases List.mem_cons.1 hx with rfl | hx
        · exact before_trans hk hb
        · exact ih k x (List.mem_cons_of_mem _ hx)

/-! ## The merge loop -/

/-- Node `i` stands in the queue when node `n` is made: no node made since the leaves has taken it (R78). -/
def Queued (g : Nat → Option Node) (leaves n i : Nat) : Prop :=
  i < n ∧ ∀ j, leaves ≤ j → j < n → ∀ m, g j = some m → m.left.toNat ≠ i ∧ m.right.toNat ≠ i

/-- Node `i` leaves the queue before node `j` (R80). -/
def Earlier (g : Nat → Option Node) (i j : Nat) : Prop :=
  ∀ a b, g i = some a → g j = some b → a.wt < b.wt ∨ (a.wt = b.wt ∧ i < j)

/-- Node `n` is the merge of the first two nodes of the queue (R80). -/
def MergedAt (g : Nat → Option Node) (leaves n : Nat) : Prop :=
  ∃ m a b, g n = some m ∧ g m.left.toNat = some a ∧ g m.right.toNat = some b ∧
    m.leaf = false ∧ m.sym = 0 ∧ m.wt = a.wt + b.wt ∧ m.wt.toNat = a.wt.toNat + b.wt.toNat ∧
    Queued g leaves n m.left.toNat ∧ Queued g leaves n m.right.toNat ∧ m.left ≠ m.right ∧
    Earlier g m.left.toNat m.right.toNat ∧
    ∀ i, Queued g leaves n i → i ≠ m.left.toNat → i ≠ m.right.toNat → Earlier g m.right.toNat i

/-- What the merge loop keeps: the arena so far, the queue, and the tree under each queued node. -/
structure MergeInv (leaves arena : List Node) (q : List QKey) (F : Nat → HTree) : Prop where
  leavesFirst : leaves <+: arena
  keys : ∀ k ∈ q, ∃ n, arena[k.idx]? = some n ∧ n.wt = k.wt
  nodup : (q.map QKey.idx).Nodup
  count : arena.length + q.length = 2 * leaves.length
  reps : ∀ k ∈ q, Rep (arena[·]?) k.idx (F k.idx)
  symsPerm : (q.flatMap fun k => (F k.idx).syms).Perm (leaves.map Node.sym)
  weights : (q.map fun k => k.wt.toNat).sum = (leaves.map fun n => n.wt.toNat).sum
  bounded : ∀ n ∈ arena, n.wt.toNat ≤ (leaves.map fun n => n.wt.toNat).sum
  queued : ∀ i, i ∈ q.map QKey.idx ↔ Queued (arena[·]?) leaves.length arena.length i
  merged : ∀ n, leaves.length ≤ n → n < arena.length → MergedAt (arena[·]?) leaves.length n

theorem getElem?_append_of_some {α : Type} {l : List α} {i : Nat} {x : α} (ys : List α) (h : l[i]? = some x) :
    (l ++ ys)[i]? = some x := by
  obtain ⟨hi, -⟩ := List.getElem?_eq_some_iff.1 h
  rw [List.getElem?_append_left hi, h]

/-- Whether a node is queued when node `n` is made depends only on the nodes before `n`. -/
theorem queued_congr {g g' : Nat → Option Node} {leaves n : Nat} (h : ∀ j, j < n → g j = g' j) (i : Nat) :
    Queued g leaves n i ↔ Queued g' leaves n i := by
  unfold Queued
  refine and_congr_right fun _ => forall_congr' fun j => forall_congr' fun _ => forall_congr' fun hj => ?_
  rw [h j hj]

/-- How node `n` was merged depends only on the nodes up to `n`. -/
theorem mergedAt_congr {g g' : Nat → Option Node} {leaves n : Nat} (h : ∀ j, j ≤ n → g j = g' j)
    (hm : MergedAt g leaves n) : MergedAt g' leaves n := by
  obtain ⟨m, a, b, h1, h2, h3, h4, h5, h6, h7, h8, h9, h10, h11, h12⟩ := hm
  have hq : ∀ i, Queued g leaves n i ↔ Queued g' leaves n i := queued_congr fun j hj => h j (by omega)
  have hl : m.left.toNat ≤ n := by have := h8.1; omega
  have hr : m.right.toNat ≤ n := by have := h9.1; omega
  refine ⟨m, a, b, by rw [← h _ le_rfl, h1], by rw [← h _ hl, h2], by rw [← h _ hr, h3], h4, h5, h6, h7,
    (hq _).1 h8, (hq _).1 h9, h10, ?_, ?_⟩
  · intro x y hx hy
    exact h11 x y (by rw [h _ hl, hx]) (by rw [h _ hr, hy])
  · intro i hi h1 h2 x y hx hy
    have hi' := (hq i).2 hi
    exact h12 i hi' h1 h2 x y (by rw [h _ hr, hx]) (by rw [h _ (by have := hi'.1; omega), hy])

/-- One merge keeps what the loop keeps (R78). -/
theorem MergeInv.merge {leaves arena : List Node} {q q1 q2 : List QKey} {F : Nat → HTree} {a b : QKey}
    (inv : MergeInv leaves arena q F) (hL : leaves.length ≤ 256)
    (hW : (leaves.map fun n => n.wt.toNat).sum < 2 ^ 24)
    (ha : takeLeast q = some (a, q1)) (hb : takeLeast q1 = some (b, q2)) :
    MergeInv leaves (arena ++ [innerNode (a.wt + b.wt) a.idx b.idx]) (q2 ++ [⟨a.wt + b.wt, arena.length⟩])
      (Function.update F arena.length (.node (F a.idx) (F b.idx))) := by
  have pa := takeLeast_perm ha
  have pb := takeLeast_perm hb
  have pq : q.Perm (a :: b :: q2) := pa.trans (pb.cons a)
  have hlen : q.length = q2.length + 2 := by simpa using pq.length_eq
  have hcount := inv.count
  have hn : arena.length < 511 := by omega
  have hLe : leaves.length ≤ arena.length := inv.leavesFirst.length_le
  have mem : ∀ k, k ∈ q ↔ k = a ∨ k = b ∨ k ∈ q2 := fun k => by simpa using pq.mem_iff (a := k)
  have lt : ∀ k ∈ q, k.idx < arena.length := fun k hk => by
    obtain ⟨n, h, -⟩ := inv.keys k hk
    exact (List.getElem?_eq_some_iff.1 h).1
  have nd : (a.idx :: b.idx :: q2.map QKey.idx).Nodup := by
    simpa using (pq.map QKey.idx).nodup_iff.1 inv.nodup
  obtain ⟨hab, ha2, hb2, nd2⟩ : a.idx ≠ b.idx ∧ a.idx ∉ q2.map QKey.idx ∧ b.idx ∉ q2.map QKey.idx ∧
      (q2.map QKey.idx).Nodup := by
    simp only [List.nodup_cons, List.mem_cons, not_or] at nd
    exact ⟨nd.1.1, nd.1.2, nd.2.1, nd.2.2⟩
  have hia : a.idx < arena.length := lt a ((mem a).2 (.inl rfl))
  have hib : b.idx < arena.length := lt b ((mem b).2 (.inr (.inl rfl)))
  have hl : (BitVec.ofNat 9 a.idx).toNat = a.idx := by simp; omega
  have hr : (BitVec.ofNat 9 b.idx).toNat = b.idx := by simp; omega
  set g : Node := innerNode (a.wt + b.wt) a.idx b.idx with hg
  have gl : g.left.toNat = a.idx := hl
  have gr : g.right.toNat = b.idx := hr
  have hwq : (q.map fun k => k.wt.toNat).sum = a.wt.toNat + (b.wt.toNat + (q2.map fun k => k.wt.toNat).sum) := by
    simpa using (pq.map fun k => k.wt.toNat).sum_eq
  have hw : (a.wt + b.wt).toNat = a.wt.toNat + b.wt.toNat := by
    rw [BitVec.toNat_add]
    have := inv.weights
    omega
  have upd : ∀ k ∈ q, Function.update F arena.length (.node (F a.idx) (F b.idx)) k.idx = F k.idx := fun k hk =>
    Function.update_of_ne (by have := lt k hk; omega) ..
  have up : ∀ i (n : Node), arena[i]? = some n → (arena ++ [g])[i]? = some n := fun i n h => getElem?_append_of_some _ h
  have old : ∀ j, j < arena.length → arena[j]? = (arena ++ [g])[j]? := fun j hj => by
    rw [List.getElem?_append_left hj]
  have gnew : (arena ++ [g])[arena.length]? = some g := by simp
  have memq2 : ∀ k ∈ q2, k ∈ q := fun k hk => (mem k).2 (.inr (.inr hk))
  have qa : a ∈ q := (mem a).2 (.inl rfl)
  have qb : b ∈ q := (mem b).2 (.inr (.inl rfl))
  have key : ∀ k ∈ q, ∀ n, (arena ++ [g])[k.idx]? = some n → n.wt = k.wt := by
    intro k hk n h
    obtain ⟨m, hm, hmw⟩ := inv.keys k hk
    rw [up _ _ hm] at h
    exact (Option.some.inj h) ▸ hmw
  have first : ∀ k ∈ q, k ≠ a → Earlier ((arena ++ [g])[·]?) a.idx k.idx := by
    intro k hk hka x y hx hy
    have hxa := key a qa x hx
    have hyk := key k hk y hy
    have hne : k.idx ≠ a.idx := by
      rcases (mem k).1 hk with h | rfl | h
      · exact absurd h hka
      · exact fun h => hab h.symm
      · exact fun he => ha2 (he ▸ List.mem_map_of_mem h)
    have hf : k.before a = false := by
      cases q with
      | nil => simp at hk
      | cons z zs =>
        simp only [takeLeast, Option.some.injEq, Prod.mk.injEq] at ha
        rw [← ha.1]; exact leastKey_first z zs k hk
    rw [Bool.eq_false_iff, ne_eq, before_iff] at hf
    rw [hxa, hyk, BitVec.lt_def, BitVec.toNat_eq]
    omega
  have second : ∀ k ∈ q1, k ≠ b → Earlier ((arena ++ [g])[·]?) b.idx k.idx := by
    intro k hk hkb x y hx hy
    have hk2 : k ∈ q2 := by
      rcases List.mem_cons.1 (pb.mem_iff.1 hk) with h | h
      · exact absurd h hkb
      · exact h
    have hxb := key b qb x hx
    have hyk := key k (memq2 k hk2) y hy
    have hne : k.idx ≠ b.idx := fun he => hb2 (he ▸ List.mem_map_of_mem hk2)
    have hf : k.before b = false := by
      cases q1 with
      | nil => simp at hk
      | cons z zs =>
        simp only [takeLeast, Option.some.injEq, Prod.mk.injEq] at hb
        rw [← hb.1]; exact leastKey_first z zs k hk
    rw [Bool.eq_false_iff, ne_eq, before_iff] at hf
    rw [hxb, hyk, BitVec.lt_def, BitVec.toNat_eq]
    omega
  have qOld : ∀ i, Queued ((arena ++ [g])[·]?) leaves.length arena.length i ↔ i ∈ q.map QKey.idx := fun i =>
    (queued_congr (fun j hj => (old j hj).symm) i).trans (inv.queued i).symm
  constructor
  · exact inv.leavesFirst.trans (List.prefix_append _ _)
  · intro k hk
    rcases List.mem_append.1 hk with hk | hk
    · obtain ⟨n, h, hw⟩ := inv.keys k (memq2 k hk)
      exact ⟨n, up _ _ h, hw⟩
    · rw [List.mem_singleton.1 hk]
      exact ⟨g, gnew, rfl⟩
  · simp only [List.map_append, List.map_cons, List.map_nil]
    refine List.Nodup.append nd2 (by simp) ?_
    simp only [List.disjoint_singleton]
    intro h
    obtain ⟨k, hk, he⟩ := List.mem_map.1 h
    have := lt k (memq2 k hk)
    omega
  · simp; omega
  · intro k hk
    rcases List.mem_append.1 hk with hk | hk
    · rw [upd k (memq2 k hk)]
      exact (inv.reps k (memq2 k hk)).mono up
    · rw [List.mem_singleton.1 hk]
      simp only [Function.update_self]
      refine ⟨g, gnew, rfl, ?_, ?_⟩
      · rw [gl]; exact (inv.reps a qa).mono up
      · rw [gr]; exact (inv.reps b qb).mono up
  · have e : (q2.flatMap fun k => (Function.update F arena.length (.node (F a.idx) (F b.idx)) k.idx).syms) =
        q2.flatMap fun k => (F k.idx).syms := by
      refine List.flatMap_congr fun k hk => by rw [upd k (memq2 k hk)]
    simp only [List.flatMap_append, e, List.flatMap_cons, List.flatMap_nil, Function.update_self, HTree.syms,
      List.append_nil]
    refine List.perm_append_comm.trans (.trans ?_ inv.symsPerm)
    have := (pq.flatMap_right fun k => (F k.idx).syms).symm
    simpa [List.flatMap_cons] using this
  · simp only [List.map_append, List.sum_append, List.map_cons, List.map_nil, List.sum_cons, List.sum_nil, hw]
    have := inv.weights
    omega
  · intro n hn
    rcases List.mem_append.1 hn with hn | hn
    · exact inv.bounded n hn
    · rw [List.mem_singleton.1 hn]
      show (a.wt + b.wt).toNat ≤ _
      have := inv.weights
      omega
  · intro i
    simp only [List.map_append, List.map_cons, List.map_nil, List.mem_append, List.mem_singleton, List.length_append,
      List.length_cons, List.length_nil]
    constructor
    · rintro (h | rfl)
      · obtain ⟨k, hk, rfl⟩ := List.mem_map.1 h
        have hq := (qOld k.idx).2 (List.mem_map_of_mem (memq2 k hk))
        refine ⟨by have := hq.1; omega, fun j h1 h2 m hm => ?_⟩
        rcases Nat.lt_or_ge j arena.length with hj | hj
        · exact hq.2 j h1 hj m hm
        · obtain rfl : j = arena.length := by omega
          rw [← Option.some.inj (gnew.symm.trans hm), gl, gr]
          exact ⟨fun he => ha2 (he ▸ h), fun he => hb2 (he ▸ h)⟩
      · refine ⟨by omega, fun j h1 h2 m hm => ?_⟩
        rcases Nat.lt_or_ge j arena.length with hj | hj
        · obtain ⟨m', -, -, hm', -, -, -, -, -, -, hl', hr', -⟩ := inv.merged j h1 hj
          have e : m' = m := Option.some.inj ((up _ _ hm').symm.trans hm)
          subst e
          have := hl'.1; have := hr'.1
          omega
        · obtain rfl : j = arena.length := by omega
          rw [← Option.some.inj (gnew.symm.trans hm), gl, gr]; omega
    · rintro ⟨hi, h⟩
      rcases Nat.lt_or_ge i arena.length with hi' | hi'
      · left
        have hq : i ∈ q.map QKey.idx := (qOld i).1 ⟨hi', fun j h1 h2 m hm => h j h1 (by omega) m hm⟩
        have hg' := h arena.length (by omega) (by omega) g gnew
        rw [gl, gr] at hg'
        obtain ⟨k, hk, rfl⟩ := List.mem_map.1 hq
        rcases (mem k).1 hk with rfl | rfl | hk
        · exact absurd rfl hg'.1
        · exact absurd rfl hg'.2
        · exact List.mem_map_of_mem hk
      · right; omega
  · intro n h1 h2
    simp only [List.length_append, List.length_cons, List.length_nil] at h2
    rcases Nat.lt_or_ge n arena.length with hn | hn
    · exact mergedAt_congr (fun j hj => old j (by omega)) (inv.merged n h1 hn)
    · obtain rfl : n = arena.length := by omega
      obtain ⟨x, hx, hxw⟩ := inv.keys a qa
      obtain ⟨y, hy, hyw⟩ := inv.keys b qb
      refine ⟨g, x, y, gnew, by rw [gl]; exact up _ _ hx, by rw [gr]; exact up _ _ hy, rfl, rfl,
        by rw [hxw, hyw]; rfl, by rw [hxw, hyw]; exact hw, by rw [gl]; exact (qOld _).2 (List.mem_map_of_mem qa),
        by rw [gr]; exact (qOld _).2 (List.mem_map_of_mem qb), ?_, ?_, ?_⟩
      · intro h
        exact hab (by rw [← gl, ← gr, h])
      · rw [gl, gr]
        exact first b qb (fun h => hab (by rw [h]))
      · intro i hi h1 h2
        rw [gl] at h1
        rw [gr] at h2 ⊢
        obtain ⟨k, hk, rfl⟩ := List.mem_map.1 ((qOld i).1 hi)
        have hk1 : k ∈ q1 := by
          rcases List.mem_cons.1 (pa.mem_iff.1 hk) with rfl | h
          · exact absurd rfl h1
          · exact h
        exact second k hk1 (fun h => h2 (by rw [h]))

/-- The merge loop keeps what it keeps, and leaves at most one node in the queue. -/
theorem MergeInv.mergeAll {leaves : List Node} (hL : leaves.length ≤ 256)
    (hW : (leaves.map fun n => n.wt.toNat).sum < 2 ^ 24) :
    ∀ (rounds : Nat) {arena : List Node} {q : List QKey} {F : Nat → HTree}, MergeInv leaves arena q F →
      q.length ≤ rounds + 1 →
      ∃ q' F', MergeInv leaves (Sys2Proof.Machine.mergeAll rounds arena q) q' F' ∧ q'.length ≤ 1 ∧ (q ≠ [] → q' ≠ []) := by
  intro rounds
  induction rounds with
  | zero => exact fun {arena q F} inv h => ⟨q, F, inv, h, id⟩
  | succ rounds ih =>
    intro arena q F inv h
    unfold Sys2Proof.Machine.mergeAll
    cases ha : takeLeast q with
    | none =>
      rw [takeLeast_eq_none] at ha
      subst ha
      exact ⟨[], F, inv, by simp, id⟩
    | some p =>
      obtain ⟨a, q1⟩ := p
      have hq1 : q.length = q1.length + 1 := by simpa using (takeLeast_perm ha).length_eq
      simp only
      cases hb : takeLeast q1 with
      | none =>
        rw [takeLeast_eq_none] at hb
        subst hb
        exact ⟨q, F, inv, by simp [hq1], id⟩
      | some p =>
        obtain ⟨b, q2⟩ := p
        have hq2 : q1.length = q2.length + 1 := by simpa using (takeLeast_perm hb).length_eq
        obtain ⟨q', F', inv', hlen, hne⟩ := ih (inv.merge hL hW ha hb) (by simp; omega)
        exact ⟨q', F', inv', hlen, fun _ => hne (by simp)⟩

/-! ## BUILD's arena -/

/-- The leaves with their symbols, in symbol order (R79). -/
theorem leafArena_eq (freq : Vector Count 256) :
    leafArena freq = ((freq.toList.zipIdx).filter fun x => x.1 ≠ 0).map fun x => leafNode (BitVec.ofNat 8 x.2) x.1 := by
  unfold leafArena
  generalize freq.toList.zipIdx = l
  induction l with
  | nil => rfl
  | cons x xs ih =>
    by_cases h : x.1 = 0 <;> simp_all

theorem leafArena_length (freq : Vector Count 256) : (leafArena freq).length = (freq.toList.filter (· ≠ 0)).length := by
  rw [leafArena_eq, List.length_map]
  generalize freq.toList = l
  suffices ∀ n, ((l.zipIdx n).filter fun x => x.1 ≠ 0).length = (l.filter (· ≠ 0)).length from this 0
  induction l with
  | nil => simp
  | cons x xs ih =>
    intro n
    by_cases h : x = 0 <;> simp_all [List.zipIdx_cons]

theorem leafArena_length_le (freq : Vector Count 256) : (leafArena freq).length ≤ 256 := by
  rw [leafArena_length]
  exact (List.length_filter_le ..).trans (by simp)

theorem leafArena_weights (freq : Vector Count 256) : ((leafArena freq).map fun n => n.wt.toNat).sum = sumCounts freq := by
  rw [leafArena_eq, List.map_map, sumCounts]
  generalize freq.toList = l
  suffices ∀ n, (((l.zipIdx n).filter fun x => x.1 ≠ 0).map
      ((fun n => n.wt.toNat) ∘ fun x => leafNode (BitVec.ofNat 8 x.2) x.1)).sum = (l.map BitVec.toNat).sum from this 0
  induction l with
  | nil => simp
  | cons x xs ih =>
    intro n
    have hx : x.toNat % 16777216 = x.toNat := Nat.mod_eq_of_lt (by have := x.isLt; omega)
    by_cases h : x = 0
    · subst h; simpa [List.zipIdx_cons] using ih (n + 1)
    · have := ih (n + 1)
      simp only [Function.comp_def, leafNode, BitVec.toNat_setWidth] at this ⊢
      simp only [List.zipIdx_cons, List.filter_cons, h, ne_eq, not_false_eq_true, decide_true, if_true, List.map_cons,
        List.sum_cons, hx, this]

/-- No sum of the 256 counts reaches 2^24 (00_scope.md R6). -/
theorem sumCounts_le (freq : Vector Count 256) : sumCounts freq ≤ 16776960 := by
  have h : ∀ l : List Count, (l.map BitVec.toNat).sum ≤ l.length * 65535 := by
    intro l
    induction l with
    | nil => simp
    | cons x xs ih =>
      have := x.isLt
      simp only [List.map_cons, List.sum_cons, List.length_cons]
      omega
  have := h freq.toList
  simpa [sumCounts] using this

theorem leafArena_leaf (freq : Vector Count 256) : ∀ n ∈ leafArena freq, n.leaf = true := by
  intro n hn
  rw [leafArena_eq] at hn
  obtain ⟨x, -, rfl⟩ := List.mem_map.1 hn
  rfl

/-- The queue BUILD starts from (R78). -/
theorem MergeInv.start (leaves : List Node) (hleaf : ∀ n ∈ leaves, n.leaf = true) :
    MergeInv leaves leaves (leafQueue leaves) fun i => .leaf ((leaves[i]?.map Node.sym).getD 0) := by
  have hidx : (leafQueue leaves).map QKey.idx = List.range leaves.length := by
    simp only [leafQueue, List.map_map, Function.comp_def]
    exact (List.zipIdx_map_snd 0 leaves).trans (by simp [List.range_eq_range'])
  have hmem : ∀ k ∈ leafQueue leaves, ∃ n, leaves[k.idx]? = some n ∧ n.wt = k.wt ∧ n ∈ leaves := by
    intro k hk
    obtain ⟨⟨n, i⟩, hn, rfl⟩ := List.mem_map.1 hk
    have := List.mem_zipIdx_iff_getElem?.1 hn
    exact ⟨n, this, rfl, List.mem_of_getElem? this⟩
  constructor
  · exact List.prefix_rfl
  · intro k hk
    obtain ⟨n, h, hw, -⟩ := hmem k hk
    exact ⟨n, h, hw⟩
  · rw [hidx]; exact List.nodup_range
  · simp [leafQueue]; omega
  · intro k hk
    obtain ⟨n, h, -, hn⟩ := hmem k hk
    exact ⟨n, h, hleaf n hn, by simp [h]⟩
  · refine List.Perm.of_eq ?_
    simp only [leafQueue, List.flatMap_map, HTree.syms]
    suffices ∀ (l : List Node) (k : Nat), (∀ i, l[i]? = leaves[k + i]?) →
        (l.zipIdx k).flatMap (fun x => [(leaves[x.2]?.map Node.sym).getD 0]) = l.map Node.sym from this leaves 0 (by simp)
    intro l
    induction l with
    | nil => simp
    | cons x xs ih =>
      intro k h
      have h0 : leaves[k]? = some x := by simpa using (h 0).symm
      simp only [List.zipIdx_cons, List.flatMap_cons, h0, Option.map_some, Option.getD_some, List.map_cons]
      rw [ih (k + 1) fun i => by simpa [Nat.add_assoc, Nat.add_comm 1] using h (i + 1)]
      rfl
  · simp only [leafQueue, List.map_map, Function.comp_def]
    congr 1
    rw [show (fun x : Node × Nat => x.1.wt.toNat) = (fun n : Node => n.wt.toNat) ∘ Prod.fst from rfl, ← List.map_map,
      List.zipIdx_map_fst]
  · exact fun n hn => List.le_sum_of_mem (List.mem_map_of_mem (f := fun n : Node => n.wt.toNat) hn)
  · intro i
    rw [hidx, List.mem_range]
    exact ⟨fun h => ⟨h, fun j h1 h2 => by omega⟩, fun h => h.1⟩
  · intro n h1 h2; omega

/-- What BUILD's arena is when some count is not 0 (R80): 2L-1 nodes, the last the root of a tree over exactly the leaves'
symbols, of weight TOTAL, every internal node the merge of the first two nodes of the queue. -/
structure ArenaSpec (freq : Vector Count 256) (t : HTree) : Prop where
  length : (buildArena freq).length = 2 * (leafArena freq).length - 1
  leavesFirst : leafArena freq <+: buildArena freq
  rep : Rep ((buildArena freq)[·]?) ((buildArena freq).length - 1) t
  symsPerm : t.syms.Perm ((leafArena freq).map Node.sym)
  rootWeight : ∃ n, (buildArena freq)[(buildArena freq).length - 1]? = some n ∧ n.wt.toNat = sumCounts freq
  bounded : ∀ n ∈ buildArena freq, n.wt.toNat ≤ sumCounts freq
  queued : ∀ i, i = (buildArena freq).length - 1 ↔
    Queued ((buildArena freq)[·]?) (leafArena freq).length (buildArena freq).length i
  merged : ∀ n, (leafArena freq).length ≤ n → n < (buildArena freq).length →
    MergedAt ((buildArena freq)[·]?) (leafArena freq).length n

theorem buildArena_nil {freq : Vector Count 256} (h : leafArena freq = []) : buildArena freq = [] := by
  simp [buildArena, h, mergeAll]

theorem buildArena_spec {freq : Vector Count 256} (h : leafArena freq ≠ []) : ∃ t, ArenaSpec freq t := by
  have hpos : 0 < (leafArena freq).length := List.length_pos_iff.2 h
  have hW := leafArena_weights freq
  have hqlen : (leafQueue (leafArena freq)).length = (leafArena freq).length := by simp [leafQueue]
  obtain ⟨q, F, inv, hle, hne⟩ := MergeInv.mergeAll (leafArena_length_le freq)
    (by rw [hW]; have := sumCounts_le freq; omega) (leafArena freq).length
    (MergeInv.start (leafArena freq) (leafArena_leaf freq)) (by omega)
  have hq : q ≠ [] := hne (by rw [← List.length_pos_iff, hqlen]; exact hpos)
  obtain ⟨k, rfl⟩ : ∃ k, q = [k] := by
    match q, hle, hq with
    | [k], _, _ => exact ⟨k, rfl⟩
  have hlen : (buildArena freq).length = 2 * (leafArena freq).length - 1 := by
    have := inv.count
    simp only [List.length_singleton] at this
    show (Sys2Proof.Machine.mergeAll ..).length = _
    omega
  have hlast : Queued ((buildArena freq)[·]?) (leafArena freq).length (buildArena freq).length
      ((buildArena freq).length - 1) := by
    refine ⟨by omega, fun j h1 h2 m hm => ?_⟩
    obtain ⟨m', -, -, hm', -, -, -, -, -, -, hl, hr, -⟩ := inv.merged j h1 h2
    have e : m' = m := Option.some.inj (hm'.symm.trans hm)
    subst e
    have := hl.1; have := hr.1
    omega
  have hk : k.idx = (buildArena freq).length - 1 := by
    exact (List.mem_singleton.1 ((inv.queued _).2 hlast)).symm
  refine ⟨F k.idx, hlen, inv.leavesFirst, ?_, ?_, ?_, ?_, ?_, inv.merged⟩
  · rw [← hk]; exact inv.reps k (by simp)
  · simpa using inv.symsPerm
  · obtain ⟨n, hn, hw⟩ := inv.keys k (by simp)
    refine ⟨n, by rw [← hk]; exact hn, ?_⟩
    have := inv.weights
    rw [hW] at this
    simpa [hw] using this
  · intro n hn
    have := inv.bounded n hn
    rwa [hW] at this
  · intro i
    rw [← hk]
    have : i ∈ [k.idx] ↔ _ := inv.queued i
    rw [List.mem_singleton] at this
    exact this

end Sys2Proof.Laws
end

