-- ==== Sys2Proof/Laws/Codes.lean ====
section
/-! SUPPORT. The code table that GENCODES makes of a tree: each leaf's path, left-aligned (42_code_generator.md R85, R86; 10_state.md
R26), and what the invariants say of a state's tree and codes. -/

namespace Sys2Proof.Laws

open Sys2Proof.Machine

/-! ## Code entries -/

/-- Bit 255-i of a left-aligned bit string is its bit i, and 0 beyond it. -/
theorem leftAlign_getLsbD (p : List Bool) : ∀ j i, j + p.length ≤ 256 → i < 256 →
    (leftAlign j p).getLsbD (255 - i) = (decide (j ≤ i) && (p[i - j]?).getD false) := by
  induction p with
  | nil => simp [leftAlign]
  | cons b p ih =>
    intro j i hj hi
    simp only [List.length_cons] at hj
    rw [leftAlign, BitVec.getLsbD_or, ih (j + 1) i (by omega) hi, BitVec.getLsbD_shiftLeft, BitVec.getLsbD_setWidth,
      BitVec.getLsbD_ofBool]
    rcases lt_trichotomy i j with h | h | h
    · have h1 : ¬ 255 - i < 255 - j := by omega
      have h2 : 255 - i - (255 - j) ≠ 0 := by omega
      simp [h2, show ¬ j ≤ i by omega, show ¬ j + 1 ≤ i by omega]
    · subst h
      simp [show 255 - i < 256 by omega]
    · have h1 : 255 - i < 255 - j := by omega
      obtain ⟨k, rfl⟩ : ∃ k, i = j + 1 + k := ⟨i - (j + 1), by omega⟩
      simp [h1, show j + 1 + k - j = k + 1 by omega]
      omega

theorem ofPath_len {p : List Bool} (h : p.length ≤ 255) : (Code.ofPath p).len.toNat = p.length := by
  simp [Code.ofPath]; omega

theorem ofPath_bits {p : List Bool} (h : p.length ≤ 255) {i : Nat} (hi : i < 256) :
    (Code.ofPath p).bits.getLsbD (255 - i) = (p[i]?).getD false := by
  simp [Code.ofPath, leftAlign_getLsbD p 0 i (by omega) hi]

/-- A stored path reads back. -/
theorem path_ofPath {p : List Bool} (h : p.length ≤ 255) : (Code.ofPath p).path = p := by
  refine List.ext_getElem (by simp [Code.path, ofPath_len h]) fun i h1 h2 => ?_
  simp only [Code.path, List.getElem_map, List.getElem_range]
  rw [ofPath_bits h (by omega), List.getElem?_eq_getElem h2, Option.getD_some]

theorem ofPath_nil : Code.ofPath [] = Code.blank := by decide

/-- The single-leaf code of R87 is the path "0". -/
theorem ofPath_zero : Code.ofPath [false] = ⟨1, 0⟩ := by decide

/-! ## The walk of GENCODES -/

/-- Write a list of paths into a code table, each under a common beginning `p`. -/
def writePaths (p : List Bool) (xs : List (Byte × List Bool)) (tbl : Vector Code 256) : Vector Code 256 :=
  xs.foldl (fun tbl x => tbl.set x.1.toNat (Code.ofPath (p ++ x.2)) x.1.isLt) tbl

/-- The walk from a node writes the paths of the tree under it (R85, R86). -/
theorem visit_rep {nodes : Vector Node 511} :
    ∀ {t : HTree} {i : NodeIdx} (d : Nat) (p : List Bool) (tbl : Vector Code 256), Rep (nodes[·]?) i.toNat t → t.depth < d →
      visit nodes d i p tbl = some (writePaths p t.paths tbl) := by
  intro t
  induction t with
  | leaf s =>
    rintro i d p tbl ⟨n, hn, hl, rfl⟩ hd
    obtain ⟨d, rfl⟩ : ∃ e, d = e + 1 := ⟨d - 1, by omega⟩
    simp [visit, show nodes[i.toNat]? = some n from hn, hl, HTree.paths, writePaths]
  | node l r ihl ihr =>
    rintro i d p tbl ⟨n, hn, hl, h1, h2⟩ hd
    obtain ⟨d, rfl⟩ : ∃ e, d = e + 1 := ⟨d - 1, by omega⟩
    simp only [HTree.depth] at hd
    simp only [visit, show nodes[i.toNat]? = some n from hn, hl, ihl d _ _ h1 (by omega), ihr d _ _ h2 (by omega)]
    simp [HTree.paths, writePaths, List.foldl_append, List.foldl_map, List.append_assoc]

theorem writePaths_other {p : List Bool} {xs : List (Byte × List Bool)} {tbl : Vector Code 256} {s : Byte}
    (h : s ∉ xs.map Prod.fst) : (writePaths p xs tbl)[s.toNat]'s.isLt = tbl[s.toNat]'s.isLt := by
  induction xs generalizing tbl with
  | nil => rfl
  | cons x xs ih =>
    simp only [List.map_cons, List.mem_cons, not_or] at h
    show (writePaths p xs _)[s.toNat]'s.isLt = _
    rw [ih h.2, Vector.getElem_set_ne]
    exact fun e => h.1 (BitVec.eq_of_toNat_eq e.symm)

theorem writePaths_path {p : List Bool} {xs : List (Byte × List Bool)} {tbl : Vector Code 256} {x : Byte × List Bool}
    (hnd : (xs.map Prod.fst).Nodup) (h : x ∈ xs) :
    (writePaths p xs tbl)[x.1.toNat]'x.1.isLt = Code.ofPath (p ++ x.2) := by
  induction xs generalizing tbl with
  | nil => simp at h
  | cons y ys ih =>
    simp only [List.map_cons, List.nodup_cons] at hnd
    show (writePaths p ys _)[x.1.toNat]'x.1.isLt = _
    rcases List.mem_cons.1 h with rfl | h
    · rw [writePaths_other hnd.1]; simp
    · exact ih hnd.2 h

/-! ## The leaves' symbols -/

theorem leafArena_syms (freq : Vector Count 256) :
    (leafArena freq).map Node.sym = ((List.range 256).filter fun k => (freq[k]?).getD 0 ≠ 0).map (BitVec.ofNat 8) := by
  rw [leafArena_eq, List.map_map]
  have e : (Node.sym ∘ fun x : Count × Nat => leafNode (BitVec.ofNat 8 x.2) x.1) = (BitVec.ofNat 8) ∘ Prod.snd := rfl
  rw [e, ← List.map_map]
  congr 1
  have hz : freq.toList.zipIdx = (List.range 256).map fun k => ((freq[k]?).getD 0, k) := by
    refine List.ext_getElem (by simp) fun i h1 h2 => ?_
    simp only [List.length_zipIdx, Vector.length_toList] at h1
    simp [h1]
  rw [hz, List.filter_map, List.map_map]
  simp [Function.comp_def]

theorem ofNat_byte_inj {a b : Nat} (ha : a < 256) (hb : b < 256) (h : BitVec.ofNat 8 a = BitVec.ofNat 8 b) : a = b := by
  have := congrArg BitVec.toNat h
  simp only [BitVec.toNat_ofNat] at this
  omega

theorem leafArena_syms_nodup (freq : Vector Count 256) : ((leafArena freq).map Node.sym).Nodup := by
  rw [leafArena_syms]
  refine List.Nodup.map_on (fun a ha b hb h => ?_) (List.nodup_range.filter _)
  simp only [List.mem_filter, List.mem_range] at ha hb
  exact ofNat_byte_inj ha.1 hb.1 h

/-- Exactly the symbols with a non-zero count have a leaf (R79). -/
theorem mem_leafArena_syms (s : State) (sym : Byte) : sym ∈ (leafArena s.freq).map Node.sym ↔ s.freqAt sym ≠ 0 := by
  rw [leafArena_syms]
  have hsym := sym.isLt
  have hget : (s.freq[sym.toNat]?).getD 0 = s.freqAt sym := by
    rw [Vector.getElem?_eq_getElem hsym]; rfl
  simp only [List.mem_map, List.mem_filter, List.mem_range]
  constructor
  · rintro ⟨k, ⟨hk, hne⟩, rfl⟩
    have : (BitVec.ofNat 8 k).toNat = k := by simp; omega
    rw [this] at hget
    rw [← hget]
    simpa using hne
  · intro h
    exact ⟨sym.toNat, ⟨hsym, by rw [hget]; simpa using h⟩, by simp⟩

/-! ## The tree and the codes of a good state -/

/-- In a state with a current tree the arena holds BUILD's entries. -/
theorem TreeCurrent.entry {s : State} (h : s.TreeCurrent) {i : Nat} (hi : i < (buildArena s.freq).length) :
    s.node[i]? = (buildArena s.freq)[i]? := by
  have := congrArg (·[i]?) h.1
  simpa [List.getElem?_take, hi] using this

theorem TreeCurrent.rep {s : State} (h : s.TreeCurrent) {i : Nat} {t : HTree} (hr : Rep ((buildArena s.freq)[·]?) i t) :
    Rep (s.node[·]?) i t :=
  hr.mono fun i n hn => by
    rw [← hn]
    exact TreeCurrent.entry h (List.getElem?_eq_some_iff.1 hn).1

/-- ROOT of a current tree that is not empty (R80). -/
theorem TreeCurrent.root_toNat {s : State} (h : s.TreeCurrent) {t : HTree} (hs : ArenaSpec s.freq t)
    (hne : leafArena s.freq ≠ []) :
    s.root.toNat = (buildArena s.freq).length - 1 := by
  have hpos : 0 < (leafArena s.freq).length := List.length_pos_iff.2 hne
  have := leafArena_length_le s.freq
  have hl := hs.length
  rw [h.2.2.1, rootOf, if_neg (by rw [List.isEmpty_iff, ← List.length_eq_zero_iff]; omega)]
  simp; omega

/-- An internal node of a current tree stands behind the leaves, and its children have lower indices (R80). -/
theorem TreeCurrent.child_lt {s : State} (h : s.TreeCurrent) (hne : leafArena s.freq ≠ []) {i : NodeIdx} {n : Node}
    (hi : i.toNat ≤ s.root.toNat) (hn : s.nodeAt? i = some n) (hl : n.leaf = false) :
    (leafArena s.freq).length ≤ i.toNat ∧ n.left < i ∧ n.right < i := by
  obtain ⟨t, ht⟩ := buildArena_spec hne
  have hpos : 0 < (leafArena s.freq).length := List.length_pos_iff.2 hne
  have hlen := ht.length
  rw [TreeCurrent.root_toNat h ht hne] at hi
  have hb : (buildArena s.freq)[i.toNat]? = some n := by
    rw [← TreeCurrent.entry h (show i.toNat < (buildArena s.freq).length by omega)]; exact hn
  have hge : (leafArena s.freq).length ≤ i.toNat := by
    by_contra hlt
    obtain ⟨tail, e⟩ := ht.leavesFirst
    rw [← e, List.getElem?_append_left (by omega)] at hb
    have := leafArena_leaf s.freq n (List.mem_of_getElem? hb)
    rw [hl] at this; cases this
  obtain ⟨m, a, b, hm, -, -, -, -, -, -, hq1, hq2, -⟩ := ht.merged i.toNat hge (by omega)
  obtain rfl : m = n := Option.some.inj (hm.symm.trans hb)
  exact ⟨hge, hq1.1, hq2.1⟩

/-- The codes of a good state with at least two leaves: the paths of the tree at ROOT. -/
structure CodesSpec (s : State) (t : HTree) : Prop where
  rep : Rep (s.node[·]?) s.root.toNat t
  syms : ∀ sym, sym ∈ t.syms ↔ s.freqAt sym ≠ 0
  nodup : t.syms.Nodup
  short : ∀ x ∈ t.paths, x.2.length ≤ 255
  codes : ∀ x ∈ t.paths, s.codeAt x.1 = Code.ofPath x.2
  absent : ∀ sym, sym ∉ t.syms → s.codeAt sym = Code.blank

/-- The tree of a good state with at least one leaf. -/
theorem treeSpec {s : State} (h : s.TreeCurrent) (hne : leafArena s.freq ≠ []) :
    ∃ t, ArenaSpec s.freq t ∧ Rep (s.node[·]?) s.root.toNat t ∧ (∀ sym, sym ∈ t.syms ↔ s.freqAt sym ≠ 0) ∧ t.syms.Nodup ∧
      t.syms.length = (leafArena s.freq).length := by
  obtain ⟨t, ht⟩ := buildArena_spec hne
  refine ⟨t, ht, ?_, ?_, ?_, by simpa using ht.symsPerm.length_eq⟩
  · rw [TreeCurrent.root_toNat h ht hne]
    exact TreeCurrent.rep h ht.rep
  · intro sym
    rw [ht.symsPerm.mem_iff, mem_leafArena_syms]
  · exact ht.symsPerm.nodup_iff.2 (leafArena_syms_nodup s.freq)

theorem Rep.leaf_iff {g : Nat → Option Node} {i : Nat} {t : HTree} (h : Rep g i t) :
    ∃ n, g i = some n ∧ (n.leaf = true ↔ ∃ s, t = .leaf s) := by
  cases t with
  | leaf s =>
    obtain ⟨n, hn, hl, -⟩ := h
    exact ⟨n, hn, by simp [hl]⟩
  | node l r =>
    obtain ⟨n, hn, hl, -, -⟩ := h
    exact ⟨n, hn, by simp [hl]⟩

theorem root_ne_nil {s : State} (h : s.TreeCurrent) (hne : leafArena s.freq ≠ []) : s.root ≠ Config.nil := by
  obtain ⟨t, ht⟩ := buildArena_spec hne
  have hr := TreeCurrent.root_toNat h ht hne
  have := leafArena_length_le s.freq
  have := ht.length
  intro e
  rw [e] at hr
  simp at hr
  omega

theorem HTree.exists_leaf_of_length {t : HTree} (h : t.syms.length = 1) : ∃ s, t = .leaf s := by
  cases t with
  | leaf s => exact ⟨s, rfl⟩
  | node l r =>
    have := l.syms_length_pos
    have := r.syms_length_pos
    simp [HTree.syms] at h
    omega

theorem noCodes_get (sym : Byte) : noCodes[sym.toNat]'sym.isLt = Code.blank := by
  simp [noCodes]

/-- The code table of a current tree with at least two leaves exists, and holds each leaf's path (R85, R86). -/
theorem codeTable_paths {s : State} (h : s.TreeCurrent) (h2 : 2 ≤ (leafArena s.freq).length) :
    ∃ t, ArenaSpec s.freq t ∧ Rep (s.node[·]?) s.root.toNat t ∧ (∀ sym, sym ∈ t.syms ↔ s.freqAt sym ≠ 0) ∧ t.syms.Nodup ∧
      t.syms.length = (leafArena s.freq).length ∧ (∀ x ∈ t.paths, x.2.length ≤ 255) ∧
      codeTable s.node s.root = some (writePaths [] t.paths noCodes) := by
  have hne : leafArena s.freq ≠ [] := by rw [← List.length_pos_iff]; omega
  obtain ⟨t, ht, hr, hs, hnd, hlen⟩ := treeSpec h hne
  have hd := t.depth_lt_length
  have h256 := leafArena_length_le s.freq
  refine ⟨t, ht, hr, hs, hnd, hlen, fun x hx => ?_, ?_⟩
  · have := t.length_le_depth x hx; omega
  · obtain ⟨n, hn, hl⟩ := hr.leaf_iff
    have hnl : n.leaf = false := by
      rw [Bool.eq_false_iff, ne_eq, hl]
      rintro ⟨sym, rfl⟩
      simp [HTree.syms] at hlen; omega
    simp only [codeTable, root_ne_nil h hne, if_false, show s.node[s.root.toNat]? = some n from hn, hnl]
    exact visit_rep _ _ _ hr (by show _ < 255 + 1; omega)

/-- The code table of a single-leaf tree (R87). -/
theorem codeTable_single {s : State} (h : s.TreeCurrent) (h1 : (leafArena s.freq).length = 1) :
    ∃ sym, (∀ other, s.freqAt other ≠ 0 ↔ other = sym) ∧ (∃ n, s.nodeAt? s.root = some n ∧ n.leaf = true ∧ n.sym = sym) ∧
      codeTable s.node s.root = some (noCodes.set sym.toNat ⟨1, 0⟩ sym.isLt) := by
  have hne : leafArena s.freq ≠ [] := by rw [← List.length_pos_iff]; omega
  obtain ⟨t, ht, hr, hs, -, hlen⟩ := treeSpec h hne
  obtain ⟨sym, rfl⟩ := HTree.exists_leaf_of_length (hlen.trans h1)
  obtain ⟨n, hn, hl, rfl⟩ := hr
  refine ⟨n.sym, fun other => ?_, ⟨n, hn, hl, rfl⟩, ?_⟩
  · rw [← hs other]; simp [HTree.syms]
  · simp [codeTable, root_ne_nil h hne, show s.node[s.root.toNat]? = some n from hn, hl]

/-- The code table of the empty tree. -/
theorem codeTable_empty {s : State} (h : s.TreeCurrent) (h0 : leafArena s.freq = []) :
    codeTable s.node s.root = some noCodes := by
  have : s.root = Config.nil := by rw [h.2.2.1, buildArena_nil h0]; rfl
  simp [codeTable, this]

/-- GENCODES always finds a table in a state with a current tree: no walk leaves the arena or goes too deep. -/
theorem codeTable_isSome {s : State} (h : s.TreeCurrent) : ∃ tbl, codeTable s.node s.root = some tbl := by
  rcases Nat.lt_trichotomy (leafArena s.freq).length 1 with h0 | h1 | h2
  · exact ⟨_, codeTable_empty h (List.length_eq_zero_iff.1 (by omega))⟩
  · obtain ⟨sym, -, -, ht⟩ := codeTable_single h h1
    exact ⟨_, ht⟩
  · obtain ⟨t, -, -, -, -, -, -, ht⟩ := codeTable_paths h h2
    exact ⟨_, ht⟩

/-- The codes of a good state with at least two leaves. -/
theorem codesSpec {s : State} (h : s.TreeCurrent) (hc : s.CodesCurrent) (h2 : 2 ≤ (leafArena s.freq).length) :
    ∃ t, CodesSpec s t ∧ t.syms.length = (leafArena s.freq).length := by
  obtain ⟨t, -, hr, hs, hnd, hlen, hshort, htbl⟩ := codeTable_paths h h2
  have e : s.code = writePaths [] t.paths noCodes := Option.some.inj (hc.symm.trans htbl)
  refine ⟨t, ⟨hr, hs, hnd, hshort, fun x hx => ?_, fun sym hsym => ?_⟩, hlen⟩
  · simp only [State.codeAt, e]
    exact writePaths_path (by rw [t.map_fst_paths]; exact hnd) hx
  · simp only [State.codeAt, e]
    rw [writePaths_other (by rw [t.map_fst_paths]; exact hsym), noCodes_get]

end Sys2Proof.Laws
end

