-- ==== Sys2Proof/Laws/State.lean ====
section
/-! SUPPORT. One lemma per field per named update of the state, true by rfl, so that no proof unfolds a record update.
(Made by a script: for each update the fields it writes, then the fields it leaves.) -/

namespace Sys2Proof.Machine

/-! ### FREQ[sym] <- cnt -/

@[simp] theorem setFreq_resp (s : State) (sym : Byte) (cnt : Count) : (s.setFreq sym cnt).resp = s.resp := rfl
@[simp] theorem setFreq_err (s : State) (sym : Byte) (cnt : Count) : (s.setFreq sym cnt).err = s.err := rfl
@[simp] theorem setFreq_treeValid (s : State) (sym : Byte) (cnt : Count) : (s.setFreq sym cnt).treeValid = s.treeValid := rfl
@[simp] theorem setFreq_codesValid (s : State) (sym : Byte) (cnt : Count) : (s.setFreq sym cnt).codesValid = s.codesValid := rfl
@[simp] theorem setFreq_empty (s : State) (sym : Byte) (cnt : Count) : (s.setFreq sym cnt).empty = s.empty := rfl
@[simp] theorem setFreq_single (s : State) (sym : Byte) (cnt : Count) : (s.setFreq sym cnt).single = s.single := rfl
@[simp] theorem setFreq_packOpen (s : State) (sym : Byte) (cnt : Count) : (s.setFreq sym cnt).packOpen = s.packOpen := rfl
@[simp] theorem setFreq_unpackOpen (s : State) (sym : Byte) (cnt : Count) : (s.setFreq sym cnt).unpackOpen = s.unpackOpen := rfl
@[simp] theorem setFreq_uLast (s : State) (sym : Byte) (cnt : Count) : (s.setFreq sym cnt).uLast = s.uLast := rfl
@[simp] theorem setFreq_errCode (s : State) (sym : Byte) (cnt : Count) : (s.setFreq sym cnt).errCode = s.errCode := rfl
@[simp] theorem setFreq_errCmd (s : State) (sym : Byte) (cnt : Count) : (s.setFreq sym cnt).errCmd = s.errCmd := rfl
@[simp] theorem setFreq_errInfo (s : State) (sym : Byte) (cnt : Count) : (s.setFreq sym cnt).errInfo = s.errInfo := rfl
@[simp] theorem setFreq_freq (s : State) (sym : Byte) (cnt : Count) : (s.setFreq sym cnt).freq = s.freq.set sym.toNat cnt sym.isLt := rfl
@[simp] theorem setFreq_node (s : State) (sym : Byte) (cnt : Count) : (s.setFreq sym cnt).node = s.node := rfl
@[simp] theorem setFreq_root (s : State) (sym : Byte) (cnt : Count) : (s.setFreq sym cnt).root = s.root := rfl
@[simp] theorem setFreq_nodeCnt (s : State) (sym : Byte) (cnt : Count) : (s.setFreq sym cnt).nodeCnt = s.nodeCnt := rfl
@[simp] theorem setFreq_leafCnt (s : State) (sym : Byte) (cnt : Count) : (s.setFreq sym cnt).leafCnt = s.leafCnt := rfl
@[simp] theorem setFreq_code (s : State) (sym : Byte) (cnt : Count) : (s.setFreq sym cnt).code = s.code := rfl
@[simp] theorem setFreq_acc (s : State) (sym : Byte) (cnt : Count) : (s.setFreq sym cnt).acc = s.acc := rfl
@[simp] theorem setFreq_nacc (s : State) (sym : Byte) (cnt : Count) : (s.setFreq sym cnt).nacc = s.nacc := rfl
@[simp] theorem setFreq_pBytes (s : State) (sym : Byte) (cnt : Count) : (s.setFreq sym cnt).pBytes = s.pBytes := rfl
@[simp] theorem setFreq_pBits (s : State) (sym : Byte) (cnt : Count) : (s.setFreq sym cnt).pBits = s.pBits := rfl
@[simp] theorem setFreq_pSyms (s : State) (sym : Byte) (cnt : Count) : (s.setFreq sym cnt).pSyms = s.pSyms := rfl
@[simp] theorem setFreq_pPad (s : State) (sym : Byte) (cnt : Count) : (s.setFreq sym cnt).pPad = s.pPad := rfl
@[simp] theorem setFreq_uPad (s : State) (sym : Byte) (cnt : Count) : (s.setFreq sym cnt).uPad = s.uPad := rfl
@[simp] theorem setFreq_uRem (s : State) (sym : Byte) (cnt : Count) : (s.setFreq sym cnt).uRem = s.uRem := rfl
@[simp] theorem setFreq_uNode (s : State) (sym : Byte) (cnt : Count) : (s.setFreq sym cnt).uNode = s.uNode := rfl
@[simp] theorem setFreq_uUsed (s : State) (sym : Byte) (cnt : Count) : (s.setFreq sym cnt).uUsed = s.uUsed := rfl
@[simp] theorem setFreq_uFed (s : State) (sym : Byte) (cnt : Count) : (s.setFreq sym cnt).uFed = s.uFed := rfl
@[simp] theorem setFreq_uSyms (s : State) (sym : Byte) (cnt : Count) : (s.setFreq sym cnt).uSyms = s.uSyms := rfl
@[simp] theorem setFreq_outq (s : State) (sym : Byte) (cnt : Count) : (s.setFreq sym cnt).outq = s.outq := rfl
@[simp] theorem setFreq_executing (s : State) (sym : Byte) (cnt : Count) : (s.setFreq sym cnt).executing = s.executing := rfl
@[simp] theorem setFreq_done (s : State) (sym : Byte) (cnt : Count) : (s.setFreq sym cnt).done = s.done := rfl
@[simp] theorem setFreq_inbox (s : State) (sym : Byte) (cnt : Count) : (s.setFreq sym cnt).inbox = s.inbox := rfl
@[simp] theorem setFreq_outDepth (s : State) (sym : Byte) (cnt : Count) : (s.setFreq sym cnt).outDepth = s.outDepth := rfl

/-! ### every count 0 -/

@[simp] theorem clearFreq_resp (s : State) : s.clearFreq.resp = s.resp := rfl
@[simp] theorem clearFreq_err (s : State) : s.clearFreq.err = s.err := rfl
@[simp] theorem clearFreq_treeValid (s : State) : s.clearFreq.treeValid = s.treeValid := rfl
@[simp] theorem clearFreq_codesValid (s : State) : s.clearFreq.codesValid = s.codesValid := rfl
@[simp] theorem clearFreq_empty (s : State) : s.clearFreq.empty = s.empty := rfl
@[simp] theorem clearFreq_single (s : State) : s.clearFreq.single = s.single := rfl
@[simp] theorem clearFreq_packOpen (s : State) : s.clearFreq.packOpen = s.packOpen := rfl
@[simp] theorem clearFreq_unpackOpen (s : State) : s.clearFreq.unpackOpen = s.unpackOpen := rfl
@[simp] theorem clearFreq_uLast (s : State) : s.clearFreq.uLast = s.uLast := rfl
@[simp] theorem clearFreq_errCode (s : State) : s.clearFreq.errCode = s.errCode := rfl
@[simp] theorem clearFreq_errCmd (s : State) : s.clearFreq.errCmd = s.errCmd := rfl
@[simp] theorem clearFreq_errInfo (s : State) : s.clearFreq.errInfo = s.errInfo := rfl
@[simp] theorem clearFreq_freq (s : State) : s.clearFreq.freq = Vector.replicate 256 0 := rfl
@[simp] theorem clearFreq_node (s : State) : s.clearFreq.node = s.node := rfl
@[simp] theorem clearFreq_root (s : State) : s.clearFreq.root = s.root := rfl
@[simp] theorem clearFreq_nodeCnt (s : State) : s.clearFreq.nodeCnt = s.nodeCnt := rfl
@[simp] theorem clearFreq_leafCnt (s : State) : s.clearFreq.leafCnt = s.leafCnt := rfl
@[simp] theorem clearFreq_code (s : State) : s.clearFreq.code = s.code := rfl
@[simp] theorem clearFreq_acc (s : State) : s.clearFreq.acc = s.acc := rfl
@[simp] theorem clearFreq_nacc (s : State) : s.clearFreq.nacc = s.nacc := rfl
@[simp] theorem clearFreq_pBytes (s : State) : s.clearFreq.pBytes = s.pBytes := rfl
@[simp] theorem clearFreq_pBits (s : State) : s.clearFreq.pBits = s.pBits := rfl
@[simp] theorem clearFreq_pSyms (s : State) : s.clearFreq.pSyms = s.pSyms := rfl
@[simp] theorem clearFreq_pPad (s : State) : s.clearFreq.pPad = s.pPad := rfl
@[simp] theorem clearFreq_uPad (s : State) : s.clearFreq.uPad = s.uPad := rfl
@[simp] theorem clearFreq_uRem (s : State) : s.clearFreq.uRem = s.uRem := rfl
@[simp] theorem clearFreq_uNode (s : State) : s.clearFreq.uNode = s.uNode := rfl
@[simp] theorem clearFreq_uUsed (s : State) : s.clearFreq.uUsed = s.uUsed := rfl
@[simp] theorem clearFreq_uFed (s : State) : s.clearFreq.uFed = s.uFed := rfl
@[simp] theorem clearFreq_uSyms (s : State) : s.clearFreq.uSyms = s.uSyms := rfl
@[simp] theorem clearFreq_outq (s : State) : s.clearFreq.outq = s.outq := rfl
@[simp] theorem clearFreq_executing (s : State) : s.clearFreq.executing = s.executing := rfl
@[simp] theorem clearFreq_done (s : State) : s.clearFreq.done = s.done := rfl
@[simp] theorem clearFreq_inbox (s : State) : s.clearFreq.inbox = s.inbox := rfl
@[simp] theorem clearFreq_outDepth (s : State) : s.clearFreq.outDepth = s.outDepth := rfl

/-! ### the tree flags cleared -/

@[simp] theorem invalidate_resp (s : State) : s.invalidate.resp = s.resp := rfl
@[simp] theorem invalidate_err (s : State) : s.invalidate.err = s.err := rfl
@[simp] theorem invalidate_treeValid (s : State) : s.invalidate.treeValid = false := rfl
@[simp] theorem invalidate_codesValid (s : State) : s.invalidate.codesValid = false := rfl
@[simp] theorem invalidate_empty (s : State) : s.invalidate.empty = false := rfl
@[simp] theorem invalidate_single (s : State) : s.invalidate.single = false := rfl
@[simp] theorem invalidate_packOpen (s : State) : s.invalidate.packOpen = s.packOpen := rfl
@[simp] theorem invalidate_unpackOpen (s : State) : s.invalidate.unpackOpen = s.unpackOpen := rfl
@[simp] theorem invalidate_uLast (s : State) : s.invalidate.uLast = s.uLast := rfl
@[simp] theorem invalidate_errCode (s : State) : s.invalidate.errCode = s.errCode := rfl
@[simp] theorem invalidate_errCmd (s : State) : s.invalidate.errCmd = s.errCmd := rfl
@[simp] theorem invalidate_errInfo (s : State) : s.invalidate.errInfo = s.errInfo := rfl
@[simp] theorem invalidate_freq (s : State) : s.invalidate.freq = s.freq := rfl
@[simp] theorem invalidate_node (s : State) : s.invalidate.node = s.node := rfl
@[simp] theorem invalidate_root (s : State) : s.invalidate.root = s.root := rfl
@[simp] theorem invalidate_nodeCnt (s : State) : s.invalidate.nodeCnt = s.nodeCnt := rfl
@[simp] theorem invalidate_leafCnt (s : State) : s.invalidate.leafCnt = s.leafCnt := rfl
@[simp] theorem invalidate_code (s : State) : s.invalidate.code = s.code := rfl
@[simp] theorem invalidate_acc (s : State) : s.invalidate.acc = s.acc := rfl
@[simp] theorem invalidate_nacc (s : State) : s.invalidate.nacc = s.nacc := rfl
@[simp] theorem invalidate_pBytes (s : State) : s.invalidate.pBytes = s.pBytes := rfl
@[simp] theorem invalidate_pBits (s : State) : s.invalidate.pBits = s.pBits := rfl
@[simp] theorem invalidate_pSyms (s : State) : s.invalidate.pSyms = s.pSyms := rfl
@[simp] theorem invalidate_pPad (s : State) : s.invalidate.pPad = s.pPad := rfl
@[simp] theorem invalidate_uPad (s : State) : s.invalidate.uPad = s.uPad := rfl
@[simp] theorem invalidate_uRem (s : State) : s.invalidate.uRem = s.uRem := rfl
@[simp] theorem invalidate_uNode (s : State) : s.invalidate.uNode = s.uNode := rfl
@[simp] theorem invalidate_uUsed (s : State) : s.invalidate.uUsed = s.uUsed := rfl
@[simp] theorem invalidate_uFed (s : State) : s.invalidate.uFed = s.uFed := rfl
@[simp] theorem invalidate_uSyms (s : State) : s.invalidate.uSyms = s.uSyms := rfl
@[simp] theorem invalidate_outq (s : State) : s.invalidate.outq = s.outq := rfl
@[simp] theorem invalidate_executing (s : State) : s.invalidate.executing = s.executing := rfl
@[simp] theorem invalidate_done (s : State) : s.invalidate.done = s.done := rfl
@[simp] theorem invalidate_inbox (s : State) : s.invalidate.inbox = s.inbox := rfl
@[simp] theorem invalidate_outDepth (s : State) : s.invalidate.outDepth = s.outDepth := rfl

/-! ### BUILD's flags -/

@[simp] theorem treeFlags_resp (s : State) (n : Nat) : (s.treeFlags n).resp = s.resp := rfl
@[simp] theorem treeFlags_err (s : State) (n : Nat) : (s.treeFlags n).err = s.err := rfl
@[simp] theorem treeFlags_treeValid (s : State) (n : Nat) : (s.treeFlags n).treeValid = true := rfl
@[simp] theorem treeFlags_codesValid (s : State) (n : Nat) : (s.treeFlags n).codesValid = false := rfl
@[simp] theorem treeFlags_empty (s : State) (n : Nat) : (s.treeFlags n).empty = (n == 0) := rfl
@[simp] theorem treeFlags_single (s : State) (n : Nat) : (s.treeFlags n).single = (n == 1) := rfl
@[simp] theorem treeFlags_packOpen (s : State) (n : Nat) : (s.treeFlags n).packOpen = s.packOpen := rfl
@[simp] theorem treeFlags_unpackOpen (s : State) (n : Nat) : (s.treeFlags n).unpackOpen = s.unpackOpen := rfl
@[simp] theorem treeFlags_uLast (s : State) (n : Nat) : (s.treeFlags n).uLast = s.uLast := rfl
@[simp] theorem treeFlags_errCode (s : State) (n : Nat) : (s.treeFlags n).errCode = s.errCode := rfl
@[simp] theorem treeFlags_errCmd (s : State) (n : Nat) : (s.treeFlags n).errCmd = s.errCmd := rfl
@[simp] theorem treeFlags_errInfo (s : State) (n : Nat) : (s.treeFlags n).errInfo = s.errInfo := rfl
@[simp] theorem treeFlags_freq (s : State) (n : Nat) : (s.treeFlags n).freq = s.freq := rfl
@[simp] theorem treeFlags_node (s : State) (n : Nat) : (s.treeFlags n).node = s.node := rfl
@[simp] theorem treeFlags_root (s : State) (n : Nat) : (s.treeFlags n).root = s.root := rfl
@[simp] theorem treeFlags_nodeCnt (s : State) (n : Nat) : (s.treeFlags n).nodeCnt = s.nodeCnt := rfl
@[simp] theorem treeFlags_leafCnt (s : State) (n : Nat) : (s.treeFlags n).leafCnt = s.leafCnt := rfl
@[simp] theorem treeFlags_code (s : State) (n : Nat) : (s.treeFlags n).code = s.code := rfl
@[simp] theorem treeFlags_acc (s : State) (n : Nat) : (s.treeFlags n).acc = s.acc := rfl
@[simp] theorem treeFlags_nacc (s : State) (n : Nat) : (s.treeFlags n).nacc = s.nacc := rfl
@[simp] theorem treeFlags_pBytes (s : State) (n : Nat) : (s.treeFlags n).pBytes = s.pBytes := rfl
@[simp] theorem treeFlags_pBits (s : State) (n : Nat) : (s.treeFlags n).pBits = s.pBits := rfl
@[simp] theorem treeFlags_pSyms (s : State) (n : Nat) : (s.treeFlags n).pSyms = s.pSyms := rfl
@[simp] theorem treeFlags_pPad (s : State) (n : Nat) : (s.treeFlags n).pPad = s.pPad := rfl
@[simp] theorem treeFlags_uPad (s : State) (n : Nat) : (s.treeFlags n).uPad = s.uPad := rfl
@[simp] theorem treeFlags_uRem (s : State) (n : Nat) : (s.treeFlags n).uRem = s.uRem := rfl
@[simp] theorem treeFlags_uNode (s : State) (n : Nat) : (s.treeFlags n).uNode = s.uNode := rfl
@[simp] theorem treeFlags_uUsed (s : State) (n : Nat) : (s.treeFlags n).uUsed = s.uUsed := rfl
@[simp] theorem treeFlags_uFed (s : State) (n : Nat) : (s.treeFlags n).uFed = s.uFed := rfl
@[simp] theorem treeFlags_uSyms (s : State) (n : Nat) : (s.treeFlags n).uSyms = s.uSyms := rfl
@[simp] theorem treeFlags_outq (s : State) (n : Nat) : (s.treeFlags n).outq = s.outq := rfl
@[simp] theorem treeFlags_executing (s : State) (n : Nat) : (s.treeFlags n).executing = s.executing := rfl
@[simp] theorem treeFlags_done (s : State) (n : Nat) : (s.treeFlags n).done = s.done := rfl
@[simp] theorem treeFlags_inbox (s : State) (n : Nat) : (s.treeFlags n).inbox = s.inbox := rfl
@[simp] theorem treeFlags_outDepth (s : State) (n : Nat) : (s.treeFlags n).outDepth = s.outDepth := rfl

/-! ### BUILD's tree -/

@[simp] theorem withTree_resp (s : State) : s.withTree.resp = s.resp := rfl
@[simp] theorem withTree_err (s : State) : s.withTree.err = s.err := rfl
@[simp] theorem withTree_treeValid (s : State) : s.withTree.treeValid = true := rfl
@[simp] theorem withTree_codesValid (s : State) : s.withTree.codesValid = false := rfl
@[simp] theorem withTree_empty (s : State) : s.withTree.empty = ((leafArena s.freq).length == 0) := rfl
@[simp] theorem withTree_single (s : State) : s.withTree.single = ((leafArena s.freq).length == 1) := rfl
@[simp] theorem withTree_packOpen (s : State) : s.withTree.packOpen = s.packOpen := rfl
@[simp] theorem withTree_unpackOpen (s : State) : s.withTree.unpackOpen = s.unpackOpen := rfl
@[simp] theorem withTree_uLast (s : State) : s.withTree.uLast = s.uLast := rfl
@[simp] theorem withTree_errCode (s : State) : s.withTree.errCode = s.errCode := rfl
@[simp] theorem withTree_errCmd (s : State) : s.withTree.errCmd = s.errCmd := rfl
@[simp] theorem withTree_errInfo (s : State) : s.withTree.errInfo = s.errInfo := rfl
@[simp] theorem withTree_freq (s : State) : s.withTree.freq = s.freq := rfl
@[simp] theorem withTree_node (s : State) : s.withTree.node = overlay (buildArena s.freq) s.node := rfl
@[simp] theorem withTree_root (s : State) : s.withTree.root = rootOf (buildArena s.freq) := rfl
@[simp] theorem withTree_nodeCnt (s : State) : s.withTree.nodeCnt = BitVec.ofNat 10 (buildArena s.freq).length := rfl
@[simp] theorem withTree_leafCnt (s : State) : s.withTree.leafCnt = BitVec.ofNat 9 (leafArena s.freq).length := rfl
@[simp] theorem withTree_code (s : State) : s.withTree.code = s.code := rfl
@[simp] theorem withTree_acc (s : State) : s.withTree.acc = s.acc := rfl
@[simp] theorem withTree_nacc (s : State) : s.withTree.nacc = s.nacc := rfl
@[simp] theorem withTree_pBytes (s : State) : s.withTree.pBytes = s.pBytes := rfl
@[simp] theorem withTree_pBits (s : State) : s.withTree.pBits = s.pBits := rfl
@[simp] theorem withTree_pSyms (s : State) : s.withTree.pSyms = s.pSyms := rfl
@[simp] theorem withTree_pPad (s : State) : s.withTree.pPad = s.pPad := rfl
@[simp] theorem withTree_uPad (s : State) : s.withTree.uPad = s.uPad := rfl
@[simp] theorem withTree_uRem (s : State) : s.withTree.uRem = s.uRem := rfl
@[simp] theorem withTree_uNode (s : State) : s.withTree.uNode = s.uNode := rfl
@[simp] theorem withTree_uUsed (s : State) : s.withTree.uUsed = s.uUsed := rfl
@[simp] theorem withTree_uFed (s : State) : s.withTree.uFed = s.uFed := rfl
@[simp] theorem withTree_uSyms (s : State) : s.withTree.uSyms = s.uSyms := rfl
@[simp] theorem withTree_outq (s : State) : s.withTree.outq = s.outq := rfl
@[simp] theorem withTree_executing (s : State) : s.withTree.executing = s.executing := rfl
@[simp] theorem withTree_done (s : State) : s.withTree.done = s.done := rfl
@[simp] theorem withTree_inbox (s : State) : s.withTree.inbox = s.inbox := rfl
@[simp] theorem withTree_outDepth (s : State) : s.withTree.outDepth = s.outDepth := rfl

/-! ### a byte emitted -/

@[simp] theorem emit_resp (s : State) (b : Byte) : (s.emit b).resp = s.resp := rfl
@[simp] theorem emit_err (s : State) (b : Byte) : (s.emit b).err = s.err := rfl
@[simp] theorem emit_treeValid (s : State) (b : Byte) : (s.emit b).treeValid = s.treeValid := rfl
@[simp] theorem emit_codesValid (s : State) (b : Byte) : (s.emit b).codesValid = s.codesValid := rfl
@[simp] theorem emit_empty (s : State) (b : Byte) : (s.emit b).empty = s.empty := rfl
@[simp] theorem emit_single (s : State) (b : Byte) : (s.emit b).single = s.single := rfl
@[simp] theorem emit_packOpen (s : State) (b : Byte) : (s.emit b).packOpen = s.packOpen := rfl
@[simp] theorem emit_unpackOpen (s : State) (b : Byte) : (s.emit b).unpackOpen = s.unpackOpen := rfl
@[simp] theorem emit_uLast (s : State) (b : Byte) : (s.emit b).uLast = s.uLast := rfl
@[simp] theorem emit_errCode (s : State) (b : Byte) : (s.emit b).errCode = s.errCode := rfl
@[simp] theorem emit_errCmd (s : State) (b : Byte) : (s.emit b).errCmd = s.errCmd := rfl
@[simp] theorem emit_errInfo (s : State) (b : Byte) : (s.emit b).errInfo = s.errInfo := rfl
@[simp] theorem emit_freq (s : State) (b : Byte) : (s.emit b).freq = s.freq := rfl
@[simp] theorem emit_node (s : State) (b : Byte) : (s.emit b).node = s.node := rfl
@[simp] theorem emit_root (s : State) (b : Byte) : (s.emit b).root = s.root := rfl
@[simp] theorem emit_nodeCnt (s : State) (b : Byte) : (s.emit b).nodeCnt = s.nodeCnt := rfl
@[simp] theorem emit_leafCnt (s : State) (b : Byte) : (s.emit b).leafCnt = s.leafCnt := rfl
@[simp] theorem emit_code (s : State) (b : Byte) : (s.emit b).code = s.code := rfl
@[simp] theorem emit_acc (s : State) (b : Byte) : (s.emit b).acc = s.acc := rfl
@[simp] theorem emit_nacc (s : State) (b : Byte) : (s.emit b).nacc = s.nacc := rfl
@[simp] theorem emit_pBytes (s : State) (b : Byte) : (s.emit b).pBytes = s.pBytes := rfl
@[simp] theorem emit_pBits (s : State) (b : Byte) : (s.emit b).pBits = s.pBits := rfl
@[simp] theorem emit_pSyms (s : State) (b : Byte) : (s.emit b).pSyms = s.pSyms := rfl
@[simp] theorem emit_pPad (s : State) (b : Byte) : (s.emit b).pPad = s.pPad := rfl
@[simp] theorem emit_uPad (s : State) (b : Byte) : (s.emit b).uPad = s.uPad := rfl
@[simp] theorem emit_uRem (s : State) (b : Byte) : (s.emit b).uRem = s.uRem := rfl
@[simp] theorem emit_uNode (s : State) (b : Byte) : (s.emit b).uNode = s.uNode := rfl
@[simp] theorem emit_uUsed (s : State) (b : Byte) : (s.emit b).uUsed = s.uUsed := rfl
@[simp] theorem emit_uFed (s : State) (b : Byte) : (s.emit b).uFed = s.uFed := rfl
@[simp] theorem emit_uSyms (s : State) (b : Byte) : (s.emit b).uSyms = s.uSyms := rfl
@[simp] theorem emit_outq (s : State) (b : Byte) : (s.emit b).outq = s.outq ++ [b] := rfl
@[simp] theorem emit_executing (s : State) (b : Byte) : (s.emit b).executing = s.executing := rfl
@[simp] theorem emit_done (s : State) (b : Byte) : (s.emit b).done = s.done := rfl
@[simp] theorem emit_inbox (s : State) (b : Byte) : (s.emit b).inbox = s.inbox := rfl
@[simp] theorem emit_outDepth (s : State) (b : Byte) : (s.emit b).outDepth = s.outDepth := rfl

/-! ### an error taken -/

@[simp] theorem raise_resp (s : State) (cmd : Word) (e : Err) (info : Word) : (s.raise cmd e info).resp = s.resp := rfl
@[simp] theorem raise_err (s : State) (cmd : Word) (e : Err) (info : Word) : (s.raise cmd e info).err = true := rfl
@[simp] theorem raise_treeValid (s : State) (cmd : Word) (e : Err) (info : Word) : (s.raise cmd e info).treeValid = s.treeValid := rfl
@[simp] theorem raise_codesValid (s : State) (cmd : Word) (e : Err) (info : Word) : (s.raise cmd e info).codesValid = s.codesValid := rfl
@[simp] theorem raise_empty (s : State) (cmd : Word) (e : Err) (info : Word) : (s.raise cmd e info).empty = s.empty := rfl
@[simp] theorem raise_single (s : State) (cmd : Word) (e : Err) (info : Word) : (s.raise cmd e info).single = s.single := rfl
@[simp] theorem raise_packOpen (s : State) (cmd : Word) (e : Err) (info : Word) : (s.raise cmd e info).packOpen = s.packOpen := rfl
@[simp] theorem raise_unpackOpen (s : State) (cmd : Word) (e : Err) (info : Word) : (s.raise cmd e info).unpackOpen = (s.unpackOpen && !e.isDecode) := rfl
@[simp] theorem raise_uLast (s : State) (cmd : Word) (e : Err) (info : Word) : (s.raise cmd e info).uLast = s.uLast := rfl
@[simp] theorem raise_errCode (s : State) (cmd : Word) (e : Err) (info : Word) : (s.raise cmd e info).errCode = e.code := rfl
@[simp] theorem raise_errCmd (s : State) (cmd : Word) (e : Err) (info : Word) : (s.raise cmd e info).errCmd = cmd := rfl
@[simp] theorem raise_errInfo (s : State) (cmd : Word) (e : Err) (info : Word) : (s.raise cmd e info).errInfo = info := rfl
@[simp] theorem raise_freq (s : State) (cmd : Word) (e : Err) (info : Word) : (s.raise cmd e info).freq = s.freq := rfl
@[simp] theorem raise_node (s : State) (cmd : Word) (e : Err) (info : Word) : (s.raise cmd e info).node = s.node := rfl
@[simp] theorem raise_root (s : State) (cmd : Word) (e : Err) (info : Word) : (s.raise cmd e info).root = s.root := rfl
@[simp] theorem raise_nodeCnt (s : State) (cmd : Word) (e : Err) (info : Word) : (s.raise cmd e info).nodeCnt = s.nodeCnt := rfl
@[simp] theorem raise_leafCnt (s : State) (cmd : Word) (e : Err) (info : Word) : (s.raise cmd e info).leafCnt = s.leafCnt := rfl
@[simp] theorem raise_code (s : State) (cmd : Word) (e : Err) (info : Word) : (s.raise cmd e info).code = s.code := rfl
@[simp] theorem raise_acc (s : State) (cmd : Word) (e : Err) (info : Word) : (s.raise cmd e info).acc = s.acc := rfl
@[simp] theorem raise_nacc (s : State) (cmd : Word) (e : Err) (info : Word) : (s.raise cmd e info).nacc = s.nacc := rfl
@[simp] theorem raise_pBytes (s : State) (cmd : Word) (e : Err) (info : Word) : (s.raise cmd e info).pBytes = s.pBytes := rfl
@[simp] theorem raise_pBits (s : State) (cmd : Word) (e : Err) (info : Word) : (s.raise cmd e info).pBits = s.pBits := rfl
@[simp] theorem raise_pSyms (s : State) (cmd : Word) (e : Err) (info : Word) : (s.raise cmd e info).pSyms = s.pSyms := rfl
@[simp] theorem raise_pPad (s : State) (cmd : Word) (e : Err) (info : Word) : (s.raise cmd e info).pPad = s.pPad := rfl
@[simp] theorem raise_uPad (s : State) (cmd : Word) (e : Err) (info : Word) : (s.raise cmd e info).uPad = s.uPad := rfl
@[simp] theorem raise_uRem (s : State) (cmd : Word) (e : Err) (info : Word) : (s.raise cmd e info).uRem = s.uRem := rfl
@[simp] theorem raise_uNode (s : State) (cmd : Word) (e : Err) (info : Word) : (s.raise cmd e info).uNode = s.uNode := rfl
@[simp] theorem raise_uUsed (s : State) (cmd : Word) (e : Err) (info : Word) : (s.raise cmd e info).uUsed = s.uUsed := rfl
@[simp] theorem raise_uFed (s : State) (cmd : Word) (e : Err) (info : Word) : (s.raise cmd e info).uFed = s.uFed := rfl
@[simp] theorem raise_uSyms (s : State) (cmd : Word) (e : Err) (info : Word) : (s.raise cmd e info).uSyms = s.uSyms := rfl
@[simp] theorem raise_outq (s : State) (cmd : Word) (e : Err) (info : Word) : (s.raise cmd e info).outq = s.outq := rfl
@[simp] theorem raise_executing (s : State) (cmd : Word) (e : Err) (info : Word) : (s.raise cmd e info).executing = s.executing := rfl
@[simp] theorem raise_done (s : State) (cmd : Word) (e : Err) (info : Word) : (s.raise cmd e info).done = s.done := rfl
@[simp] theorem raise_inbox (s : State) (cmd : Word) (e : Err) (info : Word) : (s.raise cmd e info).inbox = s.inbox := rfl
@[simp] theorem raise_outDepth (s : State) (cmd : Word) (e : Err) (info : Word) : (s.raise cmd e info).outDepth = s.outDepth := rfl

/-! ### the error cleared -/

@[simp] theorem clearErr_resp (s : State) : s.clearErr.resp = s.resp := rfl
@[simp] theorem clearErr_err (s : State) : s.clearErr.err = false := rfl
@[simp] theorem clearErr_treeValid (s : State) : s.clearErr.treeValid = s.treeValid := rfl
@[simp] theorem clearErr_codesValid (s : State) : s.clearErr.codesValid = s.codesValid := rfl
@[simp] theorem clearErr_empty (s : State) : s.clearErr.empty = s.empty := rfl
@[simp] theorem clearErr_single (s : State) : s.clearErr.single = s.single := rfl
@[simp] theorem clearErr_packOpen (s : State) : s.clearErr.packOpen = s.packOpen := rfl
@[simp] theorem clearErr_unpackOpen (s : State) : s.clearErr.unpackOpen = s.unpackOpen := rfl
@[simp] theorem clearErr_uLast (s : State) : s.clearErr.uLast = s.uLast := rfl
@[simp] theorem clearErr_errCode (s : State) : s.clearErr.errCode = 0 := rfl
@[simp] theorem clearErr_errCmd (s : State) : s.clearErr.errCmd = s.errCmd := rfl
@[simp] theorem clearErr_errInfo (s : State) : s.clearErr.errInfo = s.errInfo := rfl
@[simp] theorem clearErr_freq (s : State) : s.clearErr.freq = s.freq := rfl
@[simp] theorem clearErr_node (s : State) : s.clearErr.node = s.node := rfl
@[simp] theorem clearErr_root (s : State) : s.clearErr.root = s.root := rfl
@[simp] theorem clearErr_nodeCnt (s : State) : s.clearErr.nodeCnt = s.nodeCnt := rfl
@[simp] theorem clearErr_leafCnt (s : State) : s.clearErr.leafCnt = s.leafCnt := rfl
@[simp] theorem clearErr_code (s : State) : s.clearErr.code = s.code := rfl
@[simp] theorem clearErr_acc (s : State) : s.clearErr.acc = s.acc := rfl
@[simp] theorem clearErr_nacc (s : State) : s.clearErr.nacc = s.nacc := rfl
@[simp] theorem clearErr_pBytes (s : State) : s.clearErr.pBytes = s.pBytes := rfl
@[simp] theorem clearErr_pBits (s : State) : s.clearErr.pBits = s.pBits := rfl
@[simp] theorem clearErr_pSyms (s : State) : s.clearErr.pSyms = s.pSyms := rfl
@[simp] theorem clearErr_pPad (s : State) : s.clearErr.pPad = s.pPad := rfl
@[simp] theorem clearErr_uPad (s : State) : s.clearErr.uPad = s.uPad := rfl
@[simp] theorem clearErr_uRem (s : State) : s.clearErr.uRem = s.uRem := rfl
@[simp] theorem clearErr_uNode (s : State) : s.clearErr.uNode = s.uNode := rfl
@[simp] theorem clearErr_uUsed (s : State) : s.clearErr.uUsed = s.uUsed := rfl
@[simp] theorem clearErr_uFed (s : State) : s.clearErr.uFed = s.uFed := rfl
@[simp] theorem clearErr_uSyms (s : State) : s.clearErr.uSyms = s.uSyms := rfl
@[simp] theorem clearErr_outq (s : State) : s.clearErr.outq = s.outq := rfl
@[simp] theorem clearErr_executing (s : State) : s.clearErr.executing = s.executing := rfl
@[simp] theorem clearErr_done (s : State) : s.clearErr.done = s.done := rfl
@[simp] theorem clearErr_inbox (s : State) : s.clearErr.inbox = s.inbox := rfl
@[simp] theorem clearErr_outDepth (s : State) : s.clearErr.outDepth = s.outDepth := rfl

/-! ### a symbol decoded -/

@[simp] theorem emitSym_resp (s : State) (b : Byte) : (emitSym s b).resp = s.resp := rfl
@[simp] theorem emitSym_err (s : State) (b : Byte) : (emitSym s b).err = s.err := rfl
@[simp] theorem emitSym_treeValid (s : State) (b : Byte) : (emitSym s b).treeValid = s.treeValid := rfl
@[simp] theorem emitSym_codesValid (s : State) (b : Byte) : (emitSym s b).codesValid = s.codesValid := rfl
@[simp] theorem emitSym_empty (s : State) (b : Byte) : (emitSym s b).empty = s.empty := rfl
@[simp] theorem emitSym_single (s : State) (b : Byte) : (emitSym s b).single = s.single := rfl
@[simp] theorem emitSym_packOpen (s : State) (b : Byte) : (emitSym s b).packOpen = s.packOpen := rfl
@[simp] theorem emitSym_unpackOpen (s : State) (b : Byte) : (emitSym s b).unpackOpen = s.unpackOpen := rfl
@[simp] theorem emitSym_uLast (s : State) (b : Byte) : (emitSym s b).uLast = s.uLast := rfl
@[simp] theorem emitSym_errCode (s : State) (b : Byte) : (emitSym s b).errCode = s.errCode := rfl
@[simp] theorem emitSym_errCmd (s : State) (b : Byte) : (emitSym s b).errCmd = s.errCmd := rfl
@[simp] theorem emitSym_errInfo (s : State) (b : Byte) : (emitSym s b).errInfo = s.errInfo := rfl
@[simp] theorem emitSym_freq (s : State) (b : Byte) : (emitSym s b).freq = s.freq := rfl
@[simp] theorem emitSym_node (s : State) (b : Byte) : (emitSym s b).node = s.node := rfl
@[simp] theorem emitSym_root (s : State) (b : Byte) : (emitSym s b).root = s.root := rfl
@[simp] theorem emitSym_nodeCnt (s : State) (b : Byte) : (emitSym s b).nodeCnt = s.nodeCnt := rfl
@[simp] theorem emitSym_leafCnt (s : State) (b : Byte) : (emitSym s b).leafCnt = s.leafCnt := rfl
@[simp] theorem emitSym_code (s : State) (b : Byte) : (emitSym s b).code = s.code := rfl
@[simp] theorem emitSym_acc (s : State) (b : Byte) : (emitSym s b).acc = s.acc := rfl
@[simp] theorem emitSym_nacc (s : State) (b : Byte) : (emitSym s b).nacc = s.nacc := rfl
@[simp] theorem emitSym_pBytes (s : State) (b : Byte) : (emitSym s b).pBytes = s.pBytes := rfl
@[simp] theorem emitSym_pBits (s : State) (b : Byte) : (emitSym s b).pBits = s.pBits := rfl
@[simp] theorem emitSym_pSyms (s : State) (b : Byte) : (emitSym s b).pSyms = s.pSyms := rfl
@[simp] theorem emitSym_pPad (s : State) (b : Byte) : (emitSym s b).pPad = s.pPad := rfl
@[simp] theorem emitSym_uPad (s : State) (b : Byte) : (emitSym s b).uPad = s.uPad := rfl
@[simp] theorem emitSym_uRem (s : State) (b : Byte) : (emitSym s b).uRem = s.uRem - 1 := rfl
@[simp] theorem emitSym_uNode (s : State) (b : Byte) : (emitSym s b).uNode = s.uNode := rfl
@[simp] theorem emitSym_uUsed (s : State) (b : Byte) : (emitSym s b).uUsed = s.uUsed := rfl
@[simp] theorem emitSym_uFed (s : State) (b : Byte) : (emitSym s b).uFed = s.uFed := rfl
@[simp] theorem emitSym_uSyms (s : State) (b : Byte) : (emitSym s b).uSyms = s.uSyms + 1 := rfl
@[simp] theorem emitSym_outq (s : State) (b : Byte) : (emitSym s b).outq = s.outq ++ [b] := rfl
@[simp] theorem emitSym_executing (s : State) (b : Byte) : (emitSym s b).executing = s.executing := rfl
@[simp] theorem emitSym_done (s : State) (b : Byte) : (emitSym s b).done = s.done := rfl
@[simp] theorem emitSym_inbox (s : State) (b : Byte) : (emitSym s b).inbox = s.inbox := rfl
@[simp] theorem emitSym_outDepth (s : State) (b : Byte) : (emitSym s b).outDepth = s.outDepth := rfl

/-! ### a byte taken by the host -/

@[simp] theorem takeByte_resp (s : State) : (takeByte s).resp = s.resp := rfl
@[simp] theorem takeByte_err (s : State) : (takeByte s).err = s.err := rfl
@[simp] theorem takeByte_treeValid (s : State) : (takeByte s).treeValid = s.treeValid := rfl
@[simp] theorem takeByte_codesValid (s : State) : (takeByte s).codesValid = s.codesValid := rfl
@[simp] theorem takeByte_empty (s : State) : (takeByte s).empty = s.empty := rfl
@[simp] theorem takeByte_single (s : State) : (takeByte s).single = s.single := rfl
@[simp] theorem takeByte_packOpen (s : State) : (takeByte s).packOpen = s.packOpen := rfl
@[simp] theorem takeByte_unpackOpen (s : State) : (takeByte s).unpackOpen = s.unpackOpen := rfl
@[simp] theorem takeByte_uLast (s : State) : (takeByte s).uLast = s.uLast := rfl
@[simp] theorem takeByte_errCode (s : State) : (takeByte s).errCode = s.errCode := rfl
@[simp] theorem takeByte_errCmd (s : State) : (takeByte s).errCmd = s.errCmd := rfl
@[simp] theorem takeByte_errInfo (s : State) : (takeByte s).errInfo = s.errInfo := rfl
@[simp] theorem takeByte_freq (s : State) : (takeByte s).freq = s.freq := rfl
@[simp] theorem takeByte_node (s : State) : (takeByte s).node = s.node := rfl
@[simp] theorem takeByte_root (s : State) : (takeByte s).root = s.root := rfl
@[simp] theorem takeByte_nodeCnt (s : State) : (takeByte s).nodeCnt = s.nodeCnt := rfl
@[simp] theorem takeByte_leafCnt (s : State) : (takeByte s).leafCnt = s.leafCnt := rfl
@[simp] theorem takeByte_code (s : State) : (takeByte s).code = s.code := rfl
@[simp] theorem takeByte_acc (s : State) : (takeByte s).acc = s.acc := rfl
@[simp] theorem takeByte_nacc (s : State) : (takeByte s).nacc = s.nacc := rfl
@[simp] theorem takeByte_pBytes (s : State) : (takeByte s).pBytes = s.pBytes := rfl
@[simp] theorem takeByte_pBits (s : State) : (takeByte s).pBits = s.pBits := rfl
@[simp] theorem takeByte_pSyms (s : State) : (takeByte s).pSyms = s.pSyms := rfl
@[simp] theorem takeByte_pPad (s : State) : (takeByte s).pPad = s.pPad := rfl
@[simp] theorem takeByte_uPad (s : State) : (takeByte s).uPad = s.uPad := rfl
@[simp] theorem takeByte_uRem (s : State) : (takeByte s).uRem = s.uRem := rfl
@[simp] theorem takeByte_uNode (s : State) : (takeByte s).uNode = s.uNode := rfl
@[simp] theorem takeByte_uUsed (s : State) : (takeByte s).uUsed = s.uUsed := rfl
@[simp] theorem takeByte_uFed (s : State) : (takeByte s).uFed = s.uFed := rfl
@[simp] theorem takeByte_uSyms (s : State) : (takeByte s).uSyms = s.uSyms := rfl
@[simp] theorem takeByte_outq (s : State) : (takeByte s).outq = s.outq.tail := rfl
@[simp] theorem takeByte_executing (s : State) : (takeByte s).executing = s.executing := rfl
@[simp] theorem takeByte_done (s : State) : (takeByte s).done = s.done := rfl
@[simp] theorem takeByte_inbox (s : State) : (takeByte s).inbox = s.inbox := rfl
@[simp] theorem takeByte_outDepth (s : State) : (takeByte s).outDepth = s.outDepth := rfl

/-! ### the reset values -/

@[simp] theorem toReset_resp (s : State) : s.toReset.resp = 0 := rfl
@[simp] theorem toReset_err (s : State) : s.toReset.err = false := rfl
@[simp] theorem toReset_treeValid (s : State) : s.toReset.treeValid = false := rfl
@[simp] theorem toReset_codesValid (s : State) : s.toReset.codesValid = false := rfl
@[simp] theorem toReset_empty (s : State) : s.toReset.empty = false := rfl
@[simp] theorem toReset_single (s : State) : s.toReset.single = false := rfl
@[simp] theorem toReset_packOpen (s : State) : s.toReset.packOpen = false := rfl
@[simp] theorem toReset_unpackOpen (s : State) : s.toReset.unpackOpen = false := rfl
@[simp] theorem toReset_uLast (s : State) : s.toReset.uLast = false := rfl
@[simp] theorem toReset_errCode (s : State) : s.toReset.errCode = 0 := rfl
@[simp] theorem toReset_errCmd (s : State) : s.toReset.errCmd = 0 := rfl
@[simp] theorem toReset_errInfo (s : State) : s.toReset.errInfo = 0 := rfl
@[simp] theorem toReset_freq (s : State) : s.toReset.freq = Vector.replicate 256 0 := rfl
@[simp] theorem toReset_node (s : State) : s.toReset.node = s.node := rfl
@[simp] theorem toReset_root (s : State) : s.toReset.root = Config.nil := rfl
@[simp] theorem toReset_nodeCnt (s : State) : s.toReset.nodeCnt = 0 := rfl
@[simp] theorem toReset_leafCnt (s : State) : s.toReset.leafCnt = 0 := rfl
@[simp] theorem toReset_code (s : State) : s.toReset.code = s.code := rfl
@[simp] theorem toReset_acc (s : State) : s.toReset.acc = 0 := rfl
@[simp] theorem toReset_nacc (s : State) : s.toReset.nacc = 0 := rfl
@[simp] theorem toReset_pBytes (s : State) : s.toReset.pBytes = 0 := rfl
@[simp] theorem toReset_pBits (s : State) : s.toReset.pBits = 0 := rfl
@[simp] theorem toReset_pSyms (s : State) : s.toReset.pSyms = 0 := rfl
@[simp] theorem toReset_pPad (s : State) : s.toReset.pPad = 0 := rfl
@[simp] theorem toReset_uPad (s : State) : s.toReset.uPad = 0 := rfl
@[simp] theorem toReset_uRem (s : State) : s.toReset.uRem = 0 := rfl
@[simp] theorem toReset_uNode (s : State) : s.toReset.uNode = Config.nil := rfl
@[simp] theorem toReset_uUsed (s : State) : s.toReset.uUsed = 0 := rfl
@[simp] theorem toReset_uFed (s : State) : s.toReset.uFed = 0 := rfl
@[simp] theorem toReset_uSyms (s : State) : s.toReset.uSyms = 0 := rfl
@[simp] theorem toReset_outq (s : State) : s.toReset.outq = [] := rfl
@[simp] theorem toReset_executing (s : State) : s.toReset.executing = none := rfl
@[simp] theorem toReset_done (s : State) : s.toReset.done = false := rfl
@[simp] theorem toReset_inbox (s : State) : s.toReset.inbox = s.inbox := rfl
@[simp] theorem toReset_outDepth (s : State) : s.toReset.outDepth = s.outDepth := rfl

/-! ### no command ends -/

@[simp] theorem quiet_resp (s : State) : (quiet s).resp = s.resp := rfl
@[simp] theorem quiet_err (s : State) : (quiet s).err = s.err := rfl
@[simp] theorem quiet_treeValid (s : State) : (quiet s).treeValid = s.treeValid := rfl
@[simp] theorem quiet_codesValid (s : State) : (quiet s).codesValid = s.codesValid := rfl
@[simp] theorem quiet_empty (s : State) : (quiet s).empty = s.empty := rfl
@[simp] theorem quiet_single (s : State) : (quiet s).single = s.single := rfl
@[simp] theorem quiet_packOpen (s : State) : (quiet s).packOpen = s.packOpen := rfl
@[simp] theorem quiet_unpackOpen (s : State) : (quiet s).unpackOpen = s.unpackOpen := rfl
@[simp] theorem quiet_uLast (s : State) : (quiet s).uLast = s.uLast := rfl
@[simp] theorem quiet_errCode (s : State) : (quiet s).errCode = s.errCode := rfl
@[simp] theorem quiet_errCmd (s : State) : (quiet s).errCmd = s.errCmd := rfl
@[simp] theorem quiet_errInfo (s : State) : (quiet s).errInfo = s.errInfo := rfl
@[simp] theorem quiet_freq (s : State) : (quiet s).freq = s.freq := rfl
@[simp] theorem quiet_node (s : State) : (quiet s).node = s.node := rfl
@[simp] theorem quiet_root (s : State) : (quiet s).root = s.root := rfl
@[simp] theorem quiet_nodeCnt (s : State) : (quiet s).nodeCnt = s.nodeCnt := rfl
@[simp] theorem quiet_leafCnt (s : State) : (quiet s).leafCnt = s.leafCnt := rfl
@[simp] theorem quiet_code (s : State) : (quiet s).code = s.code := rfl
@[simp] theorem quiet_acc (s : State) : (quiet s).acc = s.acc := rfl
@[simp] theorem quiet_nacc (s : State) : (quiet s).nacc = s.nacc := rfl
@[simp] theorem quiet_pBytes (s : State) : (quiet s).pBytes = s.pBytes := rfl
@[simp] theorem quiet_pBits (s : State) : (quiet s).pBits = s.pBits := rfl
@[simp] theorem quiet_pSyms (s : State) : (quiet s).pSyms = s.pSyms := rfl
@[simp] theorem quiet_pPad (s : State) : (quiet s).pPad = s.pPad := rfl
@[simp] theorem quiet_uPad (s : State) : (quiet s).uPad = s.uPad := rfl
@[simp] theorem quiet_uRem (s : State) : (quiet s).uRem = s.uRem := rfl
@[simp] theorem quiet_uNode (s : State) : (quiet s).uNode = s.uNode := rfl
@[simp] theorem quiet_uUsed (s : State) : (quiet s).uUsed = s.uUsed := rfl
@[simp] theorem quiet_uFed (s : State) : (quiet s).uFed = s.uFed := rfl
@[simp] theorem quiet_uSyms (s : State) : (quiet s).uSyms = s.uSyms := rfl
@[simp] theorem quiet_outq (s : State) : (quiet s).outq = s.outq := rfl
@[simp] theorem quiet_executing (s : State) : (quiet s).executing = s.executing := rfl
@[simp] theorem quiet_done (s : State) : (quiet s).done = false := rfl
@[simp] theorem quiet_inbox (s : State) : (quiet s).inbox = s.inbox := rfl
@[simp] theorem quiet_outDepth (s : State) : (quiet s).outDepth = s.outDepth := rfl

end Sys2Proof.Machine
end

