-- ==== Sys2Proof/Laws/HostPort.lean ====
section
/-! SUPPORT. What a step can do, said once, and the wait of a command for room in OUTQ (20_memory.md R44; 70_reset_and_hazards.md R124,
R131, R133). -/

namespace Sys2Proof.Laws

open Sys2Proof.Machine

@[simp] theorem fits_unbounded (n : Nat) : fits .unbounded n = true := rfl

@[simp] theorem fits_fifo (more n : Nat) : fits (.fifo more) n = true ↔ n ≤ more + 1 := by simp [fits]

/-- Every depth has room for one byte (R6). -/
theorem fits_one (depth : OutDepth) : fits depth 1 = true := by cases depth <;> simp

/-- OUTQ that fits still fits when it gets shorter. -/
theorem fits_mono {depth : OutDepth} {m n : Nat} (h : fits depth n = true) (hmn : m ≤ n) : fits depth m = true := by
  cases depth with
  | unbounded => rfl
  | fifo more => rw [fits_fifo] at *; omega

/-! ## The end of a command -/

theorem finish_of_fits {shown : Shown} {s : State} (h : fits s.outDepth s.outq.length = true) :
    finish shown s = { s with executing := none, done := true } := by
  simp [finish, h]

theorem finish_of_full {shown : Shown} {s : State} (h : fits s.outDepth s.outq.length = false) :
    finish shown s = { s with executing := some shown, done := false } := by
  simp [finish, h]

/-- Whether a command ends or waits, only its progress is written. -/
theorem finish_eq (shown : Shown) (s : State) :
    finish shown s = { s with executing := (finish shown s).executing, done := (finish shown s).done } := by
  unfold finish; split <;> rfl

/-- done comes exactly with cmd_ready, and exactly when OUTQ fits (R133). -/
theorem finish_done (shown : Shown) (s : State) :
    (finish shown s).done = fits s.outDepth s.outq.length ∧
    (finish shown s).cmdReady = fits s.outDepth s.outq.length := by
  cases h : fits s.outDepth s.outq.length <;> simp [finish, h, State.cmdReady]

/-- While a command waits, the ports show what they showed before it (R133). -/
theorem finish_shown {shown : Shown} {s : State} (h : (finish shown s).done = false) :
    (finish shown s).respData = shown.resp ∧ (finish shown s).errO = shown.err := by
  rw [(finish_done shown s).1] at h
  rw [finish_of_full h]; exact ⟨rfl, rfl⟩

theorem settled_next {shown : Shown} {r : Result} {t : State} :
    settled shown r = .next t ↔ ∃ u, r = .next u ∧ t = finish shown u := by
  cases r <;> simp [settled, eq_comm]

theorem settled_fault {shown : Shown} {r : Result} {f : Fault} : settled shown r = .fault f ↔ r = .fault f := by
  cases r <;> simp [settled]

/-! ## The wait -/

/-- Everything one step of the wait can do: the host's commands before its next act at another port stay; a drain, a reset, or
neither. -/
theorem waitStep_cases (shown : Shown) (s : State) (inbox : List HostEvent) : ∀ held : List HostEvent,
    (∃ before later, inbox = before ++ .drain :: later ∧ (∀ ev ∈ before, ∃ w, ev = .command w) ∧
      waitStep shown s held inbox = finish shown (takeByte { s with inbox := held ++ before ++ later })) ∨
    (∃ before later, inbox = before ++ .rst :: later ∧ (∀ ev ∈ before, ∃ w, ev = .command w) ∧
      waitStep shown s held inbox = resetInput { s with inbox := held ++ before ++ later }) ∨
    ((∀ ev ∈ inbox, ∃ w, ev = .command w) ∧ waitStep shown s held inbox = quiet s) := by
  induction inbox with
  | nil => intro held; exact .inr (.inr ⟨by simp, rfl⟩)
  | cons ev rest ih =>
    intro held
    cases ev with
    | drain => exact .inl ⟨[], rest, rfl, by simp, by simp [waitStep]⟩
    | rst => exact .inr (.inl ⟨[], rest, rfl, by simp, by simp [waitStep]⟩)
    | command w =>
      rcases ih (held ++ [.command w]) with ⟨before, later, rfl, hb, h⟩ | ⟨before, later, rfl, hb, h⟩ | ⟨hb, h⟩
      · exact .inl ⟨.command w :: before, later, rfl, by simpa using hb, by rw [waitStep, h]; simp⟩
      · exact .inr (.inl ⟨.command w :: before, later, rfl, by simpa using hb, by rw [waitStep, h]; simp⟩)
      · exact .inr (.inr ⟨by simpa using hb, by rw [waitStep, h]⟩)

/-- A drain behind command words is the waiting block's next event. -/
theorem waitStep_drain (shown : Shown) (s : State) {before later : List HostEvent} (hb : ∀ ev ∈ before, ∃ w, ev = .command w) :
    ∀ held, waitStep shown s held (before ++ .drain :: later) =
      finish shown (takeByte { s with inbox := held ++ before ++ later }) := by
  induction before with
  | nil => intro held; simp [waitStep]
  | cons ev before ih =>
    intro held
    obtain ⟨w, rfl⟩ := hb ev (by simp)
    rw [List.cons_append, waitStep, ih (fun ev h => hb ev (by simp [h]))]
    simp

/-- So is a reset. -/
theorem waitStep_rst (shown : Shown) (s : State) {before later : List HostEvent} (hb : ∀ ev ∈ before, ∃ w, ev = .command w) :
    ∀ held, waitStep shown s held (before ++ .rst :: later) = resetInput { s with inbox := held ++ before ++ later } := by
  induction before with
  | nil => intro held; simp [waitStep]
  | cons ev before ih =>
    intro held
    obtain ⟨w, rfl⟩ := hb ev (by simp)
    rw [List.cons_append, waitStep, ih (fun ev h => hb ev (by simp [h]))]
    simp

/-- Command words alone do not move it (R131). -/
theorem waitStep_commands (shown : Shown) (s : State) {inbox : List HostEvent} (hb : ∀ ev ∈ inbox, ∃ w, ev = .command w) :
    ∀ held, waitStep shown s held inbox = quiet s := by
  induction inbox with
  | nil => intro held; rfl
  | cons ev rest ih =>
    intro held
    obtain ⟨w, rfl⟩ := hb ev (by simp)
    rw [waitStep, ih fun ev h => hb ev (by simp [h])]

/-! ## The step -/

theorem step_executing {s : State} {shown : Shown} (h : s.executing = some shown) :
    step s = .next (waitStep shown s [] s.inbox) := by
  simp [step, h]

theorem step_command {s : State} {w : Word} {rest : List HostEvent} (h : s.executing = none) (hi : s.inbox = .command w :: rest) :
    step s = settled ⟨s.resp, s.err⟩ (runWord w { s with inbox := rest }) := by
  simp [step, h, hi]

/-- Everything a step that goes on can do: wait, idle, give a byte, reset, or run a word. -/
theorem step_next {s t : State} (h : step s = .next t) :
    (∃ shown, s.executing = some shown ∧ t = waitStep shown s [] s.inbox) ∨
    (s.executing = none ∧ s.inbox = [] ∧ t = quiet s) ∨
    (∃ rest, s.executing = none ∧ s.inbox = .drain :: rest ∧ t = takeByte (quiet { s with inbox := rest })) ∨
    (∃ rest, s.executing = none ∧ s.inbox = .rst :: rest ∧ t = resetInput { s with inbox := rest }) ∨
    (∃ w rest u, s.executing = none ∧ s.inbox = .command w :: rest ∧ runWord w { s with inbox := rest } = .next u ∧
      t = finish ⟨s.resp, s.err⟩ u) := by
  rcases he : s.executing.isNone with _ | _
  · obtain ⟨shown, he⟩ := Option.isSome_iff_exists.1 (by simpa using he)
    rw [step_executing he, Host.Outcome.next.injEq] at h
    exact .inl ⟨shown, he, h.symm⟩
  · rw [Option.isNone_iff_eq_none] at he
    rcases hi : s.inbox with _ | ⟨⟨w⟩ | _ | _, rest⟩
    · exact .inr (.inl ⟨he, rfl, by simpa [step, he, hi, eq_comm] using h⟩)
    · rw [step_command he hi, settled_next] at h
      obtain ⟨u, hu, rfl⟩ := h
      exact .inr (.inr (.inr (.inr ⟨w, rest, u, he, rfl, hu, rfl⟩)))
    · exact .inr (.inr (.inl ⟨rest, he, rfl, by simpa [step, he, hi, eq_comm] using h⟩))
    · exact .inr (.inr (.inr (.inl ⟨rest, he, rfl, by simpa [step, he, hi, eq_comm] using h⟩)))

end Sys2Proof.Laws
end

