-- ==== Sys2Proof/Laws/Ops.lean ====
section
/-! SUPPORT. What the shared operations of a command can do, each said once: the drop while an error is pending, the `require`
checks, completing, raising, naming a node, and reading and writing the spaces. A proof about a command cites these. -/

namespace Sys2Proof.Laws

open Sys2Proof.Machine

/-! ## The shape of a command -/

theorem unlessPending_of_err {s : State} (h : s.err = true) (body : Result) : unlessPending s body = .next s := by
  simp [unlessPending, h]

theorem unlessPending_of_clear {s : State} (h : s.err = false) (body : Result) : unlessPending s body = body := by
  simp [unlessPending, h]

/-- A command under `unlessPending` is dropped (R112) or runs. -/
theorem unlessPending_next {s t : State} {body : Result} :
    unlessPending s body = .next t ↔ (s.err = true ∧ t = s) ∨ (s.err = false ∧ body = .next t) := by
  cases h : s.err <;> simp [unlessPending, h, eq_comm]

theorem unlessPending_fault {s : State} {body : Result} {f : Fault} :
    unlessPending s body = .fault f ↔ s.err = false ∧ body = .fault f := by
  cases h : s.err <;> simp [unlessPending, h]

theorem fail_next {cmd : Word} {e : Err} {info : Word} {s t : State} :
    fail cmd e info s = .next t ↔ t = s.raise cmd e info := by
  simp [fail, eq_comm]

theorem complete_next {resp : Word} {s t : State} : complete resp s = .next t ↔ t = { s with resp := resp } := by
  simp [complete, eq_comm]

theorem require_of_true {ok : Bool} (h : ok = true) (cmd : Word) (e : Err) (info : Word) (s : State) (body : Result) :
    require ok cmd e info s body = body := by
  simp [require, h]

theorem require_of_false {ok : Bool} (h : ok = false) (cmd : Word) (e : Err) (info : Word) (s : State) (body : Result) :
    require ok cmd e info s body = .next (s.raise cmd e info) := by
  simp [require, h, fail]

/-- `require` goes on when its condition holds and raises otherwise (R9). -/
theorem require_next {ok : Bool} {cmd : Word} {e : Err} {info : Word} {s t : State} {body : Result} :
    require ok cmd e info s body = .next t ↔ (ok = true ∧ body = .next t) ∨ (ok = false ∧ t = s.raise cmd e info) := by
  cases ok <;> simp [require, fail, eq_comm]

theorem require_fault {ok : Bool} {cmd : Word} {e : Err} {info : Word} {s : State} {body : Result} {f : Fault} :
    require ok cmd e info s body = .fault f ↔ ok = true ∧ body = .fault f := by
  cases ok <;> simp [require, fail]

/-- A sequencing check goes on or raises E_SEQ with STATUS as it was (R127). -/
theorem requireSeq_next {ok : Bool} {cmd : Word} {s t : State} {body : Result} :
    requireSeq ok cmd s body = .next t ↔ (ok = true ∧ body = .next t) ∨ (ok = false ∧ t = s.raise cmd .seq s.status) :=
  require_next

theorem requireSeq_fault {ok : Bool} {cmd : Word} {s : State} {body : Result} {f : Fault} :
    requireSeq ok cmd s body = .fault f ↔ ok = true ∧ body = .fault f :=
  require_fault

/-- An illegal word is dropped while an error is pending and raises E_ILLEGAL otherwise (R69, R70, R114); it always answers. -/
theorem illegalCommand_next {w : Word} {d : DecodeError} {s t : State} :
    illegalCommand w d s = .next t ↔
      (s.err = true ∧ t = s) ∨ (s.err = false ∧ t = s.raise w .illegal d.info) := by
  rw [illegalCommand, unlessPending_next, fail_next]

/-- A node named by its index (R83, R84): E_SEQ, E_RANGE, or the node. -/
theorem withNode_next {cmd : Word} {idx : NodeIdx} {s t : State} {k : Node → Result} :
    withNode cmd idx s k = .next t ↔
      (s.treeValid = false ∧ t = s.raise cmd .seq s.status) ∨
      (s.treeValid = true ∧ s.nodeCnt.toNat ≤ idx.toNat ∧ t = s.raise cmd .range (zext idx)) ∨
      (s.treeValid = true ∧ idx.toNat < s.nodeCnt.toNat ∧ ∃ n, s.nodeAt? idx = some n ∧ k n = .next t) := by
  rw [withNode, requireSeq_next, require_next]
  by_cases h : idx.toNat < s.nodeCnt.toNat
  · have h' : ¬ s.nodeCnt.toNat ≤ idx.toNat := by omega
    rcases hn : s.nodeAt? idx with _ | n
    · simp [h, h']
    · simp [h, h', or_comm]
  · simp [h, show s.nodeCnt.toNat ≤ idx.toNat by omega, or_comm]

/-- The outcome of a walk as a command's: goes on, raises, or leaves the arena. -/
theorem afterWalk_next {cmd : Word} {w : Walk} {k : State → Nat → Result} {t : State} :
    afterWalk cmd w k = .next t ↔
      (∃ u e, w = .ok u e ∧ k u e = .next t) ∨ (∃ err u, w = .raised err u ∧ t = u.raise cmd err u.uUsed) := by
  cases w <;> simp [afterWalk, fail, eq_comm]

/-! ## Errors -/

/-- The codes of R109 run from 0x01 to 0x07. -/
theorem code_range (e : Err) : 1 ≤ e.code ∧ e.code ≤ 7 := by cases e <;> decide

/-- The decode errors are those with a code from 0x05 on (R109). -/
theorem isDecode_iff (e : Err) : e.isDecode = true ↔ 5 ≤ e.code := by cases e <;> decide

/-- Raising an error that is no decode error leaves the session open. -/
theorem raise_of_not_decode {e : Err} (h : e.isDecode = false) (s : State) (cmd info : Word) :
    s.raise cmd e info = { s with err := true, errCode := e.code, errCmd := cmd, errInfo := info } := by
  simp [State.raise, h]

/-! ## The spaces -/

@[simp] theorem freqAt_setFreq_same (s : State) (sym : Byte) (cnt : Count) : (s.setFreq sym cnt).freqAt sym = cnt := by
  simp [State.freqAt, State.setFreq]

theorem freqAt_setFreq_other {s : State} {sym other : Byte} {cnt : Count} (h : other ≠ sym) :
    (s.setFreq sym cnt).freqAt other = s.freqAt other := by
  simp only [State.freqAt, State.setFreq]
  exact Vector.getElem_set_ne _ _ fun e => h (BitVec.eq_of_toNat_eq e.symm)

@[simp] theorem freqAt_clearFreq (s : State) (sym : Byte) : s.clearFreq.freqAt sym = 0 := by
  simp [State.freqAt, State.clearFreq]

/-- TOTAL holds the exact sum: 256 counts of 16 bits fit in 24 (R6, R23). -/
theorem total_toNat (s : State) : s.total.toNat = sumCounts s.freq := by
  have := sumCounts_le s.freq
  simp [State.total]; omega

/-- One count replaced: the sum moves by the difference. -/
theorem sumCounts_set (freq : Vector Count 256) (i : Nat) (hi : i < 256) (cnt : Count) :
    sumCounts (freq.set i cnt hi) + freq[i].toNat = sumCounts freq + cnt.toNat := by
  have key : ∀ (l : List Nat) (i : Nat) (hi : i < l.length) (c : Nat), (l.set i c).sum + l[i] = l.sum + c := by
    intro l
    induction l with
    | nil => intro i hi; simp at hi
    | cons x xs ih =>
      intro i hi c
      cases i with
      | zero => simp; omega
      | succ i => have := ih i (by simpa using hi) c; simp; omega
  have := key (freq.toList.map BitVec.toNat) i (by simpa using hi) cnt.toNat
  simpa [sumCounts, Vector.toList_set, List.map_set] using this

/-- TOTAL after a FREQ_WR (R75): it drops the old count and takes the new one. -/
theorem total_setFreq (s : State) (sym : Byte) (cnt : Count) :
    (s.setFreq sym cnt).total.toNat + (s.freqAt sym).toNat = s.total.toNat + cnt.toNat := by
  rw [total_toNat, total_toNat]
  exact sumCounts_set s.freq sym.toNat sym.isLt cnt

@[simp] theorem total_clearFreq (s : State) : s.clearFreq.total = 0 := by
  show (BitVec.ofNat 24 (sumCounts (Vector.replicate 256 0)) : Weight) = 0
  decide +kernel

/-- TOTAL depends on FREQ alone. -/
theorem total_congr {s t : State} (h : s.freq = t.freq) : s.total = t.total := by
  simp [State.total, h]

/-- Every index but 511 names an entry of the arena. -/
theorem nodeAt?_isSome {s : State} {i : NodeIdx} (h : i.toNat < 511) : ∃ n, s.nodeAt? i = some n :=
  ⟨s.node[i.toNat], by simp [State.nodeAt?, h]⟩

/-- BUILD's entries below NODE_CNT, the old ones above (R24, R78). -/
theorem overlay_getElem? (nodes : List Node) (old : Vector Node 511) (i : Nat) :
    (overlay nodes old)[i]? = if i < 511 then (nodes[i]?).or old[i]? else none := by
  by_cases h : i < 511
  · rw [Vector.getElem?_eq_getElem h]
    cases hn : nodes[i]? <;> simp [overlay, h, hn]
  · simp [h]

/-! ## STATUS -/

theorem flagBit_getLsbD (b : Bool) (i j : Nat) (hi : i < 32) :
    (flagBit b i).getLsbD j = (decide (j = i) && b) := by
  rcases lt_trichotomy j i with h | rfl | h
  · simp [flagBit, show j ≠ i by omega, h]
  · simp [flagBit, hi]
  · simp [flagBit, show j ≠ i by omega]
    omega

/-- The flags stand at their places in STATUS, and the word's other bits are 0 (R16). -/
theorem status_getLsbD (s : State) (j : Nat) :
    s.status.getLsbD j =
      (([s.err, s.treeValid, s.codesValid, s.empty, s.single, s.packOpen, s.unpackOpen, s.uLast])[j]?).getD false := by
  simp only [State.status, BitVec.getLsbD_or, flagBit_getLsbD _ _ _ (by omega : 0 < 32),
    flagBit_getLsbD _ _ _ (by omega : 1 < 32), flagBit_getLsbD _ _ _ (by omega : 2 < 32),
    flagBit_getLsbD _ _ _ (by omega : 3 < 32), flagBit_getLsbD _ _ _ (by omega : 4 < 32),
    flagBit_getLsbD _ _ _ (by omega : 5 < 32), flagBit_getLsbD _ _ _ (by omega : 6 < 32),
    flagBit_getLsbD _ _ _ (by omega : 7 < 32)]
  rcases Nat.lt_or_ge j 8 with h | h
  · interval_cases j <;> simp
  · obtain ⟨k, rfl⟩ : ∃ k, j = k + 8 := ⟨j - 8, by omega⟩
    simp

end Sys2Proof.Laws
end

