-- ==== Sys2Proof/Laws/Packer.lean ====
section
/-! SUPPORT. What appending code bits does (43_bit_packer.md R91, R92): the bits follow the waiting ones, whole bytes go out as they
fill, and nothing but ACC, NACC, OUTQ and P_BYTES changes. -/

namespace Sys2Proof.Laws

open Sys2Proof.Machine

/-- The bits in the accumulator, the earliest first (10_state.md R27). -/
def accBits (acc : Byte) (nacc : BitVec 4) : List Bool := (byteBits acc).drop (8 - nacc.toNat)

/-- NACC is at most 7 and the bits of ACC above it are 0 (R27, R36.6). -/
def AccClean (acc : Byte) (nacc : BitVec 4) : Prop := nacc ≤ 7 ∧ acc.toNat < 2 ^ nacc.toNat

theorem byteBits_length (b : Byte) : (byteBits b).length = 8 := rfl

theorem byteBits_getElem? (b : Byte) (i : Nat) : (byteBits b)[i]? = if i < 8 then some (b.getLsbD (7 - i)) else none := by
  by_cases h : i < 8
  · simp [byteBits, h]
  · simp [byteBits, h]

theorem accBits_length {acc : Byte} {nacc : BitVec 4} (h : nacc ≤ 7) : (accBits acc nacc).length = nacc.toNat := by
  have : nacc.toNat ≤ 7 := h
  simp [accBits, byteBits_length]; omega

/-- A bit above the clean part of the accumulator is 0. -/
theorem AccClean.getLsbD {acc : Byte} {nacc : BitVec 4} (h : AccClean acc nacc) {i : Nat} (hi : nacc.toNat ≤ i) :
    acc.getLsbD i = false :=
  Nat.testBit_lt_two_pow (lt_of_lt_of_le h.2 (Nat.pow_le_pow_right (by omega) hi))

theorem shiftIn_getLsbD (acc : Byte) (b : Bool) (i : Nat) :
    (shiftIn acc b).getLsbD i = if i = 0 then b else decide (i < 8) && acc.getLsbD (i - 1) := by
  rcases i with _ | i
  · simp [shiftIn]
  · simp [shiftIn]

/-- A bit shifted in stands after the waiting ones; the eighth fills the byte (R91). -/
theorem shiftIn_bits {acc : Byte} {nacc : BitVec 4} (h : AccClean acc nacc) (b : Bool) :
    (byteBits (shiftIn acc b)).drop (7 - nacc.toNat) = accBits acc nacc ++ [b] := by
  have h7 : nacc.toNat ≤ 7 := h.1
  refine List.ext_getElem? fun i => ?_
  rw [List.getElem?_drop, byteBits_getElem?, List.getElem?_append, accBits_length h.1, accBits, List.getElem?_drop,
    byteBits_getElem?, shiftIn_getLsbD]
  rcases lt_trichotomy i nacc.toNat with hi | hi | hi
  · simp [show 7 - nacc.toNat + i < 8 by omega, show 7 - (7 - nacc.toNat + i) ≠ 0 by omega, hi,
      show 8 - nacc.toNat + i < 8 by omega, show 7 - (7 - nacc.toNat + i) < 8 by omega,
      show 7 - (7 - nacc.toNat + i) - 1 = 7 - (8 - nacc.toNat + i) by omega]
  · subst hi
    simp [show 7 - nacc.toNat + nacc.toNat = 7 by omega]
  · obtain ⟨k, hk⟩ : ∃ k, i - nacc.toNat = k + 1 := ⟨i - nacc.toNat - 1, by omega⟩
    simp [show ¬ 7 - nacc.toNat + i < 8 by omega, show ¬ i < nacc.toNat by omega, hk]

/-- One more bit keeps the accumulator clean. -/
theorem shiftIn_clean {acc : Byte} {nacc : BitVec 4} (h : AccClean acc nacc) (b : Bool) (h7 : nacc + 1 ≠ 8) :
    AccClean (shiftIn acc b) (nacc + 1) ∧ (nacc + 1).toNat = nacc.toNat + 1 := by
  have h1 : nacc.toNat ≤ 7 := h.1
  have h2 : (nacc + 1).toNat = nacc.toNat + 1 := by rw [BitVec.toNat_add]; simp; omega
  have h3 : (nacc + 1).toNat ≠ 8 := fun e => h7 (BitVec.eq_of_toNat_eq e)
  refine ⟨⟨show (nacc + 1).toNat ≤ 7 by omega, ?_⟩, h2⟩
  rw [h2]
  refine Nat.lt_pow_two_of_testBit _ fun i hi => ?_
  show (shiftIn acc b).getLsbD i = false
  rw [shiftIn_getLsbD, if_neg (by omega), h.getLsbD (by omega), Bool.and_false]

/-- The state after code bits that sent `bytes` out and left `acc` and `nacc`; all they write (R91). -/
def packed (s : State) (acc : Byte) (nacc : BitVec 4) (bytes : List Byte) : State :=
  { s with acc := acc, nacc := nacc, outq := s.outq ++ bytes, pBytes := s.pBytes + BitVec.ofNat 32 bytes.length }

theorem packed_packed (s : State) (a a' : Byte) (n n' : BitVec 4) (xs ys : List Byte) :
    packed (packed s a n xs) a' n' ys = packed s a' n' (xs ++ ys) := by
  simp [packed, BitVec.ofNat_add, BitVec.add_assoc]

/-- Everything one code bit can do (R91). -/
theorem packBit_spec {s : State} (h : AccClean s.acc s.nacc) (b : Bool) :
    ∃ acc nacc bytes, packBit s b = packed s acc nacc bytes ∧ AccClean acc nacc ∧
      bytes.flatMap byteBits ++ accBits acc nacc = accBits s.acc s.nacc ++ [b] ∧
      8 * bytes.length + nacc.toNat = s.nacc.toNat + 1 := by
  have hb := shiftIn_bits h b
  by_cases h7 : s.nacc + 1 = 8
  · have h8 : s.nacc = 7 := by rw [← BitVec.add_sub_cancel s.nacc 1, h7]; rfl
    rw [h8] at hb
    refine ⟨0, 0, [shiftIn s.acc b], by rw [packBit, if_pos h7]; rfl, ⟨by decide, by decide⟩, ?_, ?_⟩
    · rw [h8]
      simpa [accBits, show List.drop 8 (byteBits 0#8) = [] from rfl] using hb
    · rw [h8]; rfl
  · obtain ⟨hc, hn⟩ := shiftIn_clean h b h7
    refine ⟨_, _, [], by rw [packBit, if_neg h7]; simp [packed], hc, ?_, by rw [hn]; simp⟩
    have h1 : s.nacc.toNat ≤ 7 := h.1
    rw [List.flatMap_nil, List.nil_append, accBits, hn, show 8 - (s.nacc.toNat + 1) = 7 - s.nacc.toNat by omega]
    exact hb

/-- Everything a code's bits can do (R91): the bits that go out and the bits that wait are the earlier waiting bits followed by
the code's. -/
theorem packBits_spec (bits : List Bool) : ∀ {s : State}, AccClean s.acc s.nacc →
    ∃ acc nacc bytes, packBits bits s = packed s acc nacc bytes ∧ AccClean acc nacc ∧
      bytes.flatMap byteBits ++ accBits acc nacc = accBits s.acc s.nacc ++ bits ∧
      8 * bytes.length + nacc.toNat = s.nacc.toNat + bits.length := by
  induction bits with
  | nil => intro s h; exact ⟨s.acc, s.nacc, [], by simp [packBits, packed], h, by simp, by simp⟩
  | cons b bits ih =>
    intro s h
    obtain ⟨a1, n1, b1, e1, c1, w1, l1⟩ := packBit_spec h b
    obtain ⟨a2, n2, b2, e2, c2, w2, l2⟩ := ih (s := packed s a1 n1 b1) c1
    refine ⟨a2, n2, b1 ++ b2, ?_, c2, ?_, ?_⟩
    · rw [show packBits (b :: bits) s = packBits bits (packBit s b) from rfl, e1, e2, packed_packed]
    · rw [List.flatMap_append, List.append_assoc, w2, ← List.append_assoc]
      show b1.flatMap byteBits ++ accBits a1 n1 ++ bits = _
      rw [w1]; simp
    · have : (packed s a1 n1 b1).nacc = n1 := rfl
      rw [this] at l2
      simp only [List.length_append, List.length_cons]; omega

/-- The count of a code's bits needs no clean accumulator (R93). -/
theorem packBits_account (bits : List Bool) : ∀ {s : State}, s.nacc ≤ 7 →
    ∃ acc nacc bytes, packBits bits s = packed s acc nacc bytes ∧ nacc ≤ 7 ∧
      8 * bytes.length + nacc.toNat = s.nacc.toNat + bits.length := by
  induction bits with
  | nil => intro s h; exact ⟨s.acc, s.nacc, [], by simp [packBits, packed], h, by simp⟩
  | cons b bits ih =>
    intro s h
    have one : ∃ a n bs, packBit s b = packed s a n bs ∧ n ≤ 7 ∧ 8 * bs.length + n.toNat = s.nacc.toNat + 1 := by
      have h7 : s.nacc.toNat ≤ 7 := h
      have hn : (s.nacc + 1).toNat = s.nacc.toNat + 1 := by rw [BitVec.toNat_add]; simp; omega
      by_cases h8 : s.nacc + 1 = 8
      · refine ⟨0, 0, [shiftIn s.acc b], by rw [packBit, if_pos h8]; rfl, by decide, ?_⟩
        rw [← hn, h8]; rfl
      · have : (s.nacc + 1).toNat ≠ 8 := fun e => h8 (BitVec.eq_of_toNat_eq e)
        exact ⟨shiftIn s.acc b, s.nacc + 1, [], by rw [packBit, if_neg h8]; simp [packed], show (s.nacc + 1).toNat ≤ 7 by omega, by rw [hn]; simp⟩
    obtain ⟨a1, n1, b1, e1, c1, l1⟩ := one
    obtain ⟨a2, n2, b2, e2, c2, l2⟩ := ih (s := packed s a1 n1 b1) c1
    refine ⟨a2, n2, b1 ++ b2, ?_, c2, ?_⟩
    · rw [show packBits (b :: bits) s = packBits bits (packBit s b) from rfl, e1, e2, packed_packed]
    · rw [show (packed s a1 n1 b1).nacc = n1 from rfl] at l2
      simp only [List.length_append, List.length_cons]; omega

/-- The number of bytes a code's bits push out (R91): floor((NACC + LEN) / 8). -/
theorem packBits_count {bits : List Bool} {s : State} (h : AccClean s.acc s.nacc) :
    (packBits bits s).outq.length - s.outq.length = (s.nacc.toNat + bits.length) / 8 := by
  obtain ⟨acc, nacc, bytes, e, c, -, l⟩ := packBits_spec bits h
  have h7 : nacc.toNat ≤ 7 := c.1
  rw [e]
  simp only [packed, List.length_append]
  omega

/-- The byte a flush emits (R92): the waiting bits, then zeros. -/
theorem padAcc_bits {acc : Byte} {nacc : BitVec 4} (h : AccClean acc nacc) :
    byteBits (padAcc acc nacc) = accBits acc nacc ++ List.replicate (8 - nacc.toNat) false := by
  have h7 : nacc.toNat ≤ 7 := h.1
  refine List.ext_getElem? fun i => ?_
  rw [byteBits_getElem?, List.getElem?_append, accBits_length h.1, accBits, List.getElem?_drop, byteBits_getElem?,
    List.getElem?_replicate, padAcc, BitVec.getLsbD_shiftLeft]
  by_cases hi : i < nacc.toNat
  · simp [hi, show i < 8 by omega, show 7 - i < 8 by omega, show ¬ 7 - i < 8 - nacc.toNat by omega,
      show 8 - nacc.toNat + i < 8 by omega, show 7 - i - (8 - nacc.toNat) = 7 - (8 - nacc.toNat + i) by omega]
  · by_cases h8 : i < 8
    · simp [hi, h8, show 7 - i < 8 - nacc.toNat by omega, show i - nacc.toNat < 8 - nacc.toNat by omega]
    · simp [hi, h8, show ¬ i - nacc.toNat < 8 - nacc.toNat by omega]

end Sys2Proof.Laws
end

