-- ==== Sys2Proof/Laws/PerInstr.lean ====
section
/-! SUPPORT. The shape of every command's word: it lies in the opcode row of its mnemonic, with the format's reserved bits 0
(30_encoding.md R64, R65). One lemma per constructor. -/

namespace Sys2Proof.Laws.EncodingShape

/-- The word of `i` selects a row of its mnemonic's format and sets no bit that format reserves. -/
def Statement (i : Instr) : Prop :=
  (opRows.find? fun r => r.op == opField (encode i)).map OpRow.fmt = some i.mnemonic.format ∧
    encode i &&& reservedMask i.mnemonic.format = 0

/-- A statement about the word follows from its opcode, its row's format and its reserved bits. -/
theorem of_parts {i : Instr} (op : Byte) (h : opField (encode i) = op)
    (hf : (opRows.find? fun r => r.op == op).map OpRow.fmt = some i.mnemonic.format)
    (hm : encode i &&& reservedMask i.mnemonic.format = 0) : Statement i := ⟨by rw [h]; exact hf, hm⟩

theorem nop : Statement .nop := of_parts 0x00 (by decide) (by decide) (by decide)

theorem opField_freqWr (sym : Byte) (cnt : Count) : opField (encode (.freqWr sym cnt)) = 0x01#8 := by
  simp only [opField, encode]
  exact BitVec.eq_of_getLsbD_eq fun i hi => by interval_cases i <;> simp

theorem freqWr (sym : Byte) (cnt : Count) : Statement (.freqWr sym cnt) :=
  of_parts 0x01 (opField_freqWr sym cnt) rfl <| by
    simp only [reservedMask, encode, Instr.mnemonic, Mnemonic.format]
    exact BitVec.eq_of_getLsbD_eq fun i hi => by interval_cases i <;> simp

theorem opField_freqRd (sym : Byte) : opField (encode (.freqRd sym)) = 0x02#8 := by
  simp only [opField, encode]
  exact BitVec.eq_of_getLsbD_eq fun i hi => by interval_cases i <;> simp

theorem freqRd (sym : Byte) : Statement (.freqRd sym) :=
  of_parts 0x02 (opField_freqRd sym) rfl <| by
    simp only [reservedMask, encode, Instr.mnemonic, Mnemonic.format]
    exact BitVec.eq_of_getLsbD_eq fun i hi => by interval_cases i <;> simp

theorem freqClr : Statement .freqClr := of_parts 0x03 (by decide) (by decide) (by decide)

theorem build : Statement .build := of_parts 0x10 (by decide) (by decide) (by decide)

theorem opField_nodeWt (idx : NodeIdx) : opField (encode (.nodeWt idx)) = 0x11#8 := by
  simp only [opField, encode]
  exact BitVec.eq_of_getLsbD_eq fun i hi => by interval_cases i <;> simp

theorem nodeWt (idx : NodeIdx) : Statement (.nodeWt idx) :=
  of_parts 0x11 (opField_nodeWt idx) rfl <| by
    simp only [reservedMask, encode, Instr.mnemonic, Mnemonic.format]
    exact BitVec.eq_of_getLsbD_eq fun i hi => by interval_cases i <;> simp

theorem opField_nodeLnk (idx : NodeIdx) : opField (encode (.nodeLnk idx)) = 0x12#8 := by
  simp only [opField, encode]
  exact BitVec.eq_of_getLsbD_eq fun i hi => by interval_cases i <;> simp

theorem nodeLnk (idx : NodeIdx) : Statement (.nodeLnk idx) :=
  of_parts 0x12 (opField_nodeLnk idx) rfl <| by
    simp only [reservedMask, encode, Instr.mnemonic, Mnemonic.format]
    exact BitVec.eq_of_getLsbD_eq fun i hi => by interval_cases i <;> simp

theorem gencodes : Statement .gencodes := of_parts 0x20 (by decide) (by decide) (by decide)

theorem opField_codeLen (sym : Byte) : opField (encode (.codeLen sym)) = 0x21#8 := by
  simp only [opField, encode]
  exact BitVec.eq_of_getLsbD_eq fun i hi => by interval_cases i <;> simp

theorem codeLen (sym : Byte) : Statement (.codeLen sym) :=
  of_parts 0x21 (opField_codeLen sym) rfl <| by
    simp only [reservedMask, encode, Instr.mnemonic, Mnemonic.format]
    exact BitVec.eq_of_getLsbD_eq fun i hi => by interval_cases i <;> simp

theorem opField_codeBits (sym : Byte) (k : BitVec 3) : opField (encode (.codeBits sym k)) = 0x22#8 := by
  simp only [opField, encode]
  exact BitVec.eq_of_getLsbD_eq fun i hi => by interval_cases i <;> simp

theorem codeBits (sym : Byte) (k : BitVec 3) : Statement (.codeBits sym k) :=
  of_parts 0x22 (opField_codeBits sym k) rfl <| by
    simp only [reservedMask, encode, Instr.mnemonic, Mnemonic.format]
    exact BitVec.eq_of_getLsbD_eq fun i hi => by interval_cases i <;> simp

theorem packBegin : Statement .packBegin := of_parts 0x30 (by decide) (by decide) (by decide)

theorem opField_packSym (sym : Byte) : opField (encode (.packSym sym)) = 0x31#8 := by
  simp only [opField, encode]
  exact BitVec.eq_of_getLsbD_eq fun i hi => by interval_cases i <;> simp

theorem packSym (sym : Byte) : Statement (.packSym sym) :=
  of_parts 0x31 (opField_packSym sym) rfl <| by
    simp only [reservedMask, encode, Instr.mnemonic, Mnemonic.format]
    exact BitVec.eq_of_getLsbD_eq fun i hi => by interval_cases i <;> simp

theorem packFlush : Statement .packFlush := of_parts 0x32 (by decide) (by decide) (by decide)

theorem opField_unpackBegin (pad : BitVec 3) : opField (encode (.unpackBegin pad)) = 0x40#8 := by
  simp only [opField, encode]
  exact BitVec.eq_of_getLsbD_eq fun i hi => by interval_cases i <;> simp

theorem unpackBegin (pad : BitVec 3) : Statement (.unpackBegin pad) :=
  of_parts 0x40 (opField_unpackBegin pad) rfl <| by
    simp only [reservedMask, encode, Instr.mnemonic, Mnemonic.format]
    exact BitVec.eq_of_getLsbD_eq fun i hi => by interval_cases i <;> simp

theorem opField_unpackFeed (v : Byte) : opField (encode (.unpackFeed v)) = 0x41#8 := by
  simp only [opField, encode]
  exact BitVec.eq_of_getLsbD_eq fun i hi => by interval_cases i <;> simp

theorem unpackFeed (v : Byte) : Statement (.unpackFeed v) :=
  of_parts 0x41 (opField_unpackFeed v) rfl <| by
    simp only [reservedMask, encode, Instr.mnemonic, Mnemonic.format]
    exact BitVec.eq_of_getLsbD_eq fun i hi => by interval_cases i <;> simp

theorem opField_unpackLast (v : Byte) : opField (encode (.unpackLast v)) = 0x42#8 := by
  simp only [opField, encode]
  exact BitVec.eq_of_getLsbD_eq fun i hi => by interval_cases i <;> simp

theorem unpackLast (v : Byte) : Statement (.unpackLast v) :=
  of_parts 0x42 (opField_unpackLast v) rfl <| by
    simp only [reservedMask, encode, Instr.mnemonic, Mnemonic.format]
    exact BitVec.eq_of_getLsbD_eq fun i hi => by interval_cases i <;> simp

theorem unpackEnd : Statement .unpackEnd := of_parts 0x43 (by decide) (by decide) (by decide)

theorem opField_regRd (v : Byte) : opField (encode (.regRd v)) = 0xF0#8 := by
  simp only [opField, encode]
  exact BitVec.eq_of_getLsbD_eq fun i hi => by interval_cases i <;> simp

theorem regRd (v : Byte) : Statement (.regRd v) :=
  of_parts 0xF0 (opField_regRd v) rfl <| by
    simp only [reservedMask, encode, Instr.mnemonic, Mnemonic.format]
    exact BitVec.eq_of_getLsbD_eq fun i hi => by interval_cases i <;> simp

theorem errClr : Statement .errClr := of_parts 0xF1 (by decide) (by decide) (by decide)

theorem sreset : Statement .sreset := of_parts 0xFF (by decide) (by decide) (by decide)

end Sys2Proof.Laws.EncodingShape
end

