-- ==== Sys2Proof/Laws/Unpacker.lean ====
section
/-! SUPPORT. What a walk of budget bits can do (44_bit_unpacker.md R96): the fields it writes, the errors it can raise, and that the
path of a leaf, walked from a node above it, emits the leaf's symbol and leads back to ROOT. -/

namespace Sys2Proof.Laws

open Sys2Proof.Machine

theorem walked_zero (s : State) : s.walked 0 [] s.uNode = s := by simp [State.walked]

theorem walked_walked (s : State) (k n : Nat) (xs ys : List Byte) (u v : NodeIdx) :
    (s.walked k xs u).walked n ys v = s.walked (k + n) (xs ++ ys) v := by
  simp [State.walked, BitVec.ofNat_add, BitVec.add_assoc, BitVec.sub_sub]

/-! ## Bits decoded on the tree -/

/-- Decoding depends on the arena and ROOT alone. -/
theorem decodeBits_congr {s t : State} (hn : t.node = s.node) (hr : t.root = s.root) (bits : List Bool) :
    ∀ u, t.decodeBits u bits = s.decodeBits u bits := by
  induction bits with
  | nil => intro u; rfl
  | cons b bits ih => intro u; simp only [State.decodeBits, State.nodeAt?, hn, hr, ih]

@[simp] theorem decodeBits_walked (s : State) (k : Nat) (xs : List Byte) (v u : NodeIdx) (bits : List Bool) :
    (s.walked k xs v).decodeBits u bits = s.decodeBits u bits :=
  decodeBits_congr (s := s) (t := s.walked k xs v) rfl rfl bits u

/-- Bits decoded one list after another. -/
theorem decodeBits_append (s : State) (xs ys : List Bool) : ∀ u, s.decodeBits u (xs ++ ys) =
    (s.decodeBits u xs).bind fun p => (s.decodeBits p.2 ys).map fun q => (p.1 ++ q.1, q.2) := by
  induction xs with
  | nil => intro u; simp [State.decodeBits]
  | cons b xs ih =>
    intro u
    rw [List.cons_append, State.decodeBits, State.decodeBits]
    cases s.nodeAt? u with
    | none => rfl
    | some n =>
      simp only [ih]
      cases n.leaf with
      | true =>
        cases b with
        | true => rfl
        | false => cases s.decodeBits u xs <;> simp [Option.map_map, Function.comp_def]
      | false =>
        simp only [Bool.false_eq_true, if_false]
        cases s.nodeAt? (if b = true then n.right else n.left) with
        | none => rfl
        | some m =>
          cases hm : m.leaf with
          | true => cases s.decodeBits s.root xs <;> simp [hm, Option.map_map, Function.comp_def]
          | false => simp [hm]

/-- The symbols of a beginning come first. -/
theorem decodeBits_take {s : State} {u v : NodeIdx} {bits : List Bool} {syms : List Byte}
    (h : s.decodeBits u bits = some (syms, v)) (k : Nat) :
    ∃ xs w ys, s.decodeBits u (bits.take k) = some (xs, w) ∧ s.decodeBits w (bits.drop k) = some (ys, v) ∧ syms = xs ++ ys := by
  rw [← List.take_append_drop k bits, decodeBits_append] at h
  obtain ⟨⟨xs, w⟩, h1, h2⟩ := Option.bind_eq_some_iff.1 h
  obtain ⟨⟨ys, w'⟩, h3, h4⟩ := Option.map_eq_some_iff.1 h2
  obtain ⟨rfl, rfl⟩ := Prod.mk.inj h4
  exact ⟨xs, w, ys, h1, h3, rfl⟩

/-- Bits that complete fewer symbols than are owed have one owed before each. -/
theorem owes_of_length {s : State} {bits : List Bool} {syms : List Byte} {u : NodeIdx}
    (h : s.decodeBits s.uNode bits = some (syms, u)) (hl : syms.length < s.uRem.toNat) : s.Owes bits := by
  intro k _ xs w hx
  obtain ⟨xs', w', ys, h1, -, rfl⟩ := decodeBits_take h k
  rw [hx] at h1
  obtain ⟨rfl, rfl⟩ := Prod.mk.inj (Option.some.inj h1)
  simp at hl; omega

/-! ## The walk -/

/-- Everything one budget bit can do (R96): an error before the bit is counted, nothing (a walk out of the arena), or the bit is
counted and does what it decodes to. -/
theorem ubit_spec (x : Bool) (s : State) (e : Nat) :
    (ubit x s e = .raised .decTrail s ∧ s.uRem = 0) ∨
    (ubit x s e = .raised .decBadbit s ∧ s.uRem ≠ 0 ∧ x = true ∧ (s.nodeAt? s.uNode).map Node.leaf = some true) ∨
    (ubit x s e = .lost ∧ s.uRem ≠ 0 ∧ (s.nodeAt? s.uNode).map Node.leaf ≠ some true ∧ s.decodeBits s.uNode [x] = none) ∨
    (∃ syms u, ubit x s e = .ok (s.walked 1 syms u) (e + syms.length) ∧ syms.length ≤ 1 ∧ s.uRem ≠ 0 ∧
      s.decodeBits s.uNode [x] = some (syms, u)) := by
  unfold ubit
  split
  · exact .inl ⟨rfl, ‹_›⟩
  · rename_i hr
    split
    · rename_i hn
      exact .inr (.inr (.inl ⟨rfl, hr, by simp [hn], by simp [State.decodeBits, hn]⟩))
    · rename_i n hn
      split
      · rename_i hl
        cases x
        · exact .inr (.inr (.inr ⟨[n.sym], s.uNode, by simp [State.walked, emitSym, State.emit], by simp, hr,
            by simp [State.decodeBits, hn, hl]⟩))
        · exact .inr (.inl ⟨by simp, hr, rfl, by simp [hn, hl]⟩)
      · rename_i hl
        split
        · rename_i hm
          exact .inr (.inr (.inl ⟨rfl, hr, by simpa [hn] using hl, by simp [State.decodeBits, hn, hl, hm]⟩))
        · rename_i m hm
          split
          · rename_i hml
            exact .inr (.inr (.inr ⟨[m.sym], s.root, by simp [State.walked, emitSym, State.emit], by simp, hr,
              by simp [State.decodeBits, hn, hl, hm, hml]⟩))
          · rename_i hml
            exact .inr (.inr (.inr ⟨[], if x then n.right else n.left, by simp [State.walked], by simp, hr,
              by simp [State.decodeBits, hn, hl, hm, hml]⟩))

/-- A bit that decodes, with a symbol owed, does what it decodes to. -/
theorem ubit_of_decode {x : Bool} {s : State} {syms : List Byte} {u : NodeIdx} (h : s.decodeBits s.uNode [x] = some (syms, u))
    (hr : s.uRem ≠ 0) {e : Nat} : ubit x s e = .ok (s.walked 1 syms u) (e + syms.length) := by
  rcases ubit_spec x s e with ⟨-, h0⟩ | ⟨-, -, rfl, hl⟩ | ⟨-, -, -, hd⟩ | ⟨ys, v, hu, -, -, hd⟩
  · exact absurd h0 hr
  · obtain ⟨n, hn, hnl⟩ := Option.map_eq_some_iff.1 hl
    simp [State.decodeBits, hn, hnl] at h
  · rw [hd] at h; cases h
  · obtain ⟨rfl, rfl⟩ := Prod.mk.inj (Option.some.inj (hd.symm.trans h))
    exact hu

/-- One more bit in front. -/
theorem decodeBits_cons {s : State} {u v : NodeIdx} {x : Bool} {syms : List Byte} (h : s.decodeBits u [x] = some (syms, v))
    (bits : List Bool) : s.decodeBits u (x :: bits) = (s.decodeBits v bits).map fun q => (syms ++ q.1, q.2) := by
  rw [← List.singleton_append, decodeBits_append, h]; rfl

theorem owes_cons {s : State} {x : Bool} {bits : List Bool} {syms : List Byte} {u : NodeIdx} (hr : s.uRem ≠ 0)
    (h : s.decodeBits s.uNode [x] = some (syms, u)) (hl : syms.length ≤ 1) (ho : (s.walked 1 syms u).Owes bits) :
    s.Owes (x :: bits) := by
  have hpos : 0 < s.uRem.toNat := Nat.pos_of_ne_zero fun e => hr (BitVec.eq_of_toNat_eq e)
  intro k hk xs w hx
  cases k with
  | zero =>
    obtain ⟨rfl, -⟩ : [] = xs ∧ s.uNode = w := by simpa [State.decodeBits] using hx
    exact hpos
  | succ k =>
    rw [List.take_succ_cons, decodeBits_cons h] at hx
    obtain ⟨⟨ys, w'⟩, h1, h2⟩ := Option.map_eq_some_iff.1 hx
    obtain ⟨rfl, rfl⟩ := Prod.mk.inj h2
    have := ho k (by simpa using hk) ys w' (by rw [decodeBits_walked]; exact h1)
    have e : (s.walked 1 syms u).uRem.toNat = s.uRem.toNat - syms.length := by
      rw [show (s.walked 1 syms u).uRem = s.uRem - BitVec.ofNat 24 syms.length from rfl, BitVec.toNat_sub]
      have := s.uRem.isLt
      interval_cases syms.length <;> simp <;> omega
    simp only [List.length_append]; omega

/-- Everything a walk of budget bits can do (R96 to R98, 60_exceptions.md R111): all the bits do what they decode to; or so do those
before a bit that raises; or the walk leaves the arena. -/
theorem feedBits_spec (xs : List Bool) : ∀ (s : State) (e : Nat),
    (∃ syms u, feedBits xs s e = .ok (s.walked xs.length syms u) (e + syms.length) ∧ syms.length ≤ xs.length ∧
      s.decodeBits s.uNode xs = some (syms, u) ∧ s.Owes xs ∧ syms.length ≤ s.uRem.toNat) ∨
    (∃ err k syms u, feedBits xs s e = .raised err (s.walked k syms u) ∧ k < xs.length ∧
      s.decodeBits s.uNode (xs.take k) = some (syms, u) ∧ s.Owes (xs.take k) ∧
      ((err = .decTrail ∧ syms.length = s.uRem.toNat) ∨
        (err = .decBadbit ∧ syms.length < s.uRem.toNat ∧ xs[k]? = some true ∧ (s.nodeAt? u).map Node.leaf = some true))) ∨
    (feedBits xs s e = .lost ∧ ∃ k syms u, k < xs.length ∧ s.decodeBits s.uNode (xs.take k) = some (syms, u) ∧
      syms.length < s.uRem.toNat ∧ s.decodeBits s.uNode (xs.take (k + 1)) = none ∧
      (s.nodeAt? u).map Node.leaf ≠ some true) := by
  induction xs with
  | nil =>
    intro s e
    exact .inl ⟨[], s.uNode, by simp [feedBits, walked_zero], by simp, rfl, fun k hk => by simp at hk, by simp⟩
  | cons x xs ih =>
    intro s e
    have none_owed : s.Owes ((x :: xs).take 0) := fun k hk => by simp at hk
    rcases ubit_spec x s e with ⟨h, hr⟩ | ⟨h, hr, hx, hl⟩ | ⟨h, hr, hl, hd⟩ | ⟨syms, u, h, hl, hr, hd⟩
    · exact .inr (.inl ⟨.decTrail, 0, [], s.uNode, by simp [feedBits, h, walked_zero], by simp, rfl, none_owed,
        .inl ⟨rfl, by simp [hr]⟩⟩)
    · exact .inr (.inl ⟨.decBadbit, 0, [], s.uNode, by simp [feedBits, h, walked_zero], by simp, rfl, none_owed,
        .inr ⟨rfl, Nat.pos_of_ne_zero fun e => hr (BitVec.eq_of_toNat_eq e), by simp [hx], hl⟩⟩)
    · exact .inr (.inr ⟨by simp [feedBits, h], 0, [], s.uNode, by simp, rfl,
        Nat.pos_of_ne_zero fun e => hr (BitVec.eq_of_toNat_eq e), by simpa using hd, hl⟩)
    · have hpos : 0 < s.uRem.toNat := Nat.pos_of_ne_zero fun e => hr (BitVec.eq_of_toNat_eq e)
      have hrem : (s.walked 1 syms u).uRem.toNat + syms.length = s.uRem.toNat := by
        rw [show (s.walked 1 syms u).uRem = s.uRem - BitVec.ofNat 24 syms.length from rfl, BitVec.toNat_sub]
        have := s.uRem.isLt
        interval_cases syms.length <;> simp <;> omega
      have e1 : feedBits (x :: xs) s e = feedBits xs (s.walked 1 syms u) (e + syms.length) := by simp [feedBits, h]
      have node : (s.walked 1 syms u).uNode = u := rfl
      have hat : ∀ v, (s.walked 1 syms u).nodeAt? v = s.nodeAt? v := fun v => rfl
      rw [e1]
      rcases ih (s.walked 1 syms u) (e + syms.length) with
        ⟨ys, v, h', hl', hd', ho, hle⟩ | ⟨err, k, ys, v, h', hk, hd', ho, hc⟩ | ⟨h', k, ys, v, hk, hd', hlt, hdn, hnl⟩
      · refine .inl ⟨syms ++ ys, v, ?_, by simp; omega, ?_, owes_cons hr hd hl ho, by simp; omega⟩
        · rw [h', walked_walked]
          simp [Nat.add_comm 1, Nat.add_assoc]
        · rw [node, decodeBits_walked] at hd'
          rw [decodeBits_cons hd, hd']; rfl
      · rw [node, decodeBits_walked] at hd'
        refine .inr (.inl ⟨err, k + 1, syms ++ ys, v, ?_, by simpa using hk, ?_, ?_, ?_⟩)
        · rw [h', walked_walked, Nat.add_comm 1]
        · rw [List.take_succ_cons, decodeBits_cons hd, hd']; rfl
        · rw [List.take_succ_cons]; exact owes_cons hr hd hl ho
        · rw [hat] at hc
          rcases hc with ⟨he, hlen⟩ | ⟨he, hlen, hb, hlf⟩
          · exact .inl ⟨he, by simp; omega⟩
          · exact .inr ⟨he, by simp; omega, by simpa using hb, hlf⟩
      · rw [node, decodeBits_walked] at hd' hdn
        rw [hat] at hnl
        refine .inr (.inr ⟨h', k + 1, syms ++ ys, v, by simpa using hk, ?_, by simp; omega, ?_, hnl⟩)
        · rw [List.take_succ_cons, decodeBits_cons hd, hd']; rfl
        · rw [List.take_succ_cons, decodeBits_cons hd, hdn]; rfl

/-- Bits that decode, with a symbol owed before each, are consumed, and do what they decode to. -/
theorem feedBits_of_decode {xs : List Bool} {s : State} {syms : List Byte} {u : NodeIdx}
    (h : s.decodeBits s.uNode xs = some (syms, u)) (ho : s.Owes xs) (e : Nat) :
    feedBits xs s e = .ok (s.walked xs.length syms u) (e + syms.length) := by
  have pre : ∀ {k ys v}, s.decodeBits s.uNode (xs.take k) = some (ys, v) → ∃ zs, s.decodeBits v (xs.drop k) = some (zs, u) := by
    intro k ys v hk
    obtain ⟨ys', v', zs, h1, h2, -⟩ := decodeBits_take h k
    obtain ⟨-, rfl⟩ := Prod.mk.inj (Option.some.inj (h1.symm.trans hk))
    exact ⟨zs, h2⟩
  rcases feedBits_spec xs s e with ⟨ys, v, h', -, hd, -⟩ | ⟨err, k, ys, v, h', hk, hd, -, hc⟩ | ⟨h', k, ys, v, hk, hd, -, hdn, -⟩
  · obtain ⟨rfl, rfl⟩ := Prod.mk.inj (Option.some.inj (hd.symm.trans h))
    exact h'
  · have := ho k hk ys v hd
    rcases hc with ⟨-, hlen⟩ | ⟨-, -, hb, hlf⟩
    · omega
    · obtain ⟨zs, hz⟩ := pre hd
      obtain ⟨n, hn, hl⟩ := Option.map_eq_some_iff.1 hlf
      rw [List.drop_eq_getElem_cons hk, (List.getElem?_eq_some_iff.1 hb).2] at hz
      simp [State.decodeBits, hn, hl] at hz
  · obtain ⟨ys', v', zs, h1, -, -⟩ := decodeBits_take h (k + 1)
    rw [hdn] at h1; cases h1

/-- Bits walked one list after another. -/
theorem feedBits_append {xs ys : List Bool} {s t : State} {e e' : Nat} (h : feedBits xs s e = .ok t e') :
    feedBits (xs ++ ys) s e = feedBits ys t e' := by
  induction xs generalizing s e with
  | nil => simp only [feedBits, Walk.ok.injEq] at h; simp [h.1, h.2]
  | cons x xs ih =>
    rw [List.cons_append, feedBits]
    rw [feedBits] at h
    rcases hu : ubit x s e with ⟨s1, e1⟩ | ⟨err, s1⟩ | _ <;> rw [hu] at h <;> simp only [reduceCtorEq] at h ⊢
    exact ih h

/-- A bit with no symbol owed raises E_DEC_TRAIL, with the effects of the bits before it (R96; 60_exceptions.md R111). -/
theorem feedBits_trail {bits : List Bool} {s : State} {k : Nat} {syms : List Byte} {u : NodeIdx} (hk : k < bits.length)
    (hd : s.decodeBits s.uNode (bits.take k) = some (syms, u)) (ho : s.Owes (bits.take k)) (hn : syms.length = s.uRem.toNat) (e : Nat) :
    feedBits bits s e = .raised .decTrail (s.walked k syms u) := by
  have h : feedBits (bits.take k) s e = .ok (s.walked k syms u) (e + syms.length) := by
    simpa [Nat.min_eq_left hk.le] using feedBits_of_decode hd ho e
  have hr : (s.walked k syms u).uRem = 0 := by
    show s.uRem - BitVec.ofNat 24 syms.length = 0
    rw [hn]; simp
  rw [← List.take_append_drop k bits, feedBits_append h, List.drop_eq_getElem_cons hk, feedBits]
  simp [ubit, hr]

/-- A 1 bit at a leaf, with a symbol owed, raises E_DEC_BADBIT, with the effects of the bits before it (R96; 60_exceptions.md R111). -/
theorem feedBits_badbit {bits : List Bool} {s : State} {k : Nat} {syms : List Byte} {u : NodeIdx}
    (hd : s.decodeBits s.uNode (bits.take k) = some (syms, u)) (hb : bits[k]? = some true)
    (hlt : syms.length < s.uRem.toNat) (hl : (s.nodeAt? u).map Node.leaf = some true) (e : Nat) :
    feedBits bits s e = .raised .decBadbit (s.walked k syms u) := by
  obtain ⟨hk, hbk⟩ := List.getElem?_eq_some_iff.1 hb
  obtain ⟨n, hn, hnl⟩ := Option.map_eq_some_iff.1 hl
  have h : feedBits (bits.take k) s e = .ok (s.walked k syms u) (e + syms.length) := by
    simpa [Nat.min_eq_left hk.le] using feedBits_of_decode hd (owes_of_length hd hlt) e
  have hr : (s.walked k syms u).uRem ≠ 0#24 := by
    intro e0
    have h0 : (s.uRem - BitVec.ofNat 24 syms.length).toNat = 0 := congrArg BitVec.toNat e0
    have := s.uRem.isLt
    simp [BitVec.toNat_sub] at h0; omega
  rw [← List.take_append_drop k bits, feedBits_append h, List.drop_eq_getElem_cons hk, hbk, feedBits]
  simp [ubit, hr, show (s.walked k syms u).nodeAt? (s.walked k syms u).uNode = some n from hn, hnl]

/-- The path of a leaf, walked from the internal node it starts at, emits exactly the leaf's symbol and leads to ROOT (R96;
42_code_generator.md R86). -/
theorem feedBits_path {t : HTree} : ∀ {s : State} {l r : HTree}, t = .node l r → Rep (s.node[·]?) s.uNode.toNat t →
    s.uRem ≠ 0 → ∀ x ∈ t.paths, ∀ e,
      feedBits x.2 s e = .ok (s.walked x.2.length [x.1] s.root) (e + 1) := by
  induction t with
  | leaf sym => intro s l r h; cases h
  | node l r ihl ihr =>
    intro s _ _ _ hrep hr x hx e
    obtain ⟨n, hn, hleaf, h1, h2⟩ := hrep
    have step : ∀ (b : Bool) (c : HTree) (p : Byte × List Bool), Rep (s.node[·]?) (if b then n.right else n.left).toNat c →
        p ∈ c.paths → (∀ {s : State} {l r : HTree}, c = .node l r → Rep (s.node[·]?) s.uNode.toNat c →
          s.uRem ≠ 0 → ∀ x ∈ c.paths, ∀ e, feedBits x.2 s e = .ok (s.walked x.2.length [x.1] s.root) (e + 1)) →
        feedBits (b :: p.2) s e = .ok (s.walked (p.2.length + 1) [p.1] s.root) (e + 1) := by
      intro b c p hc hp ih
      cases c with
      | leaf sym =>
        obtain ⟨m, hm, hml, rfl⟩ := hc
        simp only [HTree.paths, List.mem_singleton] at hp
        subst hp
        have : ubit b s e = .ok (s.walked 1 [m.sym] s.root) (e + 1) := by
          simp [ubit, show ¬ s.uRem = 0#24 from hr, State.nodeAt?, show s.node[s.uNode.toNat]? = some n from hn, hleaf,
            show s.node[(if b then n.right else n.left).toNat]? = some m from hm, hml, State.walked, emitSym, State.emit]
        simp [feedBits, this]
      | node cl cr =>
        obtain ⟨m, hm, hml, hcl, hcr⟩ := hc
        have hu : ubit b s e = .ok { s with uNode := if b then n.right else n.left, uUsed := s.uUsed + 1 } e := by
          simp [ubit, show ¬ s.uRem = 0#24 from hr, State.nodeAt?, show s.node[s.uNode.toNat]? = some n from hn, hleaf,
            show s.node[(if b then n.right else n.left).toNat]? = some m from hm, hml]
        rw [feedBits, hu]
        show feedBits p.2 _ e = _
        rw [ih (s := { s with uNode := if b then n.right else n.left, uUsed := s.uUsed + 1 }) rfl ⟨m, hm, hml, hcl, hcr⟩ hr p hp e]
        simp [State.walked, BitVec.add_assoc, BitVec.ofNat_add, BitVec.add_comm (1#32)]
    simp only [HTree.paths, List.mem_append, List.mem_map] at hx
    rcases hx with ⟨p, hp, rfl⟩ | ⟨p, hp, rfl⟩
    · exact step false l p h1 hp ihl
    · exact step true r p h2 hp ihr

end Sys2Proof.Laws
end

