-- ==== Sys2Proof/Tests/Slice0.lean ====
section
/-! SUPPORT. The model's own tests: the assembler's checks on ill-formed terms, decoding of words written out from the spec's
encodings, one-step tests whose expected values are the vectors of 95_test_vectors.md, and for every statement with hypotheses a
witness that meets them. -/

open Sys2Proof Sys2Proof.Machine Sys2Proof.Claims

namespace Sys2Proof.Tests

-- One theorem after another: each of the evaluations below needs memory of its own.
set_option Elab.async false

/-! ## Helpers -/

/-- The state a command leads to; the state itself when it stops. -/
def after (i : Instr) (s : State) : State :=
  match exec i s with
  | .next t => t
  | _ => s

/-- The state a list of commands leads to. -/
def afterAll (is : List Instr) (s : State) : State := is.foldl (fun s i => after i s) s

/-- Reset with the table of "ABRACADABRA" loaded (V-TB-1). -/
def abraFreq : State := afterAll (Pseudo.loadFreq [(0x41, 5), (0x42, 2), (0x43, 1), (0x44, 1), (0x52, 2)]).expand State.reset

/-- The tree of V-TB-1. -/
def abraTree : State := after .build abraFreq

/-- The codes of V-CG-1. -/
def abraCodes : State := after .gencodes abraTree

/-- An open pack session on V-CG-1. -/
def abraPack : State := after .packBegin abraCodes

/-- That session with one code bit waiting. -/
def abraPackA : State := after (.packSym 0x41) abraPack

/-- An open unpack session on V-TB-1 with 1 padding bit (V-UP-1). -/
def abraUnpack : State := after (.unpackBegin 1) abraCodes

/-- V-UP-1 before its last byte: 3 symbols are owed. -/
def abraUnpackLast : State := afterAll [.unpackFeed 0x6E, .unpackFeed 0x8A] abraUnpack

/-- V-UP-1 before its UNPACK_END. -/
def abraUnpackDone : State := after (.unpackLast 0xDC) abraUnpackLast

/-- The single-symbol tree of V-TB-5, with its codes. -/
def oneSymbol : State := afterAll [.freqWr 0x61 238, .build, .gencodes] State.reset

/-- An open unpack session on it. -/
def oneUnpack : State := after (.unpackBegin 2) oneSymbol

/-- The tie of V-TB-2. -/
def tieTree : State := afterAll [.freqWr 0x61 1, .freqWr 0x62 1, .freqWr 0x63 2, .build] State.reset

/-- A pending E_SEQ: NODE_WT 0 from reset (V-TB-8). -/
def pending : State := after (.nodeWt 0) State.reset

/-- V-UP-1's first byte at the command port of a block whose OUTQ holds 3 bytes, which its four symbols overfill. -/
def fullOutput : State := { abraUnpack with outDepth := .fifo 2, inbox := [.command 0x4100006E] }

/-- The state a step leads to; the state itself when it stops. -/
def stepped (s : State) : State :=
  match step s with
  | .next t => t
  | _ => s

/-! ## Ill-formed assembly is refused, by name (30_encoding.md R73) -/

theorem test_asm_accepts_freqWr : assemble ⟨.freqWr, [.num 0x41, .num 5]⟩ = .ok (.freqWr 0x41 5) := by decide
theorem test_asm_accepts_register_name : assemble ⟨.regRd, [.reg .pBytes]⟩ = .ok (.regRd 9) := by decide
theorem test_asm_refuses_count : (AsmCmd.mk .build [.num 0]).problem = some .operandCount := by decide
theorem test_asm_refuses_missing : (AsmCmd.mk .freqWr [.num 0]).problem = some .operandCount := by decide
theorem test_asm_refuses_register : (AsmCmd.mk .packSym [.reg .id]).problem = some .registerName := by decide
theorem test_asm_refuses_sym : (AsmCmd.mk .packSym [.num 256]).problem = some .symTooWide := by decide
theorem test_asm_refuses_cnt : (AsmCmd.mk .freqWr [.num 0, .num 65536]).problem = some .cntTooWide := by decide
theorem test_asm_refuses_idx : (AsmCmd.mk .nodeWt [.num 512]).problem = some .idxTooWide := by decide
theorem test_asm_refuses_k : (AsmCmd.mk .codeBits [.num 0, .num 8]).problem = some .kTooWide := by decide
theorem test_asm_refuses_pad : (AsmCmd.mk .unpackBegin [.num 8]).problem = some .padTooWide := by decide
theorem test_asm_wellFormed_refuses : (AsmCmd.mk .unpackBegin [.num 8]).wellFormed = false := by decide
theorem test_line_packSym : (assembleLine "PACK_SYM 'A' ; the first").toOption = some (some (.packSym 0x41)) := by decide +kernel
theorem test_line_refuses_mnemonic : (match assembleLine "JUMP 3" with | .error e => some e | .ok _ => none) = some .unknownMnemonic := by decide
theorem test_line_refuses_operand : (match assembleLine "NODE_WT x1" with | .error e => some e | .ok _ => none) = some .badOperand := by decide

/-! ## Decoding: words written out from 30_encoding.md R65, R68 and the command rules' examples -/

theorem test_decode_nop : decode 0x00000000 = .ok .nop := by decide
theorem test_decode_freqWr : decode 0x01FFFF41 = .ok (.freqWr 0x41 0xFFFF) := by decide
theorem test_decode_freqRd : decode 0x020000FF = .ok (.freqRd 0xFF) := by decide
theorem test_decode_freqClr : decode 0x03000000 = .ok .freqClr := by decide
theorem test_decode_build : decode 0x10000000 = .ok .build := by decide
theorem test_decode_nodeWt : decode 0x110001FF = .ok (.nodeWt 0x1FF) := by decide
theorem test_decode_nodeLnk : decode 0x12000008 = .ok (.nodeLnk 8) := by decide
theorem test_decode_gencodes : decode 0x20000000 = .ok .gencodes := by decide
theorem test_decode_codeLen : decode 0x21000042 = .ok (.codeLen 0x42) := by decide
theorem test_decode_codeBits : decode 0x22000742 = .ok (.codeBits 0x42 7) := by decide
theorem test_decode_packBegin : decode 0x30000000 = .ok .packBegin := by decide
theorem test_decode_packSym : decode 0x31000041 = .ok (.packSym 0x41) := by decide
theorem test_decode_packFlush : decode 0x32000000 = .ok .packFlush := by decide
theorem test_decode_unpackBegin : decode 0x40000007 = .ok (.unpackBegin 7) := by decide
theorem test_decode_unpackFeed : decode 0x4100006E = .ok (.unpackFeed 0x6E) := by decide
theorem test_decode_unpackLast : decode 0x420000DC = .ok (.unpackLast 0xDC) := by decide
theorem test_decode_unpackEnd : decode 0x43000000 = .ok .unpackEnd := by decide
theorem test_decode_regRd : decode 0xF0000013 = .ok (.regRd 0x13) := by decide
theorem test_decode_errClr : decode 0xF1000000 = .ok .errClr := by decide
theorem test_decode_sreset : decode 0xFF000000 = .ok .sreset := by decide
theorem test_decode_unknown : decode 0x05000000 = .error .unknownOpcode := by decide
theorem test_decode_reserved : decode 0x40000008 = .error (.reservedBits 8) := by decide

/-! ## One step each (95_test_vectors.md, sections 2 and 3) -/

theorem test_freqWr : (after (.freqWr 0x41 5) State.reset).total = 5 := by decide +kernel
theorem test_freqWr_invalidates : (after (.freqWr 0x41 5) abraCodes).status = 0 := by decide +kernel
theorem test_freqRd : (after (.freqRd 0x41) abraFreq).resp = 5 := by decide +kernel
theorem test_freqClr : (after .freqClr abraFreq).total = 0 := by decide +kernel
theorem test_build_abra : (abraTree.resp, abraTree.status) = (0x00050008, 0x02) := by decide +kernel
theorem test_build_tie : (after (.nodeLnk 4) tieTree).resp = 0x00030002 := by decide +kernel
theorem test_nodeWt : (after (.nodeWt 8) abraTree).resp = 0x0000000B := by decide +kernel
theorem test_nodeWt_range : (after (.nodeWt 9) abraTree).errInfo = 9 := by decide +kernel
theorem test_nodeLnk_inner : (after (.nodeLnk 5) abraTree).resp = 0x00030002 := by decide +kernel
theorem test_nodeLnk_leaf : (after (.nodeLnk 4) abraTree).resp = 0x80000052 := by decide +kernel
theorem test_gencodes : abraCodes.resp = 3 := by decide +kernel
theorem test_codeLen : (after (.codeLen 0x5A) abraCodes).resp = 0 := by decide +kernel
theorem test_codeBits : (after (.codeBits 0x44 0) abraCodes).resp = 0xA0000000 := by decide +kernel
theorem test_packBegin : abraPack.status = 0x26 := by decide +kernel
theorem test_packSym_waits : ((afterAll [.packSym 0x42, .packSym 0x52] abraPackA).acc, (afterAll [.packSym 0x42, .packSym 0x52] abraPackA).nacc) = (0x37, 7) := by decide +kernel
theorem test_packSym_emits : (afterAll [.packSym 0x42, .packSym 0x52, .packSym 0x41] abraPackA).outq = [0x6E] := by decide +kernel
theorem test_packFlush : ((after .packFlush abraPackA).outq, (after .packFlush abraPackA).resp) = ([0x00], 7) := by decide +kernel
theorem test_unpackBegin : (abraUnpack.uRem, abraUnpack.uNode, abraUnpack.resp) = (11, 8, 0xB) := by decide +kernel
theorem test_unpackFeed : ((after (.unpackFeed 0x6E) abraUnpack).outq, (after (.unpackFeed 0x6E) abraUnpack).uRem) = ([0x41, 0x42, 0x52, 0x41], 7) := by decide +kernel
theorem test_unpackLast : (abraUnpackDone.resp, abraUnpackDone.uUsed) = (3, 23) := by decide +kernel
theorem test_unpackLast_eos : ((after (.unpackLast 0x6E) abraUnpack).status, (after (.unpackLast 0x6E) abraUnpack).errInfo) = (0x87, 7) := by decide +kernel
theorem test_unpackEnd : ((after .unpackEnd abraUnpackDone).resp, (after .unpackEnd abraUnpackDone).status) = (11, 0x86) := by decide +kernel
theorem test_unpackEnd_eos : ((after .unpackEnd abraUnpack).errCode, (after .unpackEnd abraUnpack).errInfo) = (6, 0) := by decide +kernel
theorem test_regRd_id : (after (.regRd 0x13) State.reset).resp = 0x48554601 := by decide +kernel
theorem test_regRd_range : ((after (.regRd 0x14) State.reset).errCode, (after (.regRd 0x14) State.reset).errInfo) = (3, 0x14) := by decide +kernel
theorem test_errClr : ((after .errClr pending).resp, (after .errClr pending).status) = (2, 0) := by decide +kernel
theorem test_nop : (after .nop abraTree).resp = 0 := by decide +kernel
theorem test_sreset : (after .sreset abraUnpackDone).outq = [] := by decide +kernel
theorem test_step_illegal : (match step (State.reset.withFetchWord 32 0x10000001) with | .next t => some (t.errCode, t.errInfo, t.errCmd) | _ => none) = some (1, 1, 0x10000001) := by decide +kernel
theorem test_step_waits : (fun t => (t.cmdReady, t.done, t.respData, t.outq.length)) (stepped fullOutput) = (false, false, 11, 4) := by decide +kernel
theorem test_step_drained : (fun t => (t.cmdReady, t.done, t.respData, t.outq)) (stepped { stepped fullOutput with inbox := [.command 0, .drain] }) = (true, true, 4, [0x42, 0x52, 0x41]) := by decide +kernel
theorem test_container_raw : compress [0x41, 0x42, 0x41] State.reset = some [0x00, 0x41, 0x42, 0x41] := by decide +kernel

/-! ## Witnesses: concrete values that meet the hypotheses of each statement, one for each of its clauses -/

/-- A command runs to a next state. -/
def runs (i : Instr) (s : State) : Bool :=
  match exec i s with
  | .next _ => true
  | _ => false

theorem exec_of_runs {i : Instr} {s : State} (h : runs i s = true) : exec i s = .next (after i s) := by
  unfold runs at h; unfold after; split at h <;> simp_all

/-- A step goes on. -/
def steps (s : State) : Bool :=
  match step s with
  | .next _ => true
  | _ => false

theorem step_of_steps {s : State} (h : steps s = true) : step s = .next (stepped s) := by
  unfold steps at h; unfold stepped; split at h <;> simp_all

/-- `State.Owes` as a check that can be evaluated. -/
def owesCheck (s : State) (bits : List Bool) : Bool :=
  (List.range bits.length).all fun k =>
    (s.decodeBits s.uNode (bits.take k)).all fun p => decide (p.1.length < s.uRem.toNat)

theorem owes_of_check {s : State} {bits : List Bool} (h : owesCheck s bits = true) : s.Owes bits := by
  intro k hk syms u e
  simpa [e] using List.all_eq_true.1 h k (List.mem_range.2 hk)

theorem inSession_of {s : State} (h : s.sessionOpen = true) : InSession s := by
  simpa [InSession, State.sessionOpen] using h

theorem idle_of {s : State} (h : s.sessionOpen = false) : ¬ InSession s := by
  simpa [InSession, State.sessionOpen] using h

/-- `State.Inv` as a check that can be evaluated, the parts about the tree and the codes. -/
def treeCheck (s : State) : Bool :=
  decide (s.treeValid = true → (s.node.toList.take (buildArena s.freq).length = buildArena s.freq ∧
    s.nodeCnt = BitVec.ofNat 10 (buildArena s.freq).length ∧ s.root = rootOf (buildArena s.freq) ∧
    s.leafCnt = BitVec.ofNat 9 (leafArena s.freq).length)) &&
  decide (s.codesValid = true → (codeTable s.node s.root).map Vector.toList = some s.code.toList)

/-- The parts about the flags and the sessions. -/
def sessionCheck (s : State) : Bool :=
  decide (¬ (s.packOpen = true ∧ s.unpackOpen = true)) && decide (s.packOpen = true → s.codesValid = true) &&
  decide (s.unpackOpen = true → s.treeValid = true) && decide (s.codesValid = true → s.treeValid = true) &&
  decide (s.empty = (s.treeValid && s.leafCnt == 0)) && decide (s.single = (s.treeValid && s.leafCnt == 1)) &&
  decide (s.err = false → s.errCode = 0) && decide (s.err = true → 1 ≤ s.errCode ∧ s.errCode ≤ 7) &&
  decide (fits s.outDepth s.outq.length = s.executing.isNone) && decide (s.executing.all (fun shown => !shown.err) = true) &&
  decide (s.done = true → s.executing = none)

/-- The packer's part. -/
def packerCheck (s : State) : Bool :=
  decide (s.nacc ≤ 7) && decide (s.acc.toNat < 2 ^ s.nacc.toNat) && decide (s.packOpen = false → s.nacc = 0 ∧ s.acc = 0) &&
  decide (s.packOpen = true → 8#32 * s.pBytes + s.nacc.setWidth 32 = s.pBits) &&
  decide (s.packOpen = false → 8#32 * s.pBytes - s.pPad.setWidth 32 = s.pBits)

/-- The unpacker's part. -/
def unpackerCheck (s : State) : Bool :=
  decide (s.unpackOpen = true → s.uNode = s.root ∨ (s.uNode < s.root ∧ (s.nodeAt? s.uNode).map Node.leaf = some false)) &&
  decide (s.unpackOpen = true → s.uRem = 0 → s.uNode = s.root) &&
  decide (s.unpackOpen = true → s.uUsed = 0 → s.uNode = s.root) &&
  decide (s.unpackOpen = true → s.uUsed.toNat + s.uNode.toNat ≤ 255 * s.uSyms.toNat + s.root.toNat) &&
  decide (s.unpackOpen = true → s.uRem ≤ s.total ∧ s.uRem.setWidth 32 + s.uSyms = s.total.setWidth 32) &&
  decide (s.unpackOpen = true → s.uUsed = 8#32 * s.uFed - (if s.uLast then s.uPad.setWidth 32 else 0)) &&
  decide (s.unpackOpen = true → s.uLast = true → s.uRem = 0)

theorem good_of_check {s : State} (h : (treeCheck s && (sessionCheck s && (packerCheck s && unpackerCheck s))) = true) :
    s.Inv := by
  simp only [Bool.and_eq_true] at h
  obtain ⟨h1, h2, h3, h4⟩ := h
  simp only [treeCheck, sessionCheck, packerCheck, unpackerCheck, Bool.and_eq_true, decide_eq_true_eq] at h1 h2 h3 h4
  obtain ⟨a1, a2⟩ := h1
  obtain ⟨⟨⟨⟨⟨⟨⟨⟨⟨⟨b1, b2⟩, b3⟩, b4⟩, b5⟩, b6⟩, b7⟩, b8⟩, b9⟩, b10⟩, b11⟩ := h2
  obtain ⟨⟨⟨⟨c1, c2⟩, c3⟩, c4⟩, c5⟩ := h3
  obtain ⟨⟨⟨⟨⟨⟨d1, d2⟩, d3⟩, d4⟩, d5⟩, d6⟩, d7⟩ := h4
  have a2' : s.codesValid = true → s.CodesCurrent := fun h => by
    obtain ⟨t, ht, e⟩ := Option.map_eq_some_iff.1 (a2 h)
    rw [State.CodesCurrent, ht, Vector.toList_inj.1 e]
  exact ⟨b1, b2, b3, b4, a1, a2', b5, b6, c1, c2, c3, c4, c5, d1, d2, d3, d4, d5, d6, d7, b7, b8, b9,
    fun shown e => by simpa [e] using b10, b11⟩

theorem good_tree : abraTree.Inv :=
  good_of_check (by decide +kernel)
theorem good_codes : abraCodes.Inv :=
  good_of_check (by decide +kernel)
theorem good_pack : abraPackA.Inv :=
  good_of_check (by decide +kernel)
theorem good_unpack : abraUnpack.Inv :=
  good_of_check (by decide +kernel)
theorem good_last : abraUnpackLast.Inv :=
  good_of_check (by decide +kernel)
theorem good_done : abraUnpackDone.Inv :=
  good_of_check (by decide +kernel)
theorem good_one : oneSymbol.Inv :=
  good_of_check (by decide +kernel)
theorem good_oneUnpack : oneUnpack.Inv :=
  good_of_check (by decide +kernel)

/-! ### Encoding and stepping -/

theorem witness_EncodeOfDecode : decode 0x22000742 = .ok (.codeBits 0x42 7) := by decide
theorem witness_StepRuns_next : State.reset.executing = none ∧ decode 0x01000541 = .ok (.freqWr 0x41 5) ∧
    exec (.freqWr 0x41 5) State.reset = .next (after (.freqWr 0x41 5) State.reset) ∧
    fits (after (.freqWr 0x41 5) State.reset).outDepth (after (.freqWr 0x41 5) State.reset).outq.length = true :=
  ⟨rfl, by decide, exec_of_runs (by decide +kernel), by decide +kernel⟩
theorem witness_StepRuns_fault : decode 0x110001FF = .ok (.nodeWt 511) ∧
    exec (.nodeWt 511) { State.reset with treeValid := true, nodeCnt := 512 } = .fault .arenaMalformed :=
  ⟨by decide, rfl⟩
theorem witness_Illegal_opcodes :
    State.reset.executing = none ∧ pending.executing = none ∧
    fits State.reset.outDepth State.reset.outq.length = true ∧ State.reset.err = false ∧ pending.err = true ∧
    [0x04, 0x0F, 0x13, 0x1F, 0x23, 0x2F, 0x33, 0x3F, 0x44, 0xEF, 0xF2, 0xFE].all (fun op : Byte =>
      ((0x04 ≤ op ∧ op ≤ 0x0F) ∨ (0x13 ≤ op ∧ op ≤ 0x1F) ∨ (0x23 ≤ op ∧ op ≤ 0x2F) ∨ (0x33 ≤ op ∧ op ≤ 0x3F) ∨
        (0x44 ≤ op ∧ op ≤ 0xEF) ∨ (0xF2 ≤ op ∧ op ≤ 0xFE)) &&
      (legalOpcodes.map Prod.fst).all (· ≠ op)) = true := by decide +kernel
theorem witness_Illegal_reserved :
    [(0x10800000, Format.n), (0x31000100, .s8), (0x11000200, .i9), (0x22000800, .sk), (0x40000008, .p3)].all
      (fun p : Word × Format => (opField p.1, p.2) ∈ legalOpcodes && p.1 &&& reservedBits p.2 ≠ 0) = true := by decide +kernel
theorem witness_HostEvents : State.reset.executing = none ∧
    ({ State.reset with inbox := [.drain], outq := [7] } : State).outq = 7 :: [] ∧
    ({ State.reset with inbox := [.drain] } : State).outq = [] ∧ ({ State.reset with inbox := [.rst] } : State).inbox = .rst :: [] ∧
    State.reset.inbox = [] := by decide +kernel

theorem witness_FullOutput_starts : fullOutput.executing = none ∧ decode 0x4100006E = .ok (.unpackFeed 0x6E) ∧
    exec (.unpackFeed 0x6E) { fullOutput with inbox := [] } = .next (after (.unpackFeed 0x6E) { fullOutput with inbox := [] }) ∧
    fits (.fifo 2) (after (.unpackFeed 0x6E) { fullOutput with inbox := [] }).outq.length = false :=
  ⟨by decide +kernel, by decide, exec_of_runs (by decide +kernel), by decide +kernel⟩

/-- The block while that command waits: 4 bytes for a depth of 3. -/
def waiting3 : State := stepped fullOutput

/-- The same with a depth of 1: 3 bytes in excess. -/
def waiting1 : State := stepped { fullOutput with outDepth := .fifo 0 }

theorem witness_FullOutput_waits : waiting3.executing = some ⟨11, false⟩ ∧ waiting1.executing = some ⟨11, false⟩ ∧
    fits waiting3.outDepth (waiting3.outq.length - 1) = true ∧ fits waiting1.outDepth (waiting1.outq.length - 1) = false ∧
    (∀ ev ∈ [HostEvent.command 7], ∃ w, ev = .command w) :=
  ⟨by decide +kernel, by decide +kernel, by decide +kernel, by decide +kernel, fun ev h => ⟨7, by simpa using h⟩⟩
theorem witness_FullOutput_drained : waiting1.outDepth = .fifo 0 ∧ waiting1.outq.length = 0 + 1 + 3 ∧
    [HostEvent.drain, .command 7, .drain, .drain, .rst] = [.drain, .command 7, .drain] ++ .drain :: [.rst] ∧
    HostEvent.rst ∉ [HostEvent.drain, .command 7, .drain] ∧ [HostEvent.drain, .command 7, .drain].count .drain + 1 = 3 := by
  decide +kernel
theorem good_waiting : waiting3.Inv := good_of_check (by decide +kernel)
theorem witness_Ports : step fullOutput = .next waiting3 ∧ fullOutput.cmdReady = true ∧ waiting3.cmdReady = false ∧
    waiting3.done = false :=
  ⟨step_of_steps (by decide +kernel), by decide +kernel⟩

/-! ### Errors -/

theorem witness_Pending : pending.executing = none ∧ fits pending.outDepth pending.outq.length = true ∧ pending.err = true ∧
    decode 0x10000000 = .ok .build ∧ decode 0xF0000014 = .ok (.regRd 0x14) ∧ decode 0xF0000013 = .ok (.regRd 0x13) ∧
    (0x13 : Byte) ≤ 0x13 ∧ ¬ (0x14 : Byte) ≤ 0x13 ∧ decode 0x04000000 = .error .unknownOpcode ∧ decode 0 = .ok .nop ∧
    decode 0xF1000000 = .ok .errClr ∧ decode 0xFF000000 = .ok .sreset := by decide +kernel
theorem witness_Sequencing_false : State.reset.err = false ∧ abraPack.err = false ∧ InSession abraPack ∧
    (∀ i ∈ [Instr.gencodes, .nodeWt 0, .nodeLnk 0, .codeLen 0, .codeBits 0 0, .packBegin, .packSym 0, .packFlush,
      .unpackBegin 0, .unpackFeed 0, .unpackLast 0, .unpackEnd], ¬ SequenceAllows State.reset i) ∧
    (∀ i ∈ [Instr.freqWr 0 0, .freqClr, .build], ¬ SequenceAllows abraPack i) :=
  have h : InSession abraPack := inSession_of (by decide +kernel)
  ⟨by decide, by decide +kernel, h,
    by simp [SequenceAllows, InSession, State.reset], by simp [SequenceAllows, h]⟩
theorem witness_Sequencing_true : SequenceAllows State.reset (.freqWr 0 0) ∧ SequenceAllows abraTree .gencodes ∧
    SequenceAllows abraCodes .packBegin ∧ SequenceAllows abraPack (.packSym 0x41) ∧
    SequenceAllows abraUnpackLast (.unpackLast 0xDC) ∧ SequenceAllows abraUnpackDone .unpackEnd :=
  ⟨idle_of (by decide), ⟨by decide +kernel, idle_of (by decide +kernel)⟩,
    ⟨by decide +kernel, idle_of (by decide +kernel)⟩, show abraPack.packOpen = true by decide +kernel,
    ⟨by decide +kernel, by decide +kernel⟩, ⟨by decide +kernel, .inr (by decide +kernel)⟩⟩
theorem witness_ErrorsRecorded : State.reset.err = false ∧ exec (.nodeWt 0) State.reset = .next pending ∧
    pending.err = true ∧ pending.errCode = 2 ∧ abraUnpack.err = false ∧
    exec (.unpackLast 0x6E) abraUnpack = .next (after (.unpackLast 0x6E) abraUnpack) ∧
    (after (.unpackLast 0x6E) abraUnpack).errCode = 6 :=
  ⟨by decide, exec_of_runs (by decide +kernel), by decide +kernel, by decide +kernel, by decide +kernel,
    exec_of_runs (by decide +kernel), by decide +kernel⟩
theorem witness_FirstErrorIsKept : pending.err = true ∧ exec .unpackEnd pending = .next (after .unpackEnd pending) :=
  ⟨by decide +kernel, exec_of_runs (by decide +kernel)⟩
theorem witness_ErrClr : State.reset.err = false ∧ State.reset.errCode = 0 := by decide

/-! ### Control -/

theorem witness_RegRd : (0x13 : Byte) < 0x14 ∧ State.reset.err = false ∧ pending.err = true := by decide +kernel
theorem witness_AfterReset : abraPack.toReset.err = false ∧ Instr.gencodes ∉ [Instr.nop, .freqClr, .build, .errClr, .sreset] ∧
    (∃ v, Instr.regRd 0x13 = .regRd v ∧ v ≤ 0x13) := ⟨rfl, by decide, 0x13, rfl, by decide⟩
theorem witness_ReadsChangeOnlyResp : abraTree.err = false ∧ OnlyReads (.nodeLnk 8) ∧
    exec (.nodeLnk 8) abraTree = .next (after (.nodeLnk 8) abraTree) ∧ (after (.nodeLnk 8) abraTree).err = false :=
  ⟨by decide +kernel, trivial, exec_of_runs (by decide +kernel), by decide +kernel⟩
theorem witness_EachCommand : exec .freqClr abraCodes = .next (after .freqClr abraCodes) ∧
    exec .build abraCodes = .next (after .build abraCodes) ∧ exec .packBegin abraCodes = .next (after .packBegin abraCodes) ∧
    exec (.unpackBegin 1) abraCodes = .next abraUnpack ∧ ¬ IsPack .build ∧ ¬ IsUnpack .build ∧ ¬ IsPack (.unpackBegin 1) ∧
    ¬ IsUnpack .packBegin :=
  ⟨exec_of_runs (by decide +kernel), exec_of_runs (by decide +kernel), exec_of_runs (by decide +kernel),
    exec_of_runs (by decide +kernel), id, id, id, id⟩

/-! ### The frequency table and the tree -/

theorem witness_inSession : abraPack.err = false ∧ InSession abraPack ∧ abraUnpack.err = false ∧ InSession abraUnpack :=
  ⟨by decide +kernel, inSession_of (by decide +kernel), by decide +kernel, inSession_of (by decide +kernel)⟩
theorem witness_idle : abraFreq.err = false ∧ ¬ InSession abraFreq ∧ (0x42 : Byte) ≠ 0x41 :=
  ⟨by decide +kernel, idle_of (by decide +kernel), by decide⟩
theorem witness_BuildOfTheEmptyTable : State.reset.err = false ∧ ¬ InSession State.reset ∧
    ∀ sym, State.reset.freqAt sym = 0 :=
  ⟨by decide, idle_of (by decide), fun sym => by simp [State.freqAt, State.reset]⟩

/-- One count, and no tree yet. -/
def oneCount : State := State.reset.setFreq 0x61 238

theorem witness_BuildOfASingleSymbol : oneCount.err = false ∧ ¬ InSession oneCount ∧ oneCount.freqAt 0x61 ≠ 0 ∧
    ∀ other, other ≠ 0x61 → oneCount.freqAt other = 0 := by
  refine ⟨by decide +kernel, idle_of (by decide +kernel), by decide +kernel, fun other h => ?_⟩
  simp only [State.freqAt, oneCount, State.setFreq]
  rw [Vector.getElem_set_ne _ _ fun e => h (BitVec.eq_of_toNat_eq e.symm)]
  simp [State.reset]
theorem witness_Leaves : exec .build abraFreq = .next abraTree ∧ abraFreq.freqAt 0x52 ≠ 0 ∧ leavesBelow abraFreq 0x52 = 4 ∧
    entry abraTree 4 = some ⟨true, 0x52, 2, 0x1FF, 0x1FF⟩ :=
  ⟨exec_of_runs (by decide +kernel), by decide +kernel⟩
theorem witness_Merges : leafTotal abraFreq = 5 ∧ abraTree.nodeCnt.toNat = 9 ∧ (1 : Nat) ≤ leafTotal abraFreq ∧
    (entry abraTree 8).map (fun m => (m.left, m.right)) = some (0, 7) ∧ (entry abraTree 7).map Node.wt = some 6 := by
  decide +kernel
theorem witness_NodeWt : abraTree.err = false ∧ abraTree.treeValid = true ∧ abraTree.nodeCnt.toNat ≤ (9 : NodeIdx).toNat ∧
    (8 : NodeIdx).toNat < abraTree.nodeCnt.toNat ∧ (abraTree.nodeAt? 8).isSome = true ∧ State.reset.treeValid = false := by
  decide +kernel

/-! ### The codes -/

theorem witness_Gencodes : abraTree.Inv ∧ abraTree.treeValid = true ∧ ¬ InSession abraTree ∧ State.reset.treeValid = false :=
  ⟨good_tree, by decide +kernel, idle_of (by decide +kernel), rfl⟩
theorem witness_Codes : abraCodes.Inv ∧ abraCodes.codesValid = true ∧ 2 ≤ leafTotal abraCodes ∧
    (abraCodes.codeAt 0x41).len ≠ 0 ∧ (abraCodes.codeAt 0x44).len ≠ 0 ∧ (0x41 : Byte) ≠ 0x44 ∧
    (abraCodes.codeAt 0x44).len.toNat ≤ 3 :=
  ⟨good_codes, by decide +kernel⟩
theorem witness_SingleLeaf : oneSymbol.Inv ∧ oneSymbol.err = false ∧ oneSymbol.treeValid = true ∧ oneSymbol.single = true ∧
    ¬ InSession oneSymbol ∧ exec .gencodes oneSymbol = .next (after .gencodes oneSymbol) ∧ oneSymbol.freqAt 0x61 ≠ 0 :=
  ⟨good_one, by decide +kernel, by decide +kernel, by decide +kernel, idle_of (by decide +kernel),
    exec_of_runs (by decide +kernel), by decide +kernel⟩
theorem witness_CodeLen : abraCodes.err = false ∧ abraTree.err = false ∧ abraTree.codesValid = false := by decide +kernel
theorem witness_CodeLen_absent : abraCodes.Inv ∧ abraCodes.codesValid = true ∧ abraCodes.freqAt 0x5A = 0 :=
  ⟨good_codes, by decide +kernel⟩

/-! ### The packer -/

theorem witness_PackSym : abraPackA.err = false ∧ abraPackA.packOpen = true ∧ (abraPackA.codeAt 0x5A).len = 0 ∧
    (abraPackA.codeAt 0x44).len ≠ 0 ∧ PackerClean abraPackA ∧ abraPackA.nacc ≠ 0 ∧ abraPack.nacc = 0 ∧
    abraCodes.packOpen = false :=
  ⟨by decide +kernel, by decide +kernel, by decide +kernel, by decide +kernel,
    ⟨by decide +kernel, by decide +kernel⟩, by decide +kernel⟩
theorem witness_PackerAccounting : PackerAccounts abraPackA ∧ abraPackA.inbox = [] :=
  ⟨⟨good_pack.naccSmall, good_pack.packAccount, good_pack.flushAccount⟩, by decide +kernel⟩

/-- A session with a bit waiting, and a PACK_SYM of a 3-bit code at the port. -/
def packNext : State := { abraPackA with inbox := [.command 0x31000044] }

theorem witness_PackerAccounting_exact : PackerAccountsExactly packNext ∧ BitsDoNotWrap packNext ∧
    step packNext = .next (stepped packNext) := by
  refine ⟨⟨by decide +kernel, by decide +kernel, by decide +kernel⟩, fun w rest sym _ _ _ _ _ => ?_,
    step_of_steps (by decide +kernel)⟩
  have h : packNext.pBits.toNat = 1 := by decide +kernel
  have := (packNext.codeAt sym).len.isLt
  omega
theorem witness_ASessionPacks : abraCodes.Inv ∧ abraCodes.err = false ∧ abraCodes.codesValid = true ∧ ¬ InSession abraCodes ∧
    ∀ sym ∈ [0x44, 0x41, 0x42], (abraCodes.codeAt sym).len ≠ 0 :=
  ⟨good_codes, by decide +kernel, by decide +kernel, idle_of (by decide +kernel), by decide +kernel⟩

/-! ### The unpacker -/

theorem witness_UnpackFeed : abraUnpack.err = false ∧ abraUnpack.unpackOpen = true ∧ abraUnpack.uLast = false ∧
    abraUnpack.decodeBits abraUnpack.uNode (byteBits 0x6E) = some ([0x41, 0x42, 0x52, 0x41], 8) ∧
    abraUnpack.Owes (byteBits 0x6E) :=
  ⟨by decide +kernel, by decide +kernel, by decide +kernel, by decide +kernel, owes_of_check (by decide +kernel)⟩
theorem witness_UnpackFeed_owed : abraUnpack.Inv ∧ abraUnpack.uRem ≠ 0 ∧ abraUnpack.single = false ∧ 8 ≤ abraUnpack.uRem.toNat :=
  ⟨good_unpack, by decide +kernel⟩
theorem witness_UnpackFeed_single : oneUnpack.Inv ∧ oneUnpack.err = false ∧ oneUnpack.unpackOpen = true ∧
    oneUnpack.uLast = false ∧ oneUnpack.uRem ≠ 0 ∧ 8 ≤ oneUnpack.uRem.toNat ∧ oneUnpack.single = true :=
  ⟨good_oneUnpack, by decide +kernel⟩

/-- A session without a code table whose walker stands mid-path: of 'A' five times, 'B' and 'C', with the codes 1, 00 and 01, the byte
11111 00 0 has come, and 'C' is owed. -/
def midPath : State :=
  afterAll [.freqWr 0x41 5, .freqWr 0x42 1, .freqWr 0x43 1, .build, .unpackBegin 7, .unpackFeed 0xF8] State.reset

theorem witness_UnpackLast_midPath : midPath.codesValid = false ∧ midPath.uNode ≠ midPath.root ∧ midPath.err = false ∧
    midPath.unpackOpen = true ∧ midPath.uLast = false ∧
    midPath.decodeBits midPath.uNode (budgetOf midPath (.unpackLast 0x80)) = some ([0x43], 4) ∧
    [(0x43 : Byte)].length = midPath.uRem.toNat ∧ midPath.Owes (budgetOf midPath (.unpackLast 0x80)) :=
  ⟨by decide +kernel, by decide +kernel, by decide +kernel, by decide +kernel, by decide +kernel, by decide +kernel,
    by decide +kernel, owes_of_check (by decide +kernel)⟩

/-- Two symbols with codes of one bit, four of each, and an unpack session just begun: one byte holds all eight codes. -/
def atRoot : State := afterAll [.freqWr 0x61 4, .freqWr 0x62 4, .build, .gencodes, .unpackBegin 0] State.reset

theorem good_atRoot : atRoot.Inv := good_of_check (by decide +kernel)
theorem witness_UnpackLast_codes : atRoot.Inv ∧ atRoot.err = false ∧ atRoot.codesValid = true ∧ atRoot.unpackOpen = true ∧
    atRoot.uLast = false ∧ atRoot.uNode = atRoot.root ∧
    atRoot.uRem.toNat = [0x62, 0x61, 0x61, 0x61, 0x62, 0x62, 0x62, 0x61].length ∧
    (∀ sym ∈ [0x62, 0x61, 0x61, 0x61, 0x62, 0x62, 0x62, 0x61], (atRoot.codeAt sym).len ≠ 0) ∧
    budgetOf atRoot (.unpackLast 0x8E) = [0x62, 0x61, 0x61, 0x61, 0x62, 0x62, 0x62, 0x61].flatMap (codeOf atRoot) :=
  ⟨good_atRoot, by decide +kernel⟩

-- V-UP-4
theorem witness_UnpackLast_eos : abraUnpack.err = false ∧ abraUnpack.unpackOpen = true ∧ abraUnpack.uLast = false ∧
    abraUnpack.decodeBits abraUnpack.uNode (budgetOf abraUnpack (.unpackLast 0x6E)) = some ([0x41, 0x42, 0x52], 8) ∧
    [0x41, 0x42, (0x52 : Byte)].length < abraUnpack.uRem.toNat := by decide +kernel
theorem witness_UnpackEnd : abraUnpackDone.err = false ∧ abraUnpackDone.unpackOpen = true ∧ abraUnpackDone.uLast = true ∧
    abraUnpackDone.uRem = 0 ∧ abraUnpack.unpackOpen = true ∧ abraUnpack.uFed = 0 ∧ abraUnpack.uRem ≠ 0 ∧
    abraUnpackLast.uFed ≠ 0 ∧ abraUnpackLast.uLast = false ∧ exec .unpackEnd abraUnpackDone = .next (after .unpackEnd abraUnpackDone) ∧
    (after .unpackEnd abraUnpackDone).err = false :=
  ⟨by decide +kernel, by decide +kernel, by decide +kernel, by decide +kernel, by decide +kernel, by decide +kernel,
    by decide +kernel, by decide +kernel, by decide +kernel, exec_of_runs (by decide +kernel), by decide +kernel⟩
/-- V-UP-5: one symbol owed, the second bit is one too many. -/
def oneOwed : State := afterAll [.freqWr 0x41 1, .build, .unpackBegin 0] State.reset

theorem witness_BadBits_trail : oneOwed.err = false ∧ oneOwed.unpackOpen = true ∧ oneOwed.uLast = false ∧
    1 < (budgetOf oneOwed (.unpackLast 0)).length ∧
    oneOwed.decodeBits oneOwed.uNode ((budgetOf oneOwed (.unpackLast 0)).take 1) = some ([0x41], 0) ∧
    [(0x41 : Byte)].length = oneOwed.uRem.toNat ∧ oneOwed.Owes ((budgetOf oneOwed (.unpackLast 0)).take 1) :=
  ⟨by decide +kernel, by decide +kernel, by decide +kernel, by decide +kernel, by decide +kernel, by decide +kernel,
    owes_of_check (by decide +kernel)⟩

/-- V-UP-6: two symbols owed on a single leaf, the second bit is a 1. -/
def twoOwed : State := afterAll [.freqWr 0x41 2, .build, .unpackBegin 6] State.reset

theorem good_twoOwed : twoOwed.Inv := good_of_check (by decide +kernel)
theorem witness_BadBits_badbit : twoOwed.Inv ∧ twoOwed.err = false ∧ twoOwed.unpackOpen = true ∧ twoOwed.uLast = false ∧
    twoOwed.single = true ∧ 1 < (budgetOf twoOwed (.unpackLast 0x40)).length ∧
    twoOwed.decodeBits twoOwed.uNode ((budgetOf twoOwed (.unpackLast 0x40)).take 1) = some ([0x41], 0) ∧
    [(0x41 : Byte)].length < twoOwed.uRem.toNat ∧ (budgetOf twoOwed (.unpackLast 0x40))[1]? = some true ∧
    twoOwed.Owes ((budgetOf twoOwed (.unpackLast 0x40)).take 1) :=
  ⟨good_twoOwed, by decide +kernel, by decide +kernel, by decide +kernel, by decide +kernel, by decide +kernel,
    by decide +kernel, by decide +kernel, by decide +kernel, owes_of_check (by decide +kernel)⟩
theorem witness_DecodeErrorsKeep : exec (.unpackLast 0x6E) abraUnpack = .next (after (.unpackLast 0x6E) abraUnpack) ∧
    abraUnpack.err = false ∧ (after (.unpackLast 0x6E) abraUnpack).errCode = 6 ∧
    exec (.unpackLast 0) oneOwed = .next (after (.unpackLast 0) oneOwed) ∧ (after (.unpackLast 0) oneOwed).errCode = 7 ∧
    exec (.unpackLast 0x40) twoOwed = .next (after (.unpackLast 0x40) twoOwed) ∧
    (after (.unpackLast 0x40) twoOwed).errCode = 5 :=
  ⟨exec_of_runs (by decide +kernel), by decide +kernel, by decide +kernel, exec_of_runs (by decide +kernel),
    by decide +kernel, exec_of_runs (by decide +kernel), by decide +kernel⟩
theorem witness_WalkerReturns : abraUnpack.Inv ∧ abraUnpack.unpackOpen = true ∧
    abraUnpack.decodeBits abraUnpack.uNode [false, true] = some ([0x41], 7) ∧
    abraUnpack.decodeBits abraUnpack.uNode ([false, true] ++ [true]) = some ([0x41], 6) ∧
    abraUnpack.decodeBits abraUnpack.uNode ([false, true, true] ++ [false]) = some ([0x41, 0x42], 8) :=
  ⟨good_unpack, by decide +kernel⟩

-- V-UP-1: the first bit of 0x6E completes 'A', its second only moves the walker to node 7
theorem witness_WalkerReturns_bits : abraUnpack.TreeCurrent ∧ abraUnpack.WalkerPlaced ∧
    ubit false abraUnpack 0 = .ok (abraUnpack.walked 1 [0x41] 8) 1 ∧ ubit true abraUnpack 0 = .ok (abraUnpack.walked 1 [] 7) 0 :=
  have h : abraUnpack.unpackOpen = true := by decide +kernel
  ⟨good_unpack.treeCurrent (good_unpack.unpackHasTree h), good_unpack.walker h,
    Laws.ubit_of_decode (syms := [0x41]) (u := 8) (by decide +kernel) (by decide +kernel),
    Laws.ubit_of_decode (syms := []) (u := 7) (by decide +kernel) (by decide +kernel)⟩
theorem witness_WalkerReturns_commands : abraUnpack.Inv ∧ abraUnpack.err = false ∧
    exec (.unpackFeed 0x6E) abraUnpack = .next (after (.unpackFeed 0x6E) abraUnpack) ∧
    (after (.unpackFeed 0x6E) abraUnpack).err = false ∧
    exec (.unpackLast 0xDC) abraUnpackLast = .next abraUnpackDone ∧ abraUnpackDone.err = false ∧ midPath.uNode = 3 :=
  ⟨good_unpack, by decide +kernel, exec_of_runs (by decide +kernel), by decide +kernel, exec_of_runs (by decide +kernel),
    by decide +kernel⟩
theorem witness_Padding : (∀ i, abraUnpackLast.uPad.toNat ≤ i → i < 8 → (0xDC : Byte).getLsbD i = (0xDD : Byte).getLsbD i) ∧
    exec (.unpackLast 0xDC) abraUnpackLast = .next abraUnpackDone := by
  refine ⟨fun i h1 h2 => ?_, exec_of_runs (by decide +kernel)⟩
  rw [show abraUnpackLast.uPad = 1 by decide +kernel] at h1
  have h1 : 1 ≤ i := h1
  interval_cases i <;> decide

/-- The eleven symbols of V-BP-1. -/
def abracadabra : List Byte := [0x41, 0x42, 0x52, 0x41, 0x43, 0x41, 0x44, 0x41, 0x42, 0x52, 0x41]

theorem witness_UnpackingInvertsPacking : abraCodes.Inv ∧ abraCodes.err = false ∧ abraCodes.codesValid = true ∧
    ¬ InSession abraCodes ∧ (∀ sym ∈ abracadabra, (abraCodes.codeAt sym).len ≠ 0) ∧
    abracadabra.length = abraCodes.total.toNat :=
  ⟨good_codes, by decide +kernel, by decide +kernel, idle_of (by decide +kernel), by decide +kernel⟩

/-! ### The whole machine -/

theorem witness_GoodStates : abraPackA.Inv ∧ abraUnpackLast.Inv ∧ abraUnpackDone.Inv ∧ waiting3.Inv ∧
    step waiting3 = .next (stepped waiting3) :=
  ⟨good_pack, good_last, good_done, good_waiting, step_of_steps (by decide +kernel)⟩
theorem good_freq : abraFreq.Inv :=
  good_of_check (by decide +kernel)

/-- The same, with another arena and another code table, neither valid. -/
def otherFreq : State :=
  { abraFreq with code := Vector.replicate 256 ⟨3, 5⟩, node := Vector.replicate 511 ⟨true, 9, 9, 9, 9⟩ }

theorem witness_Unobservable : abraFreq.Inv ∧ otherFreq.Inv ∧ abraFreq.SameButHidden otherFreq :=
  have h1 : abraFreq.treeValid = false := by decide +kernel
  have h2 : abraFreq.codesValid = false := by decide +kernel
  ⟨good_freq, good_of_check (by decide +kernel),
    rfl, fun h => absurd (h1.symm.trans h) (by decide), fun h => absurd (h2.symm.trans h) (by decide)⟩
theorem witness_DecompressInvertsCompress : abraCodes.Inv ∧ abraTree.Inv ∧ abraCodes.err = false ∧ abraTree.err = false ∧
    ¬ InSession abraCodes ∧ ¬ InSession abraTree :=
  ⟨good_codes, good_tree, by decide +kernel, by decide +kernel, idle_of (by decide +kernel), idle_of (by decide +kernel)⟩

end Sys2Proof.Tests
end

namespace Sys2Proof.Machine
open Sys2Proof.Claims Sys2Proof.Laws

/-! ## STATUS and TOTAL -/

/-- Settles O16: STATUS, bit by bit, is the list of the eight flags (`status_getLsbD`). -/
theorem statusBitsReadInTheirPlaces : Obligations.StatusBitsReadInTheirPlaces := by
  intro s
  refine ⟨s.status, rfl, ?_, ?_, ?_, ?_, ?_, ?_, ?_, ?_, Nat.lt_pow_two_of_testBit _ fun j hj => ?_⟩
  case refine_9 =>
    obtain ⟨k, rfl⟩ : ∃ k, j = k + 8 := ⟨j - 8, by omega⟩
    exact status_getLsbD s (k + 8)
  all_goals exact status_getLsbD s _

/-- Settles O24: 256 counts of 16 bits fit in 24 (`total_toNat`). -/
theorem totalIsTheExactSum : Obligations.TotalIsTheExactSum :=
  ⟨fun s => ⟨total_toNat s, (total_toNat s).trans_le (sumCounts_le s.freq), rfl⟩, total_clearFreq State.reset⟩

/-! ## The code table of a good state -/

theorem path_ne_nil_of_node {l r : HTree} {x : Byte × List Bool} (h : x ∈ (HTree.node l r).paths) : x.2 ≠ [] := by
  simp only [HTree.paths, List.mem_append, List.mem_map] at h
  obtain ⟨y, -, rfl⟩ | ⟨y, -, rfl⟩ := h <;> simp

/-- Every code entry of a current table is a path of at most 255 bits, the empty one exactly for a symbol without a leaf (10_state.md
R26). -/
theorem codeAt_eq_ofPath {s : State} (ht : s.TreeCurrent) (hc : s.CodesCurrent) (sym : Byte) :
    ∃ p : List Bool, p.length ≤ 255 ∧ s.codeAt sym = Code.ofPath p ∧ (p = [] ↔ s.freqAt sym = 0) := by
  rcases Nat.lt_trichotomy (leafArena s.freq).length 1 with h0 | h1 | h2
  · have hnil : leafArena s.freq = [] := List.length_eq_zero_iff.1 (by omega)
    have e : s.code = noCodes := Option.some.inj (hc.symm.trans (codeTable_empty ht hnil))
    have absent : s.freqAt sym = 0 := by
      by_contra h
      simpa [hnil] using (mem_leafArena_syms s sym).2 h
    exact ⟨[], by simp, by rw [State.codeAt, ofPath_nil]; simp only [e, noCodes_get], iff_of_true rfl absent⟩
  · obtain ⟨only, hfreq, -, htbl⟩ := codeTable_single ht h1
    have e : s.code = noCodes.set only.toNat ⟨1, 0⟩ only.isLt := Option.some.inj (hc.symm.trans htbl)
    by_cases h : sym = only
    · subst h
      exact ⟨[false], by simp, by simp [State.codeAt, e, ofPath_zero], iff_of_false (by simp) ((hfreq sym).2 rfl)⟩
    · have absent : s.freqAt sym = 0 := not_not.1 fun hne => h ((hfreq sym).1 hne)
      refine ⟨[], by simp, ?_, iff_of_true rfl absent⟩
      simp only [State.codeAt, e, ofPath_nil]
      rw [Vector.getElem_set_ne _ _ fun e => h (BitVec.eq_of_toNat_eq e.symm), noCodes_get]
  · obtain ⟨t, spec, hlen⟩ := codesSpec ht hc h2
    by_cases h : sym ∈ t.syms
    · obtain ⟨x, hx, rfl⟩ := List.mem_map.1 (t.map_fst_paths ▸ h)
      have hne : x.2 ≠ [] := by
        cases t with
        | leaf => simp [HTree.syms] at hlen; omega
        | node l r => exact path_ne_nil_of_node hx
      exact ⟨x.2, spec.short x hx, spec.codes x hx, iff_of_false hne ((spec.syms x.1).1 h)⟩
    · have absent : s.freqAt sym = 0 := not_not.1 fun hne => h ((spec.syms sym).2 hne)
      exact ⟨[], by simp, by rw [spec.absent sym h, ofPath_nil], iff_of_true rfl absent⟩

/-- Settles O35: each entry is a left-aligned path (`codeAt_eq_ofPath`). -/
theorem codesAreLeftAligned : Obligations.CodesAreLeftAligned := by
  intro s inv hv sym
  obtain ⟨p, hp, e, hnil⟩ := codeAt_eq_ofPath (inv.treeCurrent (inv.codesHaveTree hv)) (inv.codesCurrent hv) sym
  have hlen : (s.codeAt sym).len.toNat = p.length := by rw [e, ofPath_len hp]
  refine ⟨?_, fun i hi h256 => ?_⟩
  · rw [← hnil, ← List.length_eq_zero_iff, ← hlen, BitVec.toNat_eq]
    rfl
  · rw [e, ofPath_bits hp h256, List.getElem?_eq_none (by omega)]
    rfl

end Sys2Proof.Machine

namespace Sys2Proof.Machine
open Sys2Proof.Claims Sys2Proof.Laws

/-! ## Where the walker stands -/

/-- Node `u` is ROOT or an internal node strictly below it: where a walker may stand (10_state.md R36.8). -/
def State.Standing (s : State) (u : NodeIdx) : Prop :=
  u = s.root ∨ (u < s.root ∧ (s.nodeAt? u).map Node.leaf = some false)

theorem walkerPlaced_iff (s : State) : s.WalkerPlaced ↔ s.Standing s.uNode := Iff.rfl

theorem root_of_no_leaves {s : State} (h : s.TreeCurrent) (hnil : leafArena s.freq = []) : s.root = Config.nil := by
  obtain ⟨-, -, hroot, -⟩ := h
  rw [hroot, buildArena_nil hnil]; rfl

theorem toNat_lt_of_nodeAt? {s : State} {u : NodeIdx} {n : Node} (h : s.nodeAt? u = some n) : u.toNat < 511 :=
  (Vector.getElem?_eq_some_iff.1 h).1

/-- The children of an internal node where the walker may stand lie strictly below ROOT, and, when the tree has leaves, strictly below
the node itself. -/
theorem child_lt_root {s : State} (ht : s.TreeCurrent) {u c : NodeIdx} {n m : Node} (hu : u.toNat ≤ s.root.toNat)
    (hn : s.nodeAt? u = some n) (hl : n.leaf = false) (hc : c = n.left ∨ c = n.right) (hm : s.nodeAt? c = some m) :
    c < s.root := by
  by_cases hnil : leafArena s.freq = []
  · rw [root_of_no_leaves ht hnil]
    exact toNat_lt_of_nodeAt? hm
  · obtain ⟨-, h1, h2⟩ := TreeCurrent.child_lt ht hnil hu hn hl
    have hcu : c < u := by rcases hc with rfl | rfl <;> assumption
    exact lt_of_lt_of_le hcu hu

theorem State.Standing.le_root {s : State} {u : NodeIdx} (h : s.Standing u) : u.toNat ≤ s.root.toNat := by
  rcases h with rfl | ⟨h, -⟩
  · exact le_rfl
  · exact le_of_lt h

/-- A leaf where the walker may stand is ROOT. -/
theorem State.Standing.eq_root_of_leaf {s : State} {u : NodeIdx} {n : Node} (h : s.Standing u) (hn : s.nodeAt? u = some n)
    (hl : n.leaf = true) : u = s.root := by
  rcases h with h | ⟨-, h⟩
  · exact h
  · simp [hn, hl] at h

/-- Everything one bit can decode to (44_bit_unpacker.md R96): a 0 at a leaf completes the leaf's symbol; at an internal node the bit
chooses a child, which completes its symbol if it is a leaf and else is where the walker stands. -/
theorem decodeBits_one_cases {s : State} {u v : NodeIdx} {b : Bool} {syms : List Byte} (h : s.decodeBits u [b] = some (syms, v)) :
    ∃ n, s.nodeAt? u = some n ∧
      ((n.leaf = true ∧ syms = [n.sym] ∧ v = u) ∨
        (n.leaf = false ∧ ∃ c m, (c = n.left ∨ c = n.right) ∧ s.nodeAt? c = some m ∧
          ((m.leaf = true ∧ syms = [m.sym] ∧ v = s.root) ∨ (m.leaf = false ∧ syms = [] ∧ v = c)))) := by
  simp only [State.decodeBits] at h
  split at h
  · cases h
  · rename_i n hn
    refine ⟨n, hn, ?_⟩
    split at h
    · rename_i hl
      split at h
      · cases h
      · obtain ⟨rfl, rfl⟩ := Prod.mk.inj (Option.some.inj h)
        exact .inl ⟨hl, rfl, rfl⟩
    · rename_i hl
      split at h
      · cases h
      · rename_i m hm
        refine .inr ⟨by simpa using hl, _, m, by cases b <;> simp, hm, ?_⟩
        split at h
        · rename_i hml
          obtain ⟨rfl, rfl⟩ := Prod.mk.inj (Option.some.inj h)
          exact .inl ⟨hml, rfl, rfl⟩
        · rename_i hml
          obtain ⟨rfl, rfl⟩ := Prod.mk.inj (Option.some.inj h)
          exact .inr ⟨by simpa using hml, rfl, rfl⟩

/-- From where the walker may stand a bit completes a symbol and leads to ROOT, or completes none and leads to an internal node strictly
below ROOT (10_state.md R36.8). -/
theorem decodeBits_one {s : State} (ht : s.TreeCurrent) {u v : NodeIdx} {b : Bool} {syms : List Byte} (hu : s.Standing u)
    (h : s.decodeBits u [b] = some (syms, v)) :
    (∃ sym, syms = [sym] ∧ v = s.root) ∨
    (syms = [] ∧ v < s.root ∧ (s.nodeAt? v).map Node.leaf = some false) := by
  obtain ⟨n, hn, ⟨hl, rfl, rfl⟩ | ⟨hl, c, m, hc, hm, ⟨-, rfl, rfl⟩ | ⟨hml, rfl, rfl⟩⟩⟩ := decodeBits_one_cases h
  · exact .inl ⟨_, rfl, hu.eq_root_of_leaf hn hl⟩
  · exact .inl ⟨_, rfl, rfl⟩
  · exact .inr ⟨rfl, child_lt_root ht hu.le_root hn hl hc hm, by simp [hm, hml]⟩

/-- Wherever bits lead the walker, it may stand. -/
theorem decodeBits_standing {s : State} (ht : s.TreeCurrent) (bits : List Bool) : ∀ {u v : NodeIdx} {syms : List Byte},
    s.Standing u → s.decodeBits u bits = some (syms, v) → s.Standing v := by
  induction bits with
  | nil =>
    intro u v syms hu h
    obtain ⟨-, rfl⟩ := Prod.mk.inj (Option.some.inj h)
    exact hu
  | cons b bits ih =>
    intro u v syms hu h
    obtain ⟨xs, w, ys, h1, h2, -⟩ := decodeBits_take h 1
    have hw : s.Standing w := by
      rcases decodeBits_one ht hu h1 with ⟨-, -, hw⟩ | ⟨-, hw⟩
      · exact .inl hw
      · exact .inr hw
    exact ih hw h2

/-- What the last of several bits does. -/
theorem decodeBits_snoc {s : State} (ht : s.TreeCurrent) {u v v' : NodeIdx} {bits : List Bool} {b : Bool} {syms syms' : List Byte}
    (hu : s.Standing u) (h : s.decodeBits u bits = some (syms, v)) (h' : s.decodeBits u (bits ++ [b]) = some (syms', v')) :
    (∃ sym, syms' = syms ++ [sym] ∧ v' = s.root) ∨
    (syms' = syms ∧ v' < s.root ∧ (s.nodeAt? v').map Node.leaf = some false) := by
  rw [decodeBits_append, h] at h'
  obtain ⟨⟨ys, w⟩, h1, h2⟩ := Option.map_eq_some_iff.1 (show (s.decodeBits v [b]).map _ = some (syms', v') from h')
  obtain ⟨rfl, rfl⟩ := Prod.mk.inj h2
  rcases decodeBits_one ht (decodeBits_standing ht bits hu h) h1 with ⟨sym, rfl, hw⟩ | ⟨rfl, hw⟩
  · exact .inl ⟨sym, rfl, hw⟩
  · exact .inr ⟨by simp, hw⟩

/-- A walk that consumes all its bits consumes all but the last, and then the last. -/
theorem feedBits_snoc {xs : List Bool} {x : Bool} {s t : State} {e e' : Nat} (h : feedBits (xs ++ [x]) s e = .ok t e') :
    ∃ u d, feedBits xs s e = .ok u d ∧ ubit x u d = .ok t e' := by
  induction xs generalizing s e with
  | nil =>
    refine ⟨s, e, rfl, ?_⟩
    cases hu : ubit x s e <;> simp_all [feedBits]
  | cons y ys ih =>
    rw [List.cons_append, feedBits] at h
    rcases hu : ubit y s e with ⟨s1, e1⟩ | ⟨err, s1⟩ | _ <;> rw [hu] at h
    · obtain ⟨u, d, h1, h2⟩ := ih h
      exact ⟨u, d, by rw [feedBits, hu]; exact h1, h2⟩
    · cases h
    · cases h

/-- One counted bit (R36.8): the walker is at ROOT if it completed a symbol, else at an internal node strictly below ROOT. -/
theorem ubit_walker {s t : State} {x : Bool} {e e' : Nat} (ht : s.TreeCurrent) (hw : s.WalkerPlaced) (h : ubit x s e = .ok t e') :
    t.root = s.root ∧
    ((e' = e + 1 ∧ t.uSyms = s.uSyms + 1 ∧ t.uNode = t.root) ∨
      (e' = e ∧ t.uSyms = s.uSyms ∧ t.uNode < t.root ∧ (t.nodeAt? t.uNode).map Node.leaf = some false)) := by
  rcases ubit_spec x s e with ⟨h', -⟩ | ⟨h', -⟩ | ⟨h', -⟩ | ⟨syms, u, h', -, -, hd⟩ <;> rw [h'] at h
  · cases h
  · cases h
  · cases h
  · obtain ⟨rfl, rfl⟩ := Walk.ok.inj h
    refine ⟨rfl, ?_⟩
    rcases decodeBits_one ht ((walkerPlaced_iff s).1 hw) hd with ⟨sym, rfl, hu⟩ | ⟨rfl, hu⟩
    · exact .inl ⟨rfl, rfl, hu⟩
    · exact .inr ⟨rfl, by simp [State.walked], hu⟩

/-- The walk's bits one after another: what the last of them did shows in U_SYMS and U_NODE (R36.8). -/
theorem feedBits_walker {bits : List Bool} {s t : State} {e : Nat} (ht : s.TreeCurrent) (hw : s.WalkerPlaced) (hne : bits ≠ [])
    (h : feedBits bits s 0 = .ok t e) :
    ∃ u d, feedBits bits.dropLast s 0 = .ok u d ∧
      ((t.uSyms = u.uSyms + 1 ∧ t.uNode = t.root) ∨
        (t.uSyms = u.uSyms ∧ t.uNode < t.root ∧ (t.nodeAt? t.uNode).map Node.leaf = some false)) := by
  rw [← List.dropLast_append_getLast hne] at h
  obtain ⟨u, d, h1, h2⟩ := feedBits_snoc h
  refine ⟨u, d, h1, ?_⟩
  rcases feedBits_spec bits.dropLast s 0 with ⟨syms, v, h', -, hd, -⟩ | ⟨err, k, syms, v, h', -⟩ | ⟨h', -⟩ <;> rw [h'] at h1
  · obtain ⟨rfl, -⟩ := Walk.ok.inj h1
    rcases (ubit_walker (s := s.walked _ syms v) ht (decodeBits_standing ht _ hw hd) h2).2 with ⟨-, hc⟩ | ⟨-, hc⟩
    · exact .inl hc
    · exact .inr hc
  · cases h1
  · cases h1

end Sys2Proof.Machine

namespace Sys2Proof.Machine
open Sys2Proof.Claims Sys2Proof.Laws

/-! ## What a command can do -/

/-- The state after an unpack session's bits have been walked and a decode error has closed it (60_exceptions.md R110, R111, R115). -/
def State.decodeFailed (s : State) (cmd : Word) (e : Err) (info : Word) (used : Nat) (syms : List Byte) (u : NodeIdx) (fed : Word)
    (last : Bool) : State :=
  { s.walked used syms u with
    uFed := fed, uLast := last, unpackOpen := false, err := true, errCode := e.code, errCmd := cmd, errInfo := info }

/-- The bits, walked from where the walker stands, are all consumed: they complete `syms` and lead it to `u`, with a symbol owed before
each (44_bit_unpacker.md R96). -/
structure State.Walks (s : State) (bits : List Bool) (syms : List Byte) (u : NodeIdx) : Prop where
  decoded : s.decodeBits s.uNode bits = some (syms, u)
  owes : s.Owes bits
  enough : syms.length ≤ s.uRem.toNat

/-- Everything a command that ends can do to the state, with the checks it has passed: one constructor for each way to end. -/
inductive Effect : Instr → State → State → Prop where
  /-- dropped while an error is pending (60_exceptions.md R112) -/
  | dropped {i s} (pending : s.err = true) : Effect i s s
  /-- a `require` check raised (R110) -/
  | raised {i s} (clear : s.err = false) (e : Err) (info : Word) (plain : e.isDecode = false) :
      Effect i s { s with err := true, errCode := e.code, errCmd := encode i, errInfo := info }
  /-- a decode error closed the unpack session (R111, R115) -/
  | decodeFailed {i s} (unpack : IsUnpack i) (clear : s.err = false) (e : Err) (info : Word) (used : Nat) (syms : List Byte)
      (u : NodeIdx) (fed : Word) (last : Bool) :
      Effect i s (s.decodeFailed (encode i) e info used syms u fed last)
  /-- a command that only answers (10_state.md R15) -/
  | answered {i s} (answers : i = .nop ∨ OnlyReads i) (resp : Word) : Effect i s { s with resp := resp }
  | freqWr {s} (sym : Byte) (cnt : Count) (clear : s.err = false) (idle : s.sessionOpen = false) :
      Effect (.freqWr sym cnt) s { (s.setFreq sym cnt).invalidate with resp := 0 }
  | freqClr {s} (clear : s.err = false) (idle : s.sessionOpen = false) :
      Effect .freqClr s { s.clearFreq.invalidate with resp := 0 }
  | build {s} (clear : s.err = false) (idle : s.sessionOpen = false) (resp : Word) :
      Effect .build s { s.withTree with resp := resp }
  | gencodes {s} (clear : s.err = false) (tree : s.treeValid = true) (idle : s.sessionOpen = false) (tbl : Vector Code 256)
      (table : codeTable s.node s.root = some tbl) (resp : Word) :
      Effect .gencodes s { s with code := tbl, codesValid := true, resp := resp }
  | packBegin {s} (clear : s.err = false) (codes : s.codesValid = true) (idle : s.sessionOpen = false) :
      Effect .packBegin s
        { s with acc := 0, nacc := 0, pBytes := 0, pBits := 0, pSyms := 0, packOpen := true, resp := 0 }
  | packSym {s} (sym : Byte) (clear : s.err = false) (isOpen : s.packOpen = true) (acc : Byte) (nacc : BitVec 4) (bytes : List Byte)
      (bits : packBits (s.codeAt sym).path s = packed s acc nacc bytes) (resp : Word) :
      Effect (.packSym sym) s
        { packed s acc nacc bytes with pBits := s.pBits + zext (s.codeAt sym).len, pSyms := s.pSyms + 1, resp := resp }
  | flushNone {s} (clear : s.err = false) (isOpen : s.packOpen = true) (whole : s.nacc = 0) (resp : Word) :
      Effect .packFlush s { s with pPad := 0, acc := 0, nacc := 0, packOpen := false, resp := resp }
  | flushByte {s} (clear : s.err = false) (isOpen : s.packOpen = true) (part : s.nacc ≠ 0) (resp : Word) :
      Effect .packFlush s
        { s.emit (padAcc s.acc s.nacc) with
          pBytes := s.pBytes + 1, pPad := BitVec.ofNat 3 (8 - s.nacc.toNat), acc := 0, nacc := 0, packOpen := false, resp := resp }
  | unpackBegin {s} (pad : BitVec 3) (clear : s.err = false) (tree : s.treeValid = true) (idle : s.sessionOpen = false) (resp : Word) :
      Effect (.unpackBegin pad) s
        { s with
          uPad := pad, uRem := s.total, uNode := s.root, uUsed := 0, uFed := 0, uSyms := 0, uLast := false, unpackOpen := true
          resp := resp }
  | unpackFeed {s} (v : Byte) (clear : s.err = false) (isOpen : s.unpackOpen = true) (notLast : s.uLast = false) (syms : List Byte)
      (u : NodeIdx) (walk : s.Walks (budgetOf s (.unpackFeed v)) syms u) (resp : Word) :
      Effect (.unpackFeed v) s { s.walked 8 syms u with uFed := s.uFed + 1, resp := resp }
  | unpackLast {s} (v : Byte) (clear : s.err = false) (isOpen : s.unpackOpen = true) (notLast : s.uLast = false) (syms : List Byte)
      (u : NodeIdx) (walk : s.Walks (budgetOf s (.unpackLast v)) syms u) (paid : syms.length = s.uRem.toNat) (resp : Word) :
      Effect (.unpackLast v) s
        { s.walked (8 - s.uPad.toNat) syms u with uFed := s.uFed + 1, uLast := true, resp := resp }
  | unpackEnd {s} (clear : s.err = false) (isOpen : s.unpackOpen = true) (resp : Word) :
      Effect .unpackEnd s { s with unpackOpen := false, resp := resp }
  | errClr {s} (resp : Word) : Effect .errClr s { s.clearErr with resp := resp }
  | sreset {s} : Effect .sreset s s.toReset

/-- One code bit is the packer's own affair: what it writes depends on ACC and NACC alone (43_bit_packer.md R91). -/
theorem packBit_packed (b : Bool) (s : State) :
    ∃ acc nacc bytes, ∀ t : State, t.acc = s.acc → t.nacc = s.nacc → packBit t b = packed t acc nacc bytes := by
  by_cases h : s.nacc + 1 = 8
  · exact ⟨0, 0, [shiftIn s.acc b], fun t ha hn => by rw [packBit, hn, ha, if_pos h]; rfl⟩
  · exact ⟨shiftIn s.acc b, s.nacc + 1, [], fun t ha hn => by rw [packBit, hn, ha, if_neg h]; simp [packed]⟩

/-- So are a code's bits. -/
theorem packBits_packed (bits : List Bool) : ∀ s : State,
    ∃ acc nacc bytes, ∀ t : State, t.acc = s.acc → t.nacc = s.nacc → packBits bits t = packed t acc nacc bytes := by
  induction bits with
  | nil => exact fun s => ⟨s.acc, s.nacc, [], fun t ha hn => by simp [packBits, packed, ← ha, ← hn]⟩
  | cons b bits ih =>
    intro s
    obtain ⟨a1, n1, b1, h1⟩ := packBit_packed b s
    obtain ⟨a2, n2, b2, h2⟩ := ih (packed s a1 n1 b1)
    refine ⟨a2, n2, b1 ++ b2, fun t ha hn => ?_⟩
    rw [show packBits (b :: bits) t = packBits bits (packBit t b) from rfl, h1 t ha hn, h2 (packed t a1 n1 b1) rfl rfl,
      packed_packed]

theorem Effect.of_raise {i : Instr} {s : State} {e : Err} (clear : s.err = false) (plain : e.isDecode = false) (info : Word) :
    Effect i s (s.raise (encode i) e info) := by
  rw [raise_of_not_decode plain]
  exact .raised clear e info plain

/-- A decode error raised where some bits have led. -/
theorem Effect.of_decode_raise {i : Instr} {s : State} {e : Err} (unpack : IsUnpack i) (clear : s.err = false)
    (decode : e.isDecode = true) (info : Word) (used : Nat) (syms : List Byte) (u : NodeIdx) (fed : Word) (last : Bool) :
    Effect i s (({ s.walked used syms u with uFed := fed, uLast := last } : State).raise (encode i) e info) := by
  have : ({ s.walked used syms u with uFed := fed, uLast := last } : State).raise (encode i) e info =
      s.decodeFailed (encode i) e info used syms u fed last := by
    simp [State.raise, State.decodeFailed, decode]
  rw [this]
  exact .decodeFailed unpack clear e info used syms u fed last

/-- A command that can be dropped: only its body is left to look at. -/
theorem Effect.of_pending {i : Instr} {s t : State} {body : Result} (h : unlessPending s body = .next t)
    (hb : s.err = false → body = .next t → Effect i s t) : Effect i s t := by
  rcases unlessPending_next.1 h with ⟨pending, rfl⟩ | ⟨clear, h⟩
  · exact .dropped pending
  · exact hb clear h

/-- A command under a `require`. -/
theorem Effect.of_require {i : Instr} {s t : State} {ok : Bool} {e : Err} {info : Word} {body : Result}
    (h : require ok (encode i) e info s body = .next t) (clear : s.err = false) (plain : e.isDecode = false)
    (hb : ok = true → body = .next t → Effect i s t) : Effect i s t := by
  rcases require_next.1 h with ⟨hok, h⟩ | ⟨-, rfl⟩
  · exact hb hok h
  · exact .of_raise clear plain info

/-- A command that can be dropped and has a sequencing condition: only what it does then is left to look at. -/
theorem Effect.of_guarded {i : Instr} {s t : State} {ok : Bool} {body : Result}
    (h : unlessPending s (requireSeq ok (encode i) s body) = .next t)
    (hb : s.err = false → ok = true → body = .next t → Effect i s t) : Effect i s t :=
  .of_pending h fun clear h => .of_require h clear rfl fun hok h => hb clear hok h

theorem Effect.of_withNode {i : Instr} {s t : State} {idx : NodeIdx} {f : Node → Word} (reads : OnlyReads i)
    (clear : s.err = false) (h : withNode (encode i) idx s (fun n => complete (f n) s) = .next t) : Effect i s t := by
  rcases withNode_next.1 h with ⟨-, rfl⟩ | ⟨-, -, rfl⟩ | ⟨-, -, n, -, h⟩
  · exact .of_raise clear rfl _
  · exact .of_raise clear rfl _
  · rw [complete_next.1 h]
    exact .answered (.inr reads) _

theorem Effect.of_flush {s t : State} {resp : Word} (clear : s.err = false) (isOpen : s.packOpen = true)
    (h : complete resp (flushAcc s) = .next t) : Effect .packFlush s t := by
  rw [complete_next.1 h, flushAcc]
  split
  · exact .flushNone clear isOpen ‹_› _
  · exact .flushByte clear isOpen ‹_› _

/-- UNPACK_LAST feeds the 8 - U_PAD high bits of its byte (44_bit_unpacker.md R98). -/
theorem budgetOf_last_length (s : State) (v : Byte) : (budgetOf s (.unpackLast v)).length = 8 - s.uPad.toNat := by
  simp [budgetOf, byteBits_length]

/-- The bits of an UNPACK_FEED or UNPACK_LAST: they raise an error at one of them, or all have their effect. -/
theorem Effect.of_walk {i : Instr} {s t : State} {v : Byte} {k : State → Nat → Result} (feeds : i = .unpackFeed v ∨ i = .unpackLast v)
    (clear : s.err = false) (h : afterWalk (encode i) (feedBits (budgetOf s i) s 0) k = .next t)
    (hk : ∀ syms u, s.Walks (budgetOf s i) syms u →
      k (s.walked (budgetOf s i).length syms u) syms.length = .next t → Effect i s t) : Effect i s t := by
  have unpack : IsUnpack i := by rcases feeds with rfl | rfl <;> trivial
  rcases feedBits_spec (budgetOf s i) s 0 with ⟨syms, u, hw, -, hd, ho, hle⟩ | ⟨e, n, syms, u, hw, -, -, -, he⟩ | ⟨hw, -⟩ <;>
    rw [hw] at h
  · rw [Nat.zero_add] at h
    exact hk syms u ⟨hd, ho, hle⟩ h
  · obtain rfl := fail_next.1 h
    have decode : e.isDecode = true := by rcases he with ⟨rfl, -⟩ | ⟨rfl, -⟩ <;> rfl
    exact .of_decode_raise unpack clear decode _ n syms u s.uFed s.uLast
  · cases h

theorem sessionOpen_false_of_not {s : State} (h : (!s.sessionOpen) = true) : s.sessionOpen = false := by simpa using h

/-- Whatever command ends, it ends in one of the ways of `Effect`. -/
theorem exec_effect {i : Instr} {s t : State} (h : exec i s = .next t) : Effect i s t := by
  cases i with
  | nop => rw [complete_next.1 h]; exact .answered (.inl rfl) _
  | freqWr sym cnt =>
    refine .of_guarded h fun clear ok h => ?_
    rw [complete_next.1 h]
    exact .freqWr sym cnt clear (sessionOpen_false_of_not ok)
  | freqRd sym =>
    refine .of_pending h fun clear h => ?_
    rw [complete_next.1 h]
    exact .answered (i := .freqRd sym) (.inr trivial) _
  | freqClr =>
    refine .of_guarded h fun clear ok h => ?_
    rw [complete_next.1 h]
    exact .freqClr clear (sessionOpen_false_of_not ok)
  | build =>
    refine .of_guarded h fun clear ok h => ?_
    rw [complete_next.1 h]
    exact .build clear (sessionOpen_false_of_not ok) _
  | nodeWt idx => exact .of_pending h fun clear h => .of_withNode trivial clear h
  | nodeLnk idx => exact .of_pending h fun clear h => .of_withNode trivial clear h
  | gencodes =>
    refine .of_guarded h fun clear ok h => ?_
    rw [Bool.and_eq_true] at ok
    obtain ⟨tree, idle⟩ := ok
    split at h
    · cases h
    · rename_i tbl table
      rw [complete_next.1 h]
      exact .gencodes clear tree (sessionOpen_false_of_not idle) tbl table _
  | codeLen sym =>
    refine .of_guarded h fun clear ok h => ?_
    rw [complete_next.1 h]
    exact .answered (i := .codeLen sym) (.inr trivial) _
  | codeBits sym k =>
    refine .of_guarded h fun clear ok h => ?_
    rw [complete_next.1 h]
    exact .answered (i := .codeBits sym k) (.inr trivial) _
  | packBegin =>
    refine .of_guarded h fun clear ok h => ?_
    rw [Bool.and_eq_true] at ok
    obtain ⟨codes, idle⟩ := ok
    rw [complete_next.1 h]
    exact .packBegin clear codes (sessionOpen_false_of_not idle)
  | packSym sym =>
    refine .of_guarded h fun clear isOpen h => .of_require h clear rfl fun _ h => ?_
    obtain ⟨acc, nacc, bytes, hp⟩ := packBits_packed (s.codeAt sym).path s
    have bits := hp s rfl rfl
    rw [complete_next.1 h, bits]
    exact .packSym sym clear isOpen acc nacc bytes bits _
  | packFlush => exact .of_guarded h fun clear isOpen h => .of_flush clear isOpen h
  | unpackBegin pad =>
    refine .of_guarded h fun clear ok h => ?_
    rw [Bool.and_eq_true] at ok
    obtain ⟨tree, idle⟩ := ok
    rw [complete_next.1 h]
    exact .unpackBegin pad clear tree (sessionOpen_false_of_not idle) _
  | unpackFeed v =>
    refine .of_guarded h fun clear ok h => .of_walk (.inl rfl) clear h fun syms u walk h => ?_
    rw [Bool.and_eq_true, Bool.not_eq_true'] at ok
    obtain ⟨isOpen, notLast⟩ := ok
    rw [complete_next.1 h]
    exact .unpackFeed v clear isOpen notLast syms u walk _
  | unpackLast v =>
    refine .of_guarded h fun clear ok h => .of_walk (.inr rfl) clear h fun syms u walk h => ?_
    rw [Bool.and_eq_true, Bool.not_eq_true'] at ok
    obtain ⟨isOpen, notLast⟩ := ok
    rw [budgetOf_last_length] at h
    rcases require_next.1 h with ⟨paid, h⟩ | ⟨-, rfl⟩
    · have all : syms.length = s.uRem.toNat := by
        have e0 : s.uRem = BitVec.ofNat 24 syms.length := sub_eq_zero.1 (of_decide_eq_true paid)
        have := walk.enough
        have := s.uRem.isLt
        rw [e0, BitVec.toNat_ofNat, Nat.mod_eq_of_lt (by omega)]
      rw [complete_next.1 h]
      exact .unpackLast v clear isOpen notLast syms u walk all _
    · exact .of_decode_raise (i := .unpackLast v) trivial clear rfl _ _ syms u _ true
  | unpackEnd =>
    refine .of_guarded h fun clear isOpen h => .of_require h clear rfl fun _ h => ?_
    rcases require_next.1 h with ⟨-, h⟩ | ⟨-, rfl⟩
    · rw [complete_next.1 h]
      exact .unpackEnd clear isOpen _
    · have := Effect.of_decode_raise (i := .unpackEnd) (e := .decEos) trivial clear rfl s.uUsed 0 [] s.uNode s.uFed s.uLast
      rwa [walked_zero] at this
  | regRd v =>
    simp only [exec, execRegRd] at h
    split at h
    · rw [complete_next.1 h]
      exact .answered (i := .regRd v) (.inr trivial) _
    · refine .of_pending h fun clear h => ?_
      rw [fail_next.1 h]
      exact .of_raise clear rfl _
  | errClr => rw [complete_next.1 h]; exact .errClr _
  | sreset => obtain rfl := Host.Outcome.next.inj h; exact .sreset

end Sys2Proof.Machine

namespace Sys2Proof.Machine
open Sys2Proof.Claims Sys2Proof.Laws

/-! ## Who writes what -/

/-- FREQ is written by FREQ_WR, FREQ_CLR and SRESET only (10_state.md R22). -/
theorem Effect.freq_eq {i : Instr} {s t : State} (h : Effect i s t) (hr : i ≠ .sreset) (hw : ∀ sym cnt, i ≠ .freqWr sym cnt)
    (hc : i ≠ .freqClr) : t.freq = s.freq := by
  cases h with
  | freqWr sym cnt => exact absurd rfl (hw sym cnt)
  | freqClr => exact absurd rfl hc
  | sreset => exact absurd rfl hr
  | _ => rfl

/-- The arena is written by BUILD only (R24). -/
theorem Effect.node_eq {i : Instr} {s t : State} (h : Effect i s t) (hb : i ≠ .build) : t.node = s.node := by
  cases h with
  | build => exact absurd rfl hb
  | _ => rfl

/-- ROOT, NODE_CNT and LEAF_CNT are written by BUILD and SRESET only (R25). -/
theorem Effect.treeRegs_eq {i : Instr} {s t : State} (h : Effect i s t) (hr : i ≠ .sreset) (hb : i ≠ .build) :
    t.root = s.root ∧ t.nodeCnt = s.nodeCnt ∧ t.leafCnt = s.leafCnt := by
  cases h with
  | build => exact absurd rfl hb
  | sreset => exact absurd rfl hr
  | _ => exact ⟨rfl, rfl, rfl⟩

/-- CODE is written by GENCODES only (R26). -/
theorem Effect.code_eq {i : Instr} {s t : State} (h : Effect i s t) (hg : i ≠ .gencodes) : t.code = s.code := by
  cases h with
  | gencodes => exact absurd rfl hg
  | _ => rfl

/-- The packer's state is written by pack commands and SRESET only (R27, R28). -/
theorem Effect.packer_eq {i : Instr} {s t : State} (h : Effect i s t) (hr : i ≠ .sreset) (hp : ¬ IsPack i) :
    t.acc = s.acc ∧ t.nacc = s.nacc ∧ t.pBytes = s.pBytes ∧ t.pBits = s.pBits ∧ t.pSyms = s.pSyms ∧ t.pPad = s.pPad ∧
      t.packOpen = s.packOpen := by
  cases h with
  | packBegin => exact absurd trivial hp
  | packSym => exact absurd trivial hp
  | flushNone => exact absurd trivial hp
  | flushByte => exact absurd trivial hp
  | sreset => exact absurd rfl hr
  | _ => exact ⟨rfl, rfl, rfl, rfl, rfl, rfl, rfl⟩

/-- The unpacker's state is written by unpack commands and SRESET only (R29, R30). -/
theorem Effect.unpacker_eq {i : Instr} {s t : State} (h : Effect i s t) (hr : i ≠ .sreset) (hu : ¬ IsUnpack i) :
    t.uPad = s.uPad ∧ t.uRem = s.uRem ∧ t.uNode = s.uNode ∧ t.uUsed = s.uUsed ∧ t.uFed = s.uFed ∧ t.uSyms = s.uSyms ∧
      t.unpackOpen = s.unpackOpen ∧ t.uLast = s.uLast := by
  cases h with
  | decodeFailed unpack => exact absurd unpack hu
  | unpackBegin => exact absurd trivial hu
  | unpackFeed => exact absurd trivial hu
  | unpackLast => exact absurd trivial hu
  | unpackEnd => exact absurd trivial hu
  | sreset => exact absurd rfl hr
  | _ => exact ⟨rfl, rfl, rfl, rfl, rfl, rfl, rfl, rfl⟩

/-- OUTQ only grows at its tail (20_memory.md R44), but for SRESET. -/
theorem Effect.outq_prefix {i : Instr} {s t : State} (h : Effect i s t) (hr : i ≠ .sreset) : s.outq <+: t.outq := by
  cases h with
  | decodeFailed => exact List.prefix_append _ _
  | packSym => exact List.prefix_append _ _
  | flushByte => exact List.prefix_append _ _
  | unpackFeed => exact List.prefix_append _ _
  | unpackLast => exact List.prefix_append _ _
  | sreset => exact absurd rfl hr
  | _ => exact List.prefix_rfl

/-- No command writes the command's progress, but for SRESET. -/
theorem Effect.progress_eq {i : Instr} {s t : State} (h : Effect i s t) (hr : i ≠ .sreset) :
    t.executing = s.executing ∧ t.done = s.done := by
  cases h with
  | sreset => exact absurd rfl hr
  | _ => exact ⟨rfl, rfl⟩

/-- No command writes the model's own two fields (logs 1 and 3). -/
theorem Effect.host_eq {i : Instr} {s t : State} (h : Effect i s t) : t.inbox = s.inbox ∧ t.outDepth = s.outDepth := by
  cases h <;> exact ⟨rfl, rfl⟩

/-- Settles O20, part by part over the ways a command can end (`exec_effect`). -/
theorem eachCommandWritesOnlyItsOwnState : Obligations.EachCommandWritesOnlyItsOwnState := by
  intro i s t h
  have eff := exec_effect h
  exact ⟨eff.host_eq, eff.node_eq, eff.code_eq, fun hr => ⟨eff.freq_eq hr, eff.treeRegs_eq hr, eff.packer_eq hr,
    eff.unpacker_eq hr, (eff.progress_eq hr).1, (eff.progress_eq hr).2, eff.outq_prefix hr⟩⟩

/-! ## U_NODE after each bit -/

theorem byteBits_ne_nil (v : Byte) : byteBits v ≠ [] := List.ne_nil_of_length_pos (by simp [byteBits_length])

theorem budgetOf_last_ne_nil (s : State) (v : Byte) : budgetOf s (.unpackLast v) ≠ [] :=
  List.ne_nil_of_length_pos (by rw [budgetOf_last_length]; have := s.uPad.isLt; omega)

theorem State.Walks.feedBits {s : State} {bits : List Bool} {syms : List Byte} {u : NodeIdx} (h : s.Walks bits syms u) :
    feedBits bits s 0 = .ok (s.walked bits.length syms u) syms.length := by
  rw [feedBits_of_decode h.decoded h.owes, Nat.zero_add]

/-- After an UNPACK_FEED or UNPACK_LAST that raises nothing the walker stands where the last of its bits left it (10_state.md
R36.8). -/
theorem feed_command_walker {v : Byte} {i : Instr} {s t : State} (hi : i = .unpackFeed v ∨ i = .unpackLast v) (inv : s.Inv)
    (clear : s.err = false) (h : exec i s = .next t) (ht : t.err = false) :
    ∃ u e, feedBits (budgetOf s i).dropLast s 0 = .ok u e ∧
      ((t.uSyms = u.uSyms + 1 ∧ t.uNode = t.root) ∨
        (t.uSyms = u.uSyms ∧ t.uNode < t.root ∧ (t.nodeAt? t.uNode).map Node.leaf = some false)) := by
  have after {syms u} (isOpen : s.unpackOpen = true) (hne : budgetOf s i ≠ []) (walk : s.Walks (budgetOf s i) syms u) :=
    feedBits_walker (inv.treeCurrent (inv.unpackHasTree isOpen)) (inv.walker isOpen) hne walk.feedBits
  cases exec_effect h with
  | unpackFeed v _ isOpen _ syms u walk => exact after isOpen (byteBits_ne_nil v) walk
  | unpackLast v _ isOpen _ syms u walk => exact after isOpen (budgetOf_last_ne_nil s v) walk
  | dropped pending => rw [clear] at pending; cases pending
  | raised => cases ht
  | decodeFailed => cases ht
  | answered answers => rcases hi with rfl | rfl <;> simp [OnlyReads] at answers
  | _ => simp at hi

/-- Settles O52: one bit by `ubit_walker`, a command by the last of its bits, the reference decoding by `decodeBits_snoc`. -/
theorem theWalkerReturnsToRootWithEachSymbol : Obligations.TheWalkerReturnsToRootWithEachSymbol := by
  refine ⟨fun s t x e e' => ubit_walker, fun v i s t hi inv clear h ht => feed_command_walker hi inv clear h ht, ?_⟩
  intro s bits b syms syms' u u' inv isOpen h h'
  rcases decodeBits_snoc (inv.treeCurrent (inv.unpackHasTree isOpen)) (inv.walker isOpen) h h' with ⟨sym, rfl, hu⟩ | ⟨rfl, hu⟩
  · exact ⟨fun _ => hu, fun e => absurd e (by simp)⟩
  · exact ⟨fun hne => absurd rfl hne, fun _ => hu⟩

end Sys2Proof.Machine

namespace Sys2Proof.Machine
open Sys2Proof.Claims Sys2Proof.Laws

/-! ## How far a walk gets -/

/-- Where a symbol is owed the tree has leaves (10_state.md R36.5). -/
theorem leafArena_ne_nil {s : State} (h : s.total ≠ 0) : leafArena s.freq ≠ [] := by
  intro hnil
  have hw := leafArena_weights s.freq
  rw [hnil, ← total_toNat] at hw
  exact h (BitVec.eq_of_toNat_eq hw.symm)

/-- No node where the walker may stand is more than 254 below ROOT: of at most 511 nodes the leaves come first. -/
theorem State.Standing.root_le {s : State} {u : NodeIdx} {n : Node} (hu : s.Standing u) (ht : s.TreeCurrent)
    (hne : leafArena s.freq ≠ []) (hn : s.nodeAt? u = some n) : s.root.toNat ≤ u.toNat + 254 := by
  rcases hu with rfl | ⟨hlt, hl⟩
  · omega
  · obtain ⟨t, spec⟩ := buildArena_spec hne
    have inner : n.leaf = false := by simpa [hn] using hl
    obtain ⟨behind, -, -⟩ := TreeCurrent.child_lt ht hne (le_of_lt hlt) hn inner
    have := TreeCurrent.root_toNat ht spec hne
    have := spec.length
    have := leafArena_length_le s.freq
    omega

/-- The bits consumed, by the symbols they complete and where they lead: 255 are enough for any symbol, and a bit that completes none
leads to a lower index (R96). -/
theorem decodeBits_length {s : State} (ht : s.TreeCurrent) (hne : leafArena s.freq ≠ []) (bits : List Bool) :
    ∀ {u v : NodeIdx} {syms : List Byte}, s.Standing u → s.decodeBits u bits = some (syms, v) →
      bits.length + v.toNat ≤ 255 * syms.length + u.toNat := by
  have one {u v : NodeIdx} {b : Bool} {syms : List Byte} (hu : s.Standing u) (h : s.decodeBits u [b] = some (syms, v)) :
      1 + v.toNat ≤ 255 * syms.length + u.toNat := by
    obtain ⟨n, hn, ⟨-, rfl, rfl⟩ | ⟨hl, c, m, hc, -, ⟨-, rfl, rfl⟩ | ⟨-, rfl, rfl⟩⟩⟩ := decodeBits_one_cases h
    · simp
    · have := hu.root_le ht hne hn
      simp; omega
    · obtain ⟨-, h1, h2⟩ := TreeCurrent.child_lt ht hne hu.le_root hn hl
      have : v.toNat < u.toNat := by rcases hc with rfl | rfl <;> assumption
      simp; omega
  induction bits with
  | nil =>
    intro u v syms _ h
    obtain ⟨rfl, rfl⟩ := Prod.mk.inj (Option.some.inj h)
    simp
  | cons b bits ih =>
    intro u v syms hu h
    obtain ⟨xs, w, ys, h1, h2, rfl⟩ := decodeBits_take h 1
    have first := one hu h1
    have rest := ih (decodeBits_standing ht [b] hu h1) h2
    simp only [List.length_append, List.length_cons]
    omega

/-- A walk that ends with nothing owed ends at ROOT: its last bit completed the last symbol (R36.8). -/
theorem State.Walks.root_of_all {s : State} {bits : List Bool} {syms : List Byte} {u : NodeIdx} (walk : s.Walks bits syms u)
    (ht : s.TreeCurrent) (hw : s.WalkerPlaced) (hne : bits ≠ []) (all : syms.length = s.uRem.toNat) : u = s.root := by
  obtain ⟨xs, w, ys, h1, -, -⟩ := decodeBits_take walk.decoded (bits.length - 1)
  have hpos := List.length_pos_iff.2 hne
  have owed := walk.owes (bits.length - 1) (by omega) xs w h1
  have whole := walk.decoded
  rw [← List.dropLast_eq_take] at h1
  rw [← List.dropLast_append_getLast hne] at whole
  rcases decodeBits_snoc ht hw h1 whole with ⟨-, -, hu⟩ | ⟨rfl, -⟩
  · exact hu
  · omega

/-! ## The invariants, the ports aside -/

/-- The block with its ports and its depth put aside: `State.Inv` of it is the part of the invariants that a command keeps by itself. -/
def State.portless (s : State) : State := { s with executing := none, done := false, outDepth := .unbounded }

/-- What `State.Inv` says of an unpack session. -/
structure State.UnpackerInv (s : State) : Prop where
  oneSession : ¬ (s.packOpen = true ∧ s.unpackOpen = true)
  unpackHasTree : s.unpackOpen = true → s.treeValid = true
  walker : s.unpackOpen = true → s.WalkerPlaced
  walkerDone : s.unpackOpen = true → s.uRem = 0 → s.uNode = s.root
  walkerStart : s.unpackOpen = true → s.uUsed = 0 → s.uNode = s.root
  usedBound : s.unpackOpen = true → s.uUsed.toNat + s.uNode.toNat ≤ 255 * s.uSyms.toNat + s.root.toNat
  owed : s.unpackOpen = true → s.uRem ≤ s.total ∧ s.uRem.setWidth 32 + s.uSyms = s.total.setWidth 32
  budget : s.unpackOpen = true → s.uUsed = 8#32 * s.uFed - (if s.uLast then s.uPad.setWidth 32 else 0)
  lastOwesNothing : s.unpackOpen = true → s.uLast = true → s.uRem = 0

/-- With no unpack session it says nothing. -/
theorem State.UnpackerInv.of_closed {s : State} (closed : s.unpackOpen = false) : s.UnpackerInv := by
  constructor <;> simp [closed]

/-- The symbols owed and those emitted make up TOTAL (44_bit_unpacker.md R95, R96), as registers and as integers. -/
theorem owed_iff {rem total : Weight} {syms : Word} :
    (rem ≤ total ∧ rem.setWidth 32 + syms = total.setWidth 32) ↔ rem.toNat + syms.toNat = total.toNat := by
  rw [BitVec.le_def, BitVec.toNat_eq]
  simp only [BitVec.toNat_add, BitVec.toNat_setWidth]
  omega

theorem nothing_used : (0 : Word) = 8#32 * 0 - 0 := by decide

theorem sessions_closed {s : State} (idle : s.sessionOpen = false) : s.packOpen = false ∧ s.unpackOpen = false :=
  Bool.or_eq_false_iff.1 idle

theorem packed_inj {s : State} {a a' : Byte} {n n' : BitVec 4} {xs ys : List Byte} (h : packed s a n xs = packed s a' n' ys) :
    a = a' ∧ n = n' ∧ xs = ys := by
  have acc := congrArg State.acc h
  have nacc := congrArg State.nacc h
  have outq := congrArg State.outq h
  exact ⟨acc, nacc, List.append_cancel_left outq⟩

theorem noBits_small : (0 : BitVec 4) ≤ 7 := by decide

theorem noBits_clean : (0 : Byte).toNat < 2 ^ (0 : BitVec 4).toNat := by decide

theorem nothing_packed : 8#32 * 0 - (0 : BitVec 3).setWidth 32 = 0 := by decide

/-- The count of bits follows the bytes and the waiting bits (43_bit_packer.md R93). -/
theorem packAccount_add {pBytes pBits : Word} {nacc nacc' : BitVec 4} {len : Byte} {n : Nat}
    (h : 8#32 * pBytes + nacc.setWidth 32 = pBits) (count : 8 * n + nacc'.toNat = nacc.toNat + len.toNat) :
    8#32 * (pBytes + BitVec.ofNat 32 n) + nacc'.setWidth 32 = pBits + zext len := by
  have e := congrArg (BitVec.ofNat 32) count
  simp only [BitVec.ofNat_add, BitVec.ofNat_mul, BitVec.ofNat_toNat] at e
  subst h
  unfold zext
  linear_combination e

theorem flushAccount_none {pBytes pBits : Word} {nacc : BitVec 4} (h : 8#32 * pBytes + nacc.setWidth 32 = pBits) (whole : nacc = 0) :
    8#32 * pBytes - (0 : BitVec 3).setWidth 32 = pBits := by
  simpa [whole] using h

/-- A padded byte stands for the waiting bits (R92, R93). -/
theorem flushAccount_pad {pBytes pBits : Word} {nacc : BitVec 4} (h : 8#32 * pBytes + nacc.setWidth 32 = pBits) (part : nacc ≠ 0)
    (small : nacc ≤ 7) :
    8#32 * (pBytes + 1) - (BitVec.ofNat 3 (8 - nacc.toNat)).setWidth 32 = pBits := by
  have h7 : nacc.toNat ≤ 7 := small
  have h0 : nacc.toNat ≠ 0 := fun e => part (BitVec.eq_of_toNat_eq e)
  have pad : (BitVec.ofNat 3 (8 - nacc.toNat)).setWidth 32 + nacc.setWidth 32 = 8#32 := by
    refine BitVec.eq_of_toNat_eq ?_
    simp; omega
  subst h
  linear_combination -pad

/-- A byte fed is 8 budget bits (44_bit_unpacker.md R97, R101). -/
theorem feed_budget {used fed pad : Word} {last : Bool} (h : used = 8#32 * fed - (if last then pad else 0)) (notLast : last = false) :
    used + BitVec.ofNat 32 8 = 8#32 * (fed + 1) - (if last then pad else 0) := by
  subst notLast
  subst h
  simp only [Bool.false_eq_true, if_false]
  ring

/-- The last byte is as many fewer as U_PAD says (R98, R101). -/
theorem last_budget {used fed : Word} {pad : BitVec 3} {last : Bool} (h : used = 8#32 * fed - (if last then pad.setWidth 32 else 0))
    (notLast : last = false) : used + BitVec.ofNat 32 (8 - pad.toNat) = 8#32 * (fed + 1) - pad.setWidth 32 := by
  have bits : BitVec.ofNat 32 (8 - pad.toNat) + pad.setWidth 32 = 8#32 := by
    have := pad.isLt
    refine BitVec.eq_of_toNat_eq ?_
    simp; omega
  subst notLast
  subst h
  simp only [Bool.false_eq_true, if_false]
  linear_combination bits

/-! ### BUILD's tree -/

/-- BUILD's arena has at most 511 entries (41_tree_builder.md R80). -/
theorem buildArena_length_le (freq : Vector Count 256) : (buildArena freq).length ≤ 511 := by
  by_cases h : leafArena freq = []
  · simp [buildArena_nil h]
  · obtain ⟨t, spec⟩ := buildArena_spec h
    have := spec.length
    have := leafArena_length_le freq
    omega

theorem overlay_take {nodes : List Node} (h : nodes.length ≤ 511) (old : Vector Node 511) :
    (overlay nodes old).toList.take nodes.length = nodes := by
  refine List.ext_getElem? fun i => ?_
  rw [List.getElem?_take, Vector.getElem?_toList, overlay_getElem?]
  by_cases hi : i < nodes.length
  · simp [hi, show i < 511 by omega]
  · simp [hi]

/-- BUILD leaves the tree of the current FREQ (R16, R78). -/
theorem withTree_treeCurrent (s : State) : s.withTree.TreeCurrent :=
  ⟨overlay_take (buildArena_length_le s.freq) s.node, rfl, rfl, rfl⟩

/-- A flag that compares the number of leaves reads the same from LEAF_CNT (R19). -/
theorem leafCnt_beq {n k : Nat} (hn : n ≤ 256) (hk : k ≤ 256) : (n == k) = (BitVec.ofNat 9 n == BitVec.ofNat 9 k) := by
  rw [Bool.eq_iff_iff, beq_iff_eq, beq_iff_eq, BitVec.toNat_eq]
  simp only [BitVec.toNat_ofNat]
  omega

theorem emptyFlag_withTree (s : State) : s.withTree.empty = (s.withTree.treeValid && s.withTree.leafCnt == 0) :=
  leafCnt_beq (leafArena_length_le s.freq) (by decide : 0 ≤ 256)

theorem singleFlag_withTree (s : State) : s.withTree.single = (s.withTree.treeValid && s.withTree.leafCnt == 1) :=
  leafCnt_beq (leafArena_length_le s.freq) (by decide : 1 ≤ 256)

section
variable {s : State} (inv : s.portless.Inv)
include inv

/-- An error taken (R36.9, R109). -/
theorem inv_raised (cmd : Word) (e : Err) (info : Word) :
    ({ s with err := true, errCode := e.code, errCmd := cmd, errInfo := info } : State).portless.Inv :=
  { inv with noErrNoCode := nofun, errHasCode := fun _ => code_range e }

/-- An unpack session closed, wherever its bits have led. -/
theorem inv_unpackClosed (used : Nat) (syms : List Byte) (u : NodeIdx) (fed : Word) (last : Bool) :
    ({ s.walked used syms u with uFed := fed, uLast := last, unpackOpen := false } : State).portless.Inv :=
  { State.UnpackerInv.of_closed rfl, inv with }

/-- FREQ written and the tree invalidated, with no session open (R17 to R19). -/
theorem inv_freqWritten (idle : s.sessionOpen = false) (freq : Vector Count 256) (resp : Word) :
    ({ ({ s with freq := freq } : State).invalidate with resp := resp } : State).portless.Inv :=
  have ⟨noPack, noUnpack⟩ := sessions_closed idle
  have closed : ({ s with freq := freq } : State).invalidate.UnpackerInv := .of_closed noUnpack
  { closed, inv with
    packHasCodes := fun h => absurd h (by simp [State.portless, State.invalidate, noPack])
    codesHaveTree := nofun, treeCurrent := nofun, codesCurrent := nofun, emptyFlag := rfl, singleFlag := rfl }

/-- FREQ's tree built, with no session open (R17 to R19, R36.5). -/
theorem inv_built (idle : s.sessionOpen = false) (resp : Word) : ({ s.withTree with resp := resp } : State).portless.Inv :=
  have ⟨noPack, noUnpack⟩ := sessions_closed idle
  have closed : s.withTree.UnpackerInv := .of_closed noUnpack
  { closed, inv with
    packHasCodes := fun h => absurd h (by simp [State.portless, State.withTree, State.treeFlags, noPack])
    codesHaveTree := nofun, treeCurrent := fun _ => withTree_treeCurrent s, codesCurrent := nofun
    emptyFlag := emptyFlag_withTree s, singleFlag := singleFlag_withTree s }

/-- The codes of the current tree made (R16, R18). -/
theorem inv_coded (tree : s.treeValid = true) {tbl : Vector Code 256} (table : codeTable s.node s.root = some tbl) (resp : Word) :
    ({ s with code := tbl, codesValid := true, resp := resp } : State).portless.Inv :=
  { inv with
    packHasCodes := fun _ => rfl, codesHaveTree := fun _ => tree, codesCurrent := fun _ => table }

/-- A pack session opened (43_bit_packer.md R90). -/
theorem inv_packBegun (codes : s.codesValid = true) (idle : s.sessionOpen = false) :
    ({ s with acc := 0, nacc := 0, pBytes := 0, pBits := 0, pSyms := 0, packOpen := true, resp := 0 } : State).portless.Inv :=
  have ⟨_, noUnpack⟩ := sessions_closed idle
  { inv with
    oneSession := fun h => absurd h.2 (by simp [State.portless, noUnpack])
    packHasCodes := fun _ => codes, naccSmall := noBits_small, accClean := noBits_clean, packIdle := nofun
    packAccount := fun _ => rfl, flushAccount := nofun }

/-- A symbol's code appended (R91, R93). -/
theorem inv_packedSym (isOpen : s.packOpen = true) {c : Code} {acc : Byte} {nacc : BitVec 4} {bytes : List Byte}
    (bits : packBits c.path s = packed s acc nacc bytes) (syms resp : Word) :
    ({ packed s acc nacc bytes with pBits := s.pBits + zext c.len, pSyms := syms, resp := resp } : State).portless.Inv := by
  obtain ⟨acc', nacc', bytes', e, clean, -, count⟩ := packBits_spec (s := s) c.path ⟨inv.naccSmall, inv.accClean⟩
  obtain ⟨rfl, rfl, rfl⟩ := packed_inj (bits.symm.trans e)
  obtain ⟨small, low⟩ := clean
  have count : 8 * bytes.length + nacc.toNat = s.nacc.toNat + c.len.toNat := by simpa [Code.path] using count
  exact
    { inv with
      naccSmall := small, accClean := low, packIdle := fun h => absurd isOpen (by simpa [State.portless, packed] using h)
      packAccount := fun _ => packAccount_add (inv.packAccount isOpen) count
      flushAccount := fun h => absurd isOpen (by simpa [State.portless, packed] using h) }

/-- The packer's accounting after a flush of waiting bits (R92, R93). -/
theorem inv_flushedByte (isOpen : s.packOpen = true) (part : s.nacc ≠ 0) (resp : Word) (b : Byte) :
    ({ s.emit b with
        pBytes := s.pBytes + 1, pPad := BitVec.ofNat 3 (8 - s.nacc.toNat), acc := 0, nacc := 0, packOpen := false
        resp := resp } : State).portless.Inv :=
  { inv with
    oneSession := nofun, packHasCodes := nofun, naccSmall := noBits_small, accClean := noBits_clean, packIdle := fun _ => ⟨rfl, rfl⟩
    packAccount := nofun, flushAccount := fun _ => flushAccount_pad (inv.packAccount isOpen) part inv.naccSmall }

/-- A flush with no waiting bits (R92, R93). -/
theorem inv_flushedNone (isOpen : s.packOpen = true) (whole : s.nacc = 0) (resp : Word) :
    ({ s with pPad := 0, acc := 0, nacc := 0, packOpen := false, resp := resp } : State).portless.Inv :=
  { inv with
    oneSession := nofun, packHasCodes := nofun, naccSmall := noBits_small, accClean := noBits_clean, packIdle := fun _ => ⟨rfl, rfl⟩
    packAccount := nofun, flushAccount := fun _ => flushAccount_none (inv.packAccount isOpen) whole }

/-- An unpack session opened (44_bit_unpacker.md R95). -/
theorem inv_unpackBegun (tree : s.treeValid = true) (idle : s.sessionOpen = false) (pad : BitVec 3) (resp : Word) :
    ({ s with
        uPad := pad, uRem := s.total, uNode := s.root, uUsed := 0, uFed := 0, uSyms := 0, uLast := false, unpackOpen := true
        resp := resp } : State).portless.Inv :=
  have ⟨noPack, _⟩ := sessions_closed idle
  { inv with
    oneSession := fun h => absurd h.1 (by simp [State.portless, noPack])
    unpackHasTree := fun _ => tree, walker := fun _ => .inl rfl, walkerDone := fun _ _ => rfl, walkerStart := fun _ _ => rfl
    usedBound := fun _ => by simp [State.portless], owed := fun _ => ⟨BitVec.le_refl s.total, BitVec.add_zero _⟩
    budget := fun _ => nothing_used, lastOwesNothing := nofun }

/-- The bits of one byte walked (R96 to R98): what they do to the registers, as integers. No counter wraps. -/
theorem walked_toNat (isOpen : s.unpackOpen = true) {bits : List Bool} {syms : List Byte} {u : NodeIdx} (walk : s.Walks bits syms u)
    (hne : bits ≠ []) (h8 : bits.length ≤ 8) :
    (s.walked bits.length syms u).uRem.toNat + syms.length = s.uRem.toNat ∧
    (s.walked bits.length syms u).uSyms.toNat = s.uSyms.toNat + syms.length ∧
    (s.walked bits.length syms u).uUsed.toNat = s.uUsed.toNat + bits.length ∧
    s.uUsed.toNat + bits.length + u.toNat ≤ 255 * (s.uSyms.toNat + syms.length) + s.root.toNat := by
  have tree : s.TreeCurrent := inv.treeCurrent (inv.unpackHasTree isOpen)
  have walker : s.WalkerPlaced := inv.walker isOpen
  have sum : s.uRem.toNat + s.uSyms.toNat = s.total.toNat := owed_iff.1 (inv.owed isOpen)
  have owed : 0 < s.uRem.toNat := walk.owes 0 (List.length_pos_iff.2 hne) [] s.uNode rfl
  have leaves : leafArena s.freq ≠ [] := leafArena_ne_nil fun e => by rw [e] at sum; simp at sum; omega
  have length := decodeBits_length tree leaves bits walker walk.decoded
  have bound : s.uUsed.toNat + s.uNode.toNat ≤ 255 * s.uSyms.toNat + s.root.toNat := inv.usedBound isOpen
  have enough := walk.enough
  have := s.total.isLt
  have := s.root.isLt
  refine ⟨?_, ?_, ?_, by omega⟩
  · simp only [State.walked, BitVec.toNat_sub, BitVec.toNat_ofNat]
    omega
  · simp only [State.walked, BitVec.toNat_add, BitVec.toNat_ofNat]
    omega
  · simp only [State.walked, BitVec.toNat_add, BitVec.toNat_ofNat]
    omega

/-- The bits of one byte walked and the byte counted (R96 to R98). -/
theorem inv_fed (isOpen : s.unpackOpen = true) {bits : List Bool} {syms : List Byte} {u : NodeIdx} (walk : s.Walks bits syms u)
    (hne : bits ≠ []) (h8 : bits.length ≤ 8) {fed : Word} {last : Bool} (resp : Word)
    (budget : s.uUsed + BitVec.ofNat 32 bits.length = 8#32 * fed - (if last then s.uPad.setWidth 32 else 0))
    (paid : last = true → syms.length = s.uRem.toNat) :
    ({ s.walked bits.length syms u with uFed := fed, uLast := last, resp := resp } : State).portless.Inv := by
  have tree : s.TreeCurrent := inv.treeCurrent (inv.unpackHasTree isOpen)
  have walker : s.WalkerPlaced := inv.walker isOpen
  have sum : s.uRem.toNat + s.uSyms.toNat = s.total.toNat := owed_iff.1 (inv.owed isOpen)
  obtain ⟨hrem, hsyms, hused, hbound⟩ := walked_toNat inv isOpen walk hne h8
  have started : (s.walked bits.length syms u).uUsed ≠ 0 := fun e => by
    have := List.length_pos_iff.2 hne
    rw [e] at hused
    simp at hused
    omega
  have owed : (s.walked bits.length syms u).uRem.toNat + (s.walked bits.length syms u).uSyms.toNat = s.total.toNat := by omega
  have nothing_owed : (s.walked bits.length syms u).uRem = 0 ↔ syms.length = s.uRem.toNat := by
    rw [BitVec.toNat_eq, show (0 : Weight).toNat = 0 from rfl]
    omega
  exact
    { inv with
      walker := fun _ => decodeBits_standing tree bits walker walk.decoded
      walkerDone := fun _ h => walk.root_of_all tree walker hne (nothing_owed.1 h)
      walkerStart := fun _ h => absurd h started
      usedBound := fun _ => le_of_eq_of_le (congrArg (· + u.toNat) hused) (hsyms ▸ hbound)
      owed := fun _ => owed_iff.2 owed
      budget := fun _ => budget
      lastOwesNothing := fun _ h => nothing_owed.2 (paid h) }

end

/-- A reset keeps the invariants whatever it finds (10_state.md R35, R36). -/
theorem toReset_inv (s : State) : s.toReset.Inv :=
  have closed : s.toReset.UnpackerInv := .of_closed rfl
  { closed with
    packHasCodes := nofun, codesHaveTree := nofun, treeCurrent := nofun, codesCurrent := nofun, emptyFlag := rfl, singleFlag := rfl
    naccSmall := noBits_small, accClean := noBits_clean, packIdle := fun _ => ⟨rfl, rfl⟩, packAccount := nofun
    flushAccount := fun _ => nothing_packed, noErrNoCode := fun _ => rfl, errHasCode := nofun
    outqFits := fits_mono (fits_one s.outDepth) (Nat.zero_le 1), shownClear := nofun, doneReady := nofun }

/-- Settles O56: `State.reset` is what a reset leaves of itself. -/
theorem resetIsAGoodState : Obligations.ResetIsAGoodState := toReset_inv State.reset

/-! ## Every step keeps the invariants -/

theorem State.Inv.portless {s : State} (h : s.Inv) : s.portless.Inv :=
  { h with outqFits := rfl, shownClear := nofun, doneReady := fun _ => rfl }

/-- A command keeps the invariants, the ports aside. -/
theorem Effect.keeps_inv {i : Instr} {s t : State} (h : Effect i s t) (inv : s.portless.Inv) : t.portless.Inv := by
  cases h with
  | dropped => exact inv
  | raised _ e info => exact inv_raised inv _ e info
  | decodeFailed _ _ e info used syms u fed last => exact inv_raised (inv_unpackClosed inv used syms u fed last) _ e info
  | answered => exact { inv with }
  | freqWr sym cnt _ idle => exact inv_freqWritten inv idle _ _
  | freqClr _ idle => exact inv_freqWritten inv idle _ _
  | build _ idle resp => exact inv_built inv idle resp
  | gencodes _ tree _ tbl table resp => exact inv_coded inv tree table resp
  | packBegin _ codes idle => exact inv_packBegun inv codes idle
  | packSym sym _ isOpen acc nacc bytes bits resp => exact inv_packedSym inv isOpen bits _ resp
  | flushNone _ isOpen whole resp => exact inv_flushedNone inv isOpen whole resp
  | flushByte _ isOpen part resp => exact inv_flushedByte inv isOpen part resp _
  | unpackBegin pad _ tree idle resp => exact inv_unpackBegun inv tree idle pad resp
  | unpackFeed v _ isOpen notLast syms u walk resp =>
    have := inv_fed inv isOpen walk (byteBits_ne_nil v) le_rfl (fed := s.uFed + 1) (last := s.uLast) resp
      (feed_budget (inv.budget isOpen) notLast) (fun h => absurd (notLast.symm.trans h) nofun)
    exact this
  | unpackLast v _ isOpen notLast syms u walk paid resp =>
    have := inv_fed inv isOpen walk (budgetOf_last_ne_nil s v) (by rw [budgetOf_last_length]; omega) (fed := s.uFed + 1) (last := true)
      resp (by rw [budgetOf_last_length]; exact last_budget (inv.budget isOpen) notLast) (fun _ => paid)
    rwa [budgetOf_last_length] at this
  | unpackEnd _ _ resp =>
    have := inv_unpackClosed inv 0 [] s.uNode s.uFed s.uLast
    rw [walked_zero] at this
    exact { this with }
  | errClr => exact { inv with noErrNoCode := fun _ => rfl, errHasCode := nofun }
  | sreset => exact (toReset_inv s).portless

/-- So does any word. -/
theorem runWord_keeps_inv {w : Word} {s t : State} (h : runWord w s = .next t) (inv : s.portless.Inv) : t.portless.Inv := by
  rw [runWord] at h
  split at h
  · exact (exec_effect h).keeps_inv inv
  · rcases illegalCommand_next.1 h with ⟨-, rfl⟩ | ⟨-, rfl⟩
    · exact inv
    · rw [raise_of_not_decode rfl]
      exact inv_raised inv w .illegal _

/-- A command that emits found no error pending (60_exceptions.md R112). -/
theorem Effect.pending_outq {i : Instr} {s t : State} (h : Effect i s t) (pending : s.err = true) : t.outq = s.outq ∨ t.outq = [] := by
  cases h with
  | dropped => exact .inl rfl
  | answered => exact .inl rfl
  | errClr => exact .inl rfl
  | sreset => exact .inr rfl
  | _ => simp_all -- every other way of ending has found no error pending

theorem runWord_pending_fits {w : Word} {s t : State} (h : runWord w s = .next t) (pending : s.err = true)
    (hf : fits s.outDepth s.outq.length = true) : fits t.outDepth t.outq.length = true := by
  rw [runWord] at h
  split at h
  · have eff := exec_effect h
    rw [eff.host_eq.2]
    refine fits_mono hf ?_
    rcases eff.pending_outq pending with e | e <;> simp [e]
  · rcases illegalCommand_next.1 h with ⟨-, rfl⟩ | ⟨-, rfl⟩ <;> exact hf

/-- A command that has run leaves a good state whether it ends or waits. -/
theorem finish_inv {shown : Shown} {s : State} (inv : s.portless.Inv)
    (hw : fits s.outDepth s.outq.length = false → shown.err = false) : (finish shown s).Inv := by
  cases hf : fits s.outDepth s.outq.length with
  | true =>
    rw [finish_of_fits hf]
    exact { inv with outqFits := hf, shownClear := nofun, doneReady := fun _ => rfl }
  | false =>
    rw [finish_of_full hf]
    exact { inv with outqFits := hf, shownClear := fun _ e => Option.some.inj e ▸ hw hf, doneReady := nofun }

/-- OUTQ fits while no command waits (20_memory.md R44). -/
theorem State.Inv.room {s : State} (inv : s.Inv) (he : s.executing = none) : fits s.outDepth s.outq.length = true := by
  rw [inv.outqFits, he]
  rfl

theorem quiet_inv {s : State} (inv : s.Inv) : (quiet s).Inv := { inv with doneReady := nofun }

/-- Settles O57, over everything a step can do (`step_next`). -/
theorem everyStepKeepsTheInvariants : Obligations.EveryStepKeepsTheInvariants := by
  intro s t inv h
  obtain ⟨shown, he, rfl⟩ | ⟨-, -, rfl⟩ | ⟨rest, he, -, rfl⟩ | ⟨rest, -, -, rfl⟩ | ⟨w, rest, u, he, -, hu, rfl⟩ := step_next h
  · rcases waitStep_cases shown s s.inbox [] with ⟨_, _, -, -, e⟩ | ⟨_, _, -, -, e⟩ | ⟨-, e⟩ <;> rw [e]
    · exact finish_inv { inv.portless with } fun _ => inv.shownClear shown he
    · exact toReset_inv _
    · exact quiet_inv inv
  · exact quiet_inv inv
  · have room : fits s.outDepth s.outq.tail.length = s.executing.isNone := by
      rw [he]
      exact fits_mono (inv.room he) (by simp)
    exact { quiet_inv inv with outqFits := room }
  · exact toReset_inv _
  · refine finish_inv (runWord_keeps_inv hu { inv.portless with }) fun full => ?_
    by_contra pending
    have := runWord_pending_fits hu (by simpa using pending) (inv.room he)
    rw [this] at full
    cases full

end Sys2Proof.Machine

namespace Sys2Proof.Machine
open Sys2Proof.Claims Sys2Proof.Laws

/-! ## Hidden storage -/

theorem State.SameButHidden.cases {s t : State} (h : s.SameButHidden t) :
    ∃ node code, t = { s with node := node, code := code } ∧
      (s.treeValid = true → node.toList.take s.nodeCnt.toNat = s.node.toList.take s.nodeCnt.toNat) ∧
      (s.codesValid = true → code = s.code) :=
  ⟨t.node, t.code, h.rest, h.tree, h.codes⟩

/-- Two outcomes that the host cannot tell apart: next states that differ only in hidden storage, or the same stop. -/
inductive Alike : Result → Result → Prop where
  | next {s t : State} (same : s.SameButHidden t) : Alike (.next s) (.next t)
  | fault (f : Fault) : Alike (.fault f) (.fault f)
  | refused (q : Refusal) : Alike (.refused q) (.refused q)

/-- The same of two walks of budget bits. -/
inductive WalkAlike : Walk → Walk → Prop where
  | ok {s t : State} (same : s.SameButHidden t) (e : Nat) : WalkAlike (.ok s e) (.ok t e)
  | raised {s t : State} (same : s.SameButHidden t) (err : Err) : WalkAlike (.raised err s) (.raised err t)
  | lost : WalkAlike .lost .lost

/-! ### What the shared operations keep -/

section
variable {s t : State} (same : s.SameButHidden t)
include same

theorem complete_alike {resp resp' : Word} (hr : resp' = resp) : Alike (complete resp s) (complete resp' t) := by
  subst hr
  obtain ⟨node, code, rfl, tree, codes⟩ := same.cases
  exact .next ⟨rfl, tree, codes⟩

theorem raise_same (cmd : Word) (e : Err) (info : Word) : (s.raise cmd e info).SameButHidden (t.raise cmd e info) := by
  obtain ⟨node, code, rfl, tree, codes⟩ := same.cases
  exact ⟨rfl, tree, codes⟩

theorem State.SameButHidden.err_eq : t.err = s.err := by rw [same.rest]
theorem State.SameButHidden.status_eq : t.status = s.status := by rw [same.rest]; rfl

theorem unlessPending_alike {b b' : Result} (hb : Alike b b') : Alike (unlessPending s b) (unlessPending t b') := by
  rw [unlessPending, unlessPending, same.err_eq]
  split
  · exact .next same
  · exact hb

theorem require_alike {ok : Bool} {cmd : Word} {e : Err} {info : Word} {b b' : Result} (hb : ok = true → Alike b b') :
    Alike (require ok cmd e info s b) (require ok cmd e info t b') := by
  cases ok with
  | true => exact hb rfl
  | false => exact .next (raise_same same cmd e info)

theorem requireSeq_alike {ok ok' : Bool} {cmd : Word} {b b' : Result} (hok : ok' = ok) (hb : ok = true → Alike b b') :
    Alike (requireSeq ok cmd s b) (requireSeq ok' cmd t b') := by
  rw [requireSeq, requireSeq, same.status_eq, hok]
  exact require_alike same hb

theorem guarded_alike {ok ok' : Bool} {cmd : Word} {b b' : Result} (hok : ok' = ok) (hb : ok = true → Alike b b') :
    Alike (unlessPending s (requireSeq ok cmd s b)) (unlessPending t (requireSeq ok' cmd t b')) :=
  unlessPending_alike same (requireSeq_alike same hok hb)

/-- Below NODE_CNT a valid tree is not hidden (10_state.md R24). -/
theorem State.SameButHidden.nodeAt?_eq (valid : s.treeValid = true) {i : NodeIdx} (hi : i.toNat < s.nodeCnt.toNat) : t.nodeAt? i = s.nodeAt? i := by
  show t.node[i.toNat]? = s.node[i.toNat]?
  have := congrArg (·[i.toNat]?) (same.tree valid)
  simpa only [List.getElem?_take, hi, if_true, Vector.getElem?_toList] using this

theorem withNode_alike {cmd : Word} {idx : NodeIdx} {k k' : Node → Result} (hk : ∀ n, Alike (k n) (k' n)) :
    Alike (withNode cmd idx s k) (withNode cmd idx t k') := by
  have valid_eq : t.treeValid = s.treeValid := by rw [same.rest]
  have count_eq : t.nodeCnt = s.nodeCnt := by rw [same.rest]
  refine requireSeq_alike same valid_eq fun valid => ?_
  rw [count_eq]
  refine require_alike same fun hi => ?_
  rw [same.nodeAt?_eq valid (of_decide_eq_true hi)]
  cases s.nodeAt? idx with
  | none => exact .fault _
  | some n => exact hk n

end

theorem afterWalk_alike {cmd : Word} {w w' : Walk} {k k' : State → Nat → Result} (walk : WalkAlike w w')
    (hk : ∀ u v e, u.SameButHidden v → Alike (k u e) (k' v e)) : Alike (afterWalk cmd w k) (afterWalk cmd w' k') := by
  cases walk with
  | ok same e => exact hk _ _ e same
  | @raised s t same err =>
    have used_eq : t.uUsed = s.uUsed := by rw [same.rest]
    rw [afterWalk, afterWalk, used_eq]
    exact .next (raise_same same cmd err _)
  | lost => exact .fault _

/-! ### The walker sees no hidden entry -/

/-- A walk can start: the tree is current, the walker stands in it, and it has leaves if a symbol is owed. -/
structure State.WalkReady (s : State) : Prop where
  valid : s.treeValid = true
  current : s.TreeCurrent
  placed : s.WalkerPlaced
  leaves : s.uRem ≠ 0 → leafArena s.freq ≠ []

theorem State.Inv.walkReady {s : State} (inv : s.Inv) (isOpen : s.unpackOpen = true) : s.WalkReady where
  valid := inv.unpackHasTree isOpen
  current := inv.treeCurrent (inv.unpackHasTree isOpen)
  placed := inv.walker isOpen
  leaves h := by
    have sum := owed_iff.1 (inv.owed isOpen)
    refine leafArena_ne_nil fun e => h (BitVec.eq_of_toNat_eq ?_)
    rw [e] at sum
    simp at sum
    exact sum.1

/-- A bit that is counted leaves the walk ready to go on. -/
theorem State.WalkReady.ubit {s t : State} (ready : s.WalkReady) {x : Bool} {e e' : Nat} (h : ubit x s e = .ok t e') : t.WalkReady := by
  rcases ubit_spec x s e with ⟨h', -⟩ | ⟨h', -⟩ | ⟨h', -⟩ | ⟨syms, u, h', -, owed, hd⟩ <;> rw [h'] at h
  · cases h
  · cases h
  · cases h
  · obtain ⟨rfl, -⟩ := Walk.ok.inj h
    exact ⟨ready.valid, ready.current, decodeBits_standing ready.current [x] ready.placed hd, fun _ => ready.leaves owed⟩

theorem root_lt_nodeCnt {s : State} (ht : s.TreeCurrent) (hne : leafArena s.freq ≠ []) : s.root.toNat < s.nodeCnt.toNat := by
  obtain ⟨t, spec⟩ := buildArena_spec hne
  have hroot := TreeCurrent.root_toNat ht spec hne
  have hlen := spec.length
  have hpos := List.length_pos_iff.2 hne
  have := buildArena_length_le s.freq
  obtain ⟨-, hcnt, -, -⟩ := ht
  rw [hcnt, hroot, BitVec.toNat_ofNat, Nat.mod_eq_of_lt (by omega)]
  omega

/-- One bit looks only at ROOT and nodes below it (44_bit_unpacker.md R96). -/
theorem ubit_alike {s t : State} (same : s.SameButHidden t) (ready : s.WalkReady) (x : Bool) (e : Nat) :
    WalkAlike (ubit x s e) (ubit x t e) := by
  have node_eq (owed : s.uRem ≠ 0) {i : NodeIdx} (hi : i.toNat ≤ s.root.toNat) : t.nodeAt? i = s.nodeAt? i :=
    same.nodeAt?_eq ready.valid (lt_of_le_of_lt hi (root_lt_nodeCnt ready.current (ready.leaves owed)))
  obtain ⟨node, code, rfl, tree, codes⟩ := same.cases
  have at_root : s.uNode.toNat ≤ s.root.toNat := ((walkerPlaced_iff s).1 ready.placed).le_root
  unfold ubit
  dsimp only
  split
  · exact .raised ⟨rfl, tree, codes⟩ _
  · rename_i owed
    rw [node_eq owed at_root]
    cases hn : s.nodeAt? s.uNode with
    | none => exact .lost
    | some n =>
      dsimp only
      split
      · split
        · exact .raised ⟨rfl, tree, codes⟩ _
        · exact .ok ⟨rfl, tree, codes⟩ _
      · rename_i inner
        obtain ⟨-, hleft, hright⟩ := TreeCurrent.child_lt ready.current (ready.leaves owed) at_root hn (by simpa using inner)
        have child : (if x then n.right else n.left).toNat ≤ s.root.toNat := by
          cases x
          · exact (le_of_lt hleft).trans at_root
          · exact (le_of_lt hright).trans at_root
        rw [node_eq owed child]
        cases s.nodeAt? (if x then n.right else n.left) with
        | none => exact .lost
        | some m =>
          dsimp only
          split
          · exact .ok ⟨rfl, tree, codes⟩ _
          · exact .ok ⟨rfl, tree, codes⟩ _

theorem feedBits_alike (xs : List Bool) : ∀ {s t : State}, s.SameButHidden t → s.WalkReady → ∀ e : Nat,
    WalkAlike (feedBits xs s e) (feedBits xs t e) := by
  induction xs with
  | nil => exact fun same _ e => .ok same e
  | cons x xs ih =>
    intro s t same ready e
    have first := ubit_alike same ready x e
    have keep {u d} (h : ubit x s e = .ok u d) := ready.ubit h
    rw [feedBits, feedBits]
    generalize ubit x s e = w, ubit x t e = w' at first keep ⊢
    cases first with
    | ok same' e' => exact ih same' (keep rfl) e'
    | raised same' err => exact .raised same' err
    | lost => exact .lost

/-! ### GENCODES depends on FREQ alone -/

/-- An arena holds one tree at a node. -/
theorem Rep_unique {g : Nat → Option Node} : ∀ {t t' : HTree} {i : Nat}, Rep g i t → Rep g i t' → t = t'
  | .leaf _, .leaf _, _, ⟨n, h, _, rfl⟩, ⟨n', h', _, rfl⟩ => by rw [Option.some.inj (h.symm.trans h')]
  | .leaf _, .node _ _, _, ⟨n, h, hl, _⟩, ⟨n', h', hl', _⟩ => by
    rw [Option.some.inj (h.symm.trans h'), hl'] at hl
    cases hl
  | .node _ _, .leaf _, _, ⟨n, h, hl, _⟩, ⟨n', h', hl', _⟩ => by
    rw [Option.some.inj (h.symm.trans h'), hl'] at hl
    cases hl
  | .node _ _, .node _ _, _, ⟨n, h, _, h1, h2⟩, ⟨n', h', _, h1', h2'⟩ => by
    obtain rfl := Option.some.inj (h.symm.trans h')
    rw [Rep_unique h1 h1', Rep_unique h2 h2']

/-- The codes of a current tree are those of its FREQ: no hidden entry has a say. -/
theorem codeTable_eq {s t : State} (hs : s.TreeCurrent) (ht : t.TreeCurrent) (hf : t.freq = s.freq) :
    codeTable t.node t.root = codeTable s.node s.root := by
  rcases Nat.lt_trichotomy (leafArena s.freq).length 1 with h0 | h1 | h2
  · have hnil : leafArena s.freq = [] := List.length_eq_zero_iff.1 (by omega)
    rw [codeTable_empty hs hnil, codeTable_empty ht (by rw [hf]; exact hnil)]
  · obtain ⟨sym, only, -, e⟩ := codeTable_single hs h1
    obtain ⟨sym', only', -, e'⟩ := codeTable_single ht (by rw [hf]; exact h1)
    have : sym = sym' := (only' sym).1 (by simpa [State.freqAt, hf] using (only sym).2 rfl)
    rw [e, e', this]
  · obtain ⟨T, spec, -, -, -, -, -, e⟩ := codeTable_paths hs h2
    obtain ⟨T', spec', -, -, -, -, -, e'⟩ := codeTable_paths ht (by rw [hf]; exact h2)
    rw [hf] at spec'
    rw [e, e', Rep_unique spec.rep spec'.rep]

/-! ### The commands and the step -/

theorem flushAcc_same {s t : State} (same : s.SameButHidden t) : (flushAcc s).SameButHidden (flushAcc t) := by
  obtain ⟨node, code, rfl, tree, codes⟩ := same.cases
  unfold flushAcc
  dsimp only
  split <;> exact ⟨rfl, tree, codes⟩

/-- BUILD leaves nothing hidden below NODE_CNT (10_state.md R24). -/
theorem withTree_same {s t : State} (same : s.SameButHidden t) : s.withTree.SameButHidden t.withTree := by
  obtain ⟨node, code, rfl, -, -⟩ := same.cases
  have len := buildArena_length_le s.freq
  have count : s.withTree.nodeCnt.toNat = (buildArena s.freq).length := by
    show (BitVec.ofNat 10 _).toNat = _
    rw [BitVec.toNat_ofNat, Nat.mod_eq_of_lt (by omega)]
  refine ⟨rfl, fun _ => ?_, nofun⟩
  rw [count]
  exact (overlay_take len node).trans (overlay_take len s.node).symm

/-- Every command has outcomes alike on good states that differ only in hidden storage (R24, R26). -/
theorem exec_alike (i : Instr) {s t : State} (hs : s.Inv) (ht : t.Inv) (same : s.SameButHidden t) : Alike (exec i s) (exec i t) := by
  obtain ⟨node, code, rfl, tree, codes⟩ := same.cases
  cases i with
  | nop => exact complete_alike same rfl
  | freqWr sym cnt =>
    exact guarded_alike same rfl fun _ => complete_alike (s := (s.setFreq sym cnt).invalidate) ⟨rfl, nofun, nofun⟩ rfl
  | freqRd sym => exact unlessPending_alike same (complete_alike same rfl)
  | freqClr => exact guarded_alike same rfl fun _ => complete_alike (s := s.clearFreq.invalidate) ⟨rfl, nofun, nofun⟩ rfl
  | build =>
    have tree_same := withTree_same same
    exact guarded_alike same rfl fun _ => complete_alike tree_same (by rw [tree_same.rest])
  | nodeWt idx => exact unlessPending_alike same (withNode_alike same fun n => complete_alike same rfl)
  | nodeLnk idx => exact unlessPending_alike same (withNode_alike same fun n => complete_alike same rfl)
  | gencodes =>
    refine guarded_alike same rfl fun ok => ?_
    have valid : s.treeValid = true := (Bool.and_eq_true_iff.1 ok).1
    rw [codeTable_eq (hs.treeCurrent valid) (ht.treeCurrent valid) rfl]
    cases codeTable s.node s.root with
    | none => exact .fault _
    | some tbl =>
      refine complete_alike (s := { s with code := tbl, codesValid := true }) ?_ rfl
      exact ⟨rfl, tree, fun _ => rfl⟩
  | codeLen sym =>
    refine guarded_alike same rfl fun valid => ?_
    obtain rfl := codes valid
    exact complete_alike same rfl
  | codeBits sym k =>
    refine guarded_alike same rfl fun valid => ?_
    obtain rfl := codes valid
    exact complete_alike same rfl
  | packBegin => exact guarded_alike same rfl fun _ => complete_alike ⟨rfl, tree, codes⟩ rfl
  | packSym sym =>
    refine guarded_alike same rfl fun isOpen => ?_
    obtain rfl := codes (hs.packHasCodes isOpen)
    refine require_alike same fun _ => ?_
    obtain ⟨acc, nacc, bytes, bits⟩ := packBits_packed (s.codeAt sym).path s
    have bits' : packBits (State.codeAt { s with node := node } sym).path { s with node := node } =
        packed { s with node := node } acc nacc bytes := bits _ rfl rfl
    dsimp only
    rw [bits s rfl rfl, bits']
    refine complete_alike ?_ rfl
    exact ⟨rfl, tree, codes⟩
  | packFlush =>
    have flush_same := flushAcc_same same
    exact guarded_alike same rfl fun _ => complete_alike flush_same (by rw [flush_same.rest])
  | unpackBegin pad => exact guarded_alike same rfl fun _ => complete_alike ⟨rfl, tree, codes⟩ rfl
  | unpackFeed v =>
    refine guarded_alike same rfl fun ok => ?_
    have ready := hs.walkReady (Bool.and_eq_true_iff.1 ok).1
    refine afterWalk_alike (feedBits_alike _ same ready 0) fun u u' e same' => ?_
    obtain ⟨node', code', rfl, tree', codes'⟩ := same'.cases
    exact complete_alike ⟨rfl, tree', codes'⟩ rfl
  | unpackLast v =>
    refine guarded_alike same rfl fun ok => ?_
    have ready := hs.walkReady (Bool.and_eq_true_iff.1 ok).1
    refine afterWalk_alike (feedBits_alike _ same ready 0) fun u u' e same' => ?_
    obtain ⟨node', code', rfl, tree', codes'⟩ := same'.cases
    exact require_alike ⟨rfl, tree', codes'⟩ fun _ => complete_alike ⟨rfl, tree', codes'⟩ rfl
  | unpackEnd =>
    exact guarded_alike same rfl fun _ => requireSeq_alike same rfl fun _ => require_alike same fun _ =>
      complete_alike ⟨rfl, tree, codes⟩ rfl
  | regRd v =>
    have read (r : Reg) : State.readReg { s with node := node, code := code } r = s.readReg r := by cases r <;> rfl
    simp only [exec, execRegRd]
    cases regMap[v.toNat]? with
    | some r =>
      exact complete_alike same (read r)
    | none => exact unlessPending_alike same (.next (raise_same same _ _ _))
  | errClr => exact complete_alike ⟨rfl, tree, codes⟩ rfl
  | sreset => exact .next ⟨rfl, nofun, nofun⟩

theorem runWord_alike (w : Word) {s t : State} (hs : s.Inv) (ht : t.Inv) (same : s.SameButHidden t) :
    Alike (runWord w s) (runWord w t) := by
  unfold runWord
  cases decode w with
  | ok i => exact exec_alike i hs ht same
  | error d => exact unlessPending_alike same (.next (raise_same same _ _ _))

theorem finish_same {s t : State} (same : s.SameButHidden t) (shown : Shown) :
    (finish shown s).SameButHidden (finish shown t) := by
  obtain ⟨node, code, rfl, tree, codes⟩ := same.cases
  unfold finish
  dsimp only
  split <;> exact ⟨rfl, tree, codes⟩

theorem settled_alike {r r' : Result} (h : Alike r r') (shown : Shown) : Alike (settled shown r) (settled shown r') := by
  cases h with
  | next same => exact .next (finish_same same shown)
  | fault f => exact .fault f
  | refused q => exact .refused q

theorem inbox_same {s t : State} (same : s.SameButHidden t) (inbox : List HostEvent) :
    ({ s with inbox := inbox } : State).SameButHidden { t with inbox := inbox } := by
  obtain ⟨node, code, rfl, tree, codes⟩ := same.cases
  exact ⟨rfl, tree, codes⟩

theorem State.Inv.withInbox {s : State} (inv : s.Inv) (inbox : List HostEvent) : ({ s with inbox := inbox } : State).Inv :=
  { inv with }

theorem quiet_same {s t : State} (same : s.SameButHidden t) : (quiet s).SameButHidden (quiet t) := by
  obtain ⟨node, code, rfl, tree, codes⟩ := same.cases
  exact ⟨rfl, tree, codes⟩

theorem takeByte_same {s t : State} (same : s.SameButHidden t) : (takeByte s).SameButHidden (takeByte t) := by
  obtain ⟨node, code, rfl, tree, codes⟩ := same.cases
  exact ⟨rfl, tree, codes⟩

theorem toReset_same {s t : State} (same : s.SameButHidden t) : s.toReset.SameButHidden t.toReset := by
  obtain ⟨node, code, rfl, -, -⟩ := same.cases
  exact ⟨rfl, nofun, nofun⟩

theorem waitStep_same {s t : State} (same : s.SameButHidden t) (shown : Shown) (inbox : List HostEvent) : ∀ held,
    (waitStep shown s held inbox).SameButHidden (waitStep shown t held inbox) := by
  induction inbox with
  | nil => exact fun _ => quiet_same same
  | cons ev rest ih =>
    intro held
    cases ev with
    | command w => exact ih _
    | drain => exact finish_same (takeByte_same (inbox_same same _)) shown
    | rst => exact toReset_same (inbox_same same _)

theorem step_nothing {s : State} (h : s.executing = none) (hi : s.inbox = []) : step s = .next (quiet s) := by
  simp [step, h, hi]

theorem step_drain {s : State} {rest : List HostEvent} (h : s.executing = none) (hi : s.inbox = .drain :: rest) :
    step s = .next (takeByte (quiet { s with inbox := rest })) := by
  simp [step, h, hi]

theorem step_rst {s : State} {rest : List HostEvent} (h : s.executing = none) (hi : s.inbox = .rst :: rest) :
    step s = .next (resetInput { s with inbox := rest }) := by
  simp [step, h, hi]

/-- Good states that differ only in hidden storage step alike. -/
theorem step_alike {s t : State} (hs : s.Inv) (ht : t.Inv) (same : s.SameButHidden t) : Alike (step s) (step t) := by
  have executing_eq : t.executing = s.executing := by rw [same.rest]
  have inbox_eq : t.inbox = s.inbox := by rw [same.rest]
  have shown_eq : (⟨t.resp, t.err⟩ : Shown) = ⟨s.resp, s.err⟩ := by rw [same.rest]
  rcases he : s.executing with _ | shown
  · have he' := executing_eq.trans he
    rcases hi : s.inbox with _ | ⟨⟨w⟩ | _ | _, rest⟩ <;> have hi' := inbox_eq.trans hi
    · rw [step_nothing he hi, step_nothing he' hi']
      exact .next (quiet_same same)
    · rw [step_command he hi, step_command he' hi', shown_eq]
      exact settled_alike (runWord_alike w (hs.withInbox rest) (ht.withInbox rest) (inbox_same same rest)) _
    · rw [step_drain he hi, step_drain he' hi']
      exact .next (takeByte_same (quiet_same (inbox_same same rest)))
    · rw [step_rst he hi, step_rst he' hi']
      exact .next (toReset_same (inbox_same same rest))
  · rw [step_executing he, step_executing (executing_eq.trans he), inbox_eq]
    exact .next (waitStep_same same shown _ _)

/-- Settles O59: the two steps are alike (`step_alike`). -/
theorem unspecifiedStorageIsUnobservable : Obligations.UnspecifiedStorageIsUnobservable := by
  intro s t hs ht same
  have alike := step_alike hs ht same
  generalize step s = r, step t = r' at alike ⊢
  cases alike with
  | next same' =>
    refine ⟨fun s' e => ?_, nofun⟩
    obtain rfl := Host.Outcome.next.inj e
    exact ⟨_, rfl, same'⟩
  | fault f => exact ⟨fun _ e => (nomatch e), fun _ e => e⟩
  | refused q => exact ⟨fun _ e => (nomatch e), fun _ e => (nomatch e)⟩

end Sys2Proof.Machine

namespace Sys2Proof.Machine
open Sys2Proof.Claims Sys2Proof.Laws

/-! ## Runs of commands -/

theorem execAll_cons {i : Instr} {s t : State} (h : exec i s = .next t) (is : List Instr) : execAll (i :: is) s = execAll is t := by
  rw [execAll, h]

theorem execAll_append {xs : List Instr} {s t : State} (h : execAll xs s = .next t) (ys : List Instr) :
    execAll (xs ++ ys) s = execAll ys t := by
  induction xs generalizing s with
  | nil => rw [Host.Outcome.next.inj h, List.nil_append]
  | cons i is ih =>
    rw [execAll] at h
    split at h
    · rename_i u hu
      rw [List.cons_append, execAll_cons hu, ih h]
    · cases h
    · cases h

/-- A command whose sequencing condition holds runs, with no error pending (70_reset_and_hazards.md R127). -/
theorem guarded_of_ok {s : State} (clear : s.err = false) {ok : Bool} (hok : ok = true) (cmd : Word) (body : Result) :
    unlessPending s (requireSeq ok cmd s body) = body := by
  rw [unlessPending_of_clear clear, requireSeq, require_of_true hok]

/-! ### The frequency table loaded -/

/-- The frequency table that a list of counts makes: each is written in turn, over zeros (40_freq_table.md R75, R77). -/
def countTable (entries : List (Byte × Count)) : Vector Count 256 :=
  entries.foldl (fun freq e => freq.set e.1.toNat e.2 e.1.isLt) (Vector.replicate 256 0)

/-- The state with a table written to FREQ, which leaves no valid tree. -/
def State.loaded (s : State) (freq : Vector Count 256) : State := { ({ s with freq := freq } : State).invalidate with resp := 0 }

/-- The state with a pack session opened (43_bit_packer.md R90). -/
def State.packBegun (s : State) : State :=
  { s with acc := 0, nacc := 0, pBytes := 0, pBits := 0, pSyms := 0, packOpen := true, resp := 0 }

/-- The state with an unpack session opened (44_bit_unpacker.md R95). -/
def State.unpackBegun (s : State) (pad : BitVec 3) : State :=
  { s with
    uPad := pad, uRem := s.total, uNode := s.root, uUsed := 0, uFed := 0, uSyms := 0, uLast := false, unpackOpen := true
    resp := zext s.total }

section
variable {s : State} (clear : s.err = false) (idle : s.sessionOpen = false)
include clear idle

theorem exec_freqClr : exec .freqClr s = .next (s.loaded (Vector.replicate 256 0)) :=
  guarded_of_ok clear (by simp [idle]) _ _

theorem exec_freqWr (sym : Byte) (cnt : Count) : exec (.freqWr sym cnt) s = .next (s.loaded (s.freq.set sym.toNat cnt sym.isLt)) :=
  guarded_of_ok clear (by simp [idle]) _ _

theorem execAll_freqWr (entries : List (Byte × Count)) : ∀ freq : Vector Count 256,
    execAll (entries.map fun (sym, cnt) => .freqWr sym cnt) (s.loaded freq) =
      .next (s.loaded (entries.foldl (fun freq e => freq.set e.1.toNat e.2 e.1.isLt) freq)) := by
  induction entries with
  | nil => exact fun _ => rfl
  | cons e es ih => exact fun freq => (execAll_cons (exec_freqWr (s := s.loaded freq) clear idle e.1 e.2) _).trans (ih _)

/-- LOAD_FREQ (30_encoding.md R74) leaves the table of its counts. -/
theorem execAll_loadFreq (entries : List (Byte × Count)) :
    execAll (Pseudo.loadFreq entries).expand s = .next (s.loaded (countTable entries)) :=
  (execAll_cons (exec_freqClr clear idle) _).trans (execAll_freqWr clear idle entries _)

/-- BUILD outside a session (41_tree_builder.md R78). -/
theorem exec_build : exec .build s = .next { s.withTree with resp := buildResp s.withTree.leafCnt s.withTree.root } :=
  guarded_of_ok clear (by simp [idle]) _ _

/-- GENCODES outside a session, on a current tree (42_code_generator.md R85). -/
theorem exec_gencodes (valid : s.treeValid = true) {tbl : Vector Code 256} (table : codeTable s.node s.root = some tbl) :
    exec .gencodes s = .next { s with code := tbl, codesValid := true, resp := BitVec.ofNat 32 (maxLen tbl) } := by
  refine (guarded_of_ok clear (by simp [idle, valid]) _ _).trans ?_
  rw [table]
  rfl

/-- PACK_BEGIN outside a session (43_bit_packer.md R90). -/
theorem exec_packBegin (codes : s.codesValid = true) : exec .packBegin s = .next s.packBegun :=
  guarded_of_ok clear (by simp [idle, codes]) _ _

/-- UNPACK_BEGIN outside a session (44_bit_unpacker.md R95). -/
theorem exec_unpackBegin (valid : s.treeValid = true) (pad : BitVec 3) :
    exec (.unpackBegin pad) s = .next (s.unpackBegun pad) :=
  guarded_of_ok clear (by simp [idle, valid]) _ _

end

/-! ### A pack session -/

/-- The state after symbols that sent `bytes` out and left `acc` and `nacc` (43_bit_packer.md R91). -/
def State.packedSyms (s : State) (acc : Byte) (nacc : BitVec 4) (bytes : List Byte) (bits syms resp : Word) : State :=
  { packed s acc nacc bytes with pBits := bits, pSyms := syms, resp := resp }

/-- The state after a flush that sent `bytes` out, at most one, and closed the session with the padding count `pad` (R92). -/
def State.flushed (s : State) (bytes : List Byte) (pad : BitVec 3) (resp : Word) : State :=
  { s with
    acc := 0, nacc := 0, pBytes := s.pBytes + BitVec.ofNat 32 bytes.length, pPad := pad, packOpen := false
    outq := s.outq ++ bytes, resp := resp }

/-- The state after a pack session that sent `bytes` out and closed with the padding count `pad` (R92). -/
def State.sessionPacked (s : State) (bytes : List Byte) (bits syms : Word) (pad : BitVec 3) (resp : Word) : State :=
  { s with
    acc := 0, nacc := 0, pBytes := BitVec.ofNat 32 bytes.length, pBits := bits, pSyms := syms, pPad := pad, packOpen := false
    outq := s.outq ++ bytes, resp := resp }

/-- PACK_SYM of a symbol with a code, in a session (R91): the code's bits follow the waiting ones. -/
theorem exec_packSym {s : State} (clear : s.err = false) (isOpen : s.packOpen = true) (clean : PackerClean s) {sym : Byte}
    (coded : (s.codeAt sym).len ≠ 0) :
    ∃ acc nacc bytes bits resp,
      exec (.packSym sym) s = .next (s.packedSyms acc nacc bytes bits (s.pSyms + 1) resp) ∧ AccClean acc nacc ∧
      bitsOf bytes ++ accBits acc nacc = waiting s ++ codeOf s sym := by
  obtain ⟨acc, nacc, bytes, hp, clean', hbits, -⟩ := packBits_spec (s := s) (s.codeAt sym).path clean
  refine ⟨acc, nacc, bytes, s.pBits + zext (s.codeAt sym).len,
    BitVec.ofNat 32 ((packed s acc nacc bytes).outq.length - s.outq.length), ?_, clean', hbits⟩
  refine (guarded_of_ok clear isOpen _ _).trans ((require_of_true (by simpa using coded) ..).trans ?_)
  dsimp only
  rw [hp]
  rfl

/-- The PACK_SYMs of a session (R91): the codes' bits follow the waiting ones, in order. -/
theorem execAll_packSym (syms : List Byte) : ∀ {s : State}, s.err = false → s.packOpen = true → PackerClean s →
    (∀ sym ∈ syms, (s.codeAt sym).len ≠ 0) →
    ∃ acc nacc bytes bits resp,
      execAll (syms.map .packSym) s =
        .next (s.packedSyms acc nacc bytes bits (s.pSyms + BitVec.ofNat 32 syms.length) resp) ∧ AccClean acc nacc ∧
      bitsOf bytes ++ accBits acc nacc = waiting s ++ syms.flatMap (codeOf s) := by
  induction syms with
  | nil =>
    intro s _ _ clean _
    exact ⟨s.acc, s.nacc, [], s.pBits, s.resp, by simp [execAll, State.packedSyms, packed], clean,
      by simp [bitsOf, waiting, accBits]⟩
  | cons sym syms ih =>
    intro s clear isOpen clean coded
    obtain ⟨a1, n1, b1, p1, r1, h1, c1, w1⟩ := exec_packSym clear isOpen clean (coded sym (by simp))
    obtain ⟨a2, n2, b2, p2, r2, h2, c2, w2⟩ := ih (s := s.packedSyms a1 n1 b1 p1 (s.pSyms + 1) r1) clear isOpen c1
      fun other h => coded other (by simp [h])
    refine ⟨a2, n2, b1 ++ b2, p2, r2, ?_, c2, ?_⟩
    · rw [List.map_cons, execAll_cons h1, h2]
      simp [State.packedSyms, packed, BitVec.ofNat_add, BitVec.add_assoc, BitVec.add_comm 1#32]
    · calc bitsOf (b1 ++ b2) ++ accBits a2 n2
        _ = bitsOf b1 ++ (bitsOf b2 ++ accBits a2 n2) := by simp [bitsOf]
        _ = (bitsOf b1 ++ accBits a1 n1) ++ syms.flatMap (codeOf s) := by rw [w2, List.append_assoc]; rfl
        _ = waiting s ++ (sym :: syms).flatMap (codeOf s) := by rw [w1]; simp

/-- PACK_FLUSH in a session (R92): the waiting bits go out, padded with zeros, and the session closes. -/
theorem exec_packFlush {s : State} (clear : s.err = false) (isOpen : s.packOpen = true) (clean : PackerClean s) :
    ∃ bytes pad resp,
      exec .packFlush s = .next (s.flushed bytes pad resp) ∧
      bitsOf bytes = waiting s ++ List.replicate pad.toNat false := by
  have run := guarded_of_ok clear isOpen (encode .packFlush) (complete (zext (flushAcc s).pPad) (flushAcc s))
  by_cases whole : s.nacc = 0
  · refine ⟨[], 0, 0, run.trans ?_, by simp [bitsOf, waiting, whole, byteBits]⟩
    rw [flushAcc, if_pos whole]
    simp [complete, State.flushed, zext]
  · have small : s.nacc.toNat ≤ 7 := clean.1
    have pos : s.nacc.toNat ≠ 0 := fun e => whole (BitVec.eq_of_toNat_eq e)
    refine ⟨[padAcc s.acc s.nacc], BitVec.ofNat 3 (8 - s.nacc.toNat), zext (BitVec.ofNat 3 (8 - s.nacc.toNat)), run.trans ?_, ?_⟩
    · rw [flushAcc, if_neg whole]
      rfl
    · have pad : (BitVec.ofNat 3 (8 - s.nacc.toNat)).toNat = 8 - s.nacc.toNat := by
        rw [BitVec.toNat_ofNat]; omega
      rw [pad, bitsOf, List.flatMap_singleton]
      exact padAcc_bits clean

/-- A pack session (R94): it emits the concatenated codes of its symbols, padded with zeros to whole bytes. -/
theorem execAll_packSession {s : State} (clear : s.err = false) (codes : s.codesValid = true) (idle : s.sessionOpen = false)
    {syms : List Byte} (coded : ∀ sym ∈ syms, (s.codeAt sym).len ≠ 0) :
    ∃ bytes bits pad resp,
      execAll ([.packBegin] ++ syms.map .packSym ++ [.packFlush]) s =
        .next (s.sessionPacked bytes bits (BitVec.ofNat 32 syms.length) pad resp) ∧
      bitsOf bytes = syms.flatMap (codeOf s) ++ List.replicate pad.toNat false := by
  obtain ⟨acc, nacc, b1, bits, r1, h1, clean, w1⟩ := execAll_packSym syms (s := s.packBegun) clear rfl
    ⟨noBits_small, noBits_clean⟩ coded
  obtain ⟨b2, pad, r2, h2, w2⟩ := exec_packFlush
    (s := s.packBegun.packedSyms acc nacc b1 bits (s.packBegun.pSyms + BitVec.ofNat 32 syms.length) r1) clear rfl clean
  refine ⟨b1 ++ b2, bits, pad, r2, ?_, ?_⟩
  · rw [List.append_assoc, List.singleton_append, execAll_cons (exec_packBegin clear idle codes), execAll_append h1,
      execAll_cons h2]
    simp [execAll, State.sessionPacked, State.flushed, State.packedSyms, State.packBegun, packed, BitVec.ofNat_add]
  · calc bitsOf (b1 ++ b2)
      _ = (bitsOf b1 ++ accBits acc nacc) ++ List.replicate pad.toNat false := by
          rw [List.append_assoc, bitsOf, List.flatMap_append]; exact congrArg (_ ++ ·) w2
      _ = syms.flatMap (codeOf s) ++ List.replicate pad.toNat false := by rw [w1]; rfl

end Sys2Proof.Machine

namespace Sys2Proof.Machine
open Sys2Proof.Claims Sys2Proof.Laws

/-! ## Codes decoded on the tree -/

/-- A leaf's path decodes, from ROOT, to the leaf's symbol, and leads back to ROOT (42_code_generator.md R86; 44_bit_unpacker.md R96). -/
theorem decodeBits_path {s : State} {l r : HTree} (rep : Rep (s.node[·]?) s.root.toNat (.node l r)) {x : Byte × List Bool}
    (hx : x ∈ (HTree.node l r).paths) : s.decodeBits s.root x.2 = some ([x.1], s.root) := by
  have walk := feedBits_path (s := { s with uNode := s.root, uRem := 1 }) rfl rep (by simp) x hx 0
  rcases feedBits_spec x.2 { s with uNode := s.root, uRem := 1 } 0 with
    ⟨syms, u, h, -, hd, -⟩ | ⟨err, k, syms, u, h, -⟩ | ⟨h, -⟩ <;> rw [walk] at h
  · have same := (Walk.ok.inj h).1
    have hsyms : [x.1] = syms := List.append_cancel_left (congrArg State.outq same)
    have hu : s.root = u := congrArg State.uNode same
    rw [hsyms, ← decodeBits_congr (s := s) (t := { s with uNode := s.root, uRem := 1 }) rfl rfl, hd, hu]
  · cases h
  · cases h

/-- The code of a symbol with a count decodes, from ROOT, to the symbol, and leads back to ROOT (R86, R87, R96). -/
theorem decodeBits_code {s : State} (ht : s.TreeCurrent) (hc : s.CodesCurrent) {sym : Byte} (present : s.freqAt sym ≠ 0) :
    s.decodeBits s.root (codeOf s sym) = some ([sym], s.root) := by
  have hpos : 0 < (leafArena s.freq).length := by
    simpa using List.length_pos_of_mem ((mem_leafArena_syms s sym).2 present)
  rcases Nat.eq_or_lt_of_le hpos with h1 | h2
  · obtain ⟨only, hfreq, ⟨n, hn, hl, rfl⟩, htbl⟩ := codeTable_single ht h1.symm
    obtain rfl := (hfreq sym).1 present
    have e : s.code = noCodes.set n.sym.toNat ⟨1, 0⟩ n.sym.isLt := Option.some.inj (hc.symm.trans htbl)
    have code : codeOf s n.sym = [false] := by
      have : s.codeAt n.sym = ⟨1, 0⟩ := by simp [State.codeAt, e]
      rw [codeOf, this]; decide
    simp [code, State.decodeBits, hn, hl]
  · obtain ⟨t, spec, hlen⟩ := codesSpec ht hc h2
    obtain ⟨x, hx, rfl⟩ := List.mem_map.1 (t.map_fst_paths ▸ (spec.syms sym).2 present)
    rw [codeOf, spec.codes x hx, path_ofPath (spec.short x hx)]
    cases t with
    | leaf => simp [HTree.syms] at hlen; omega
    | node l r => exact decodeBits_path spec.rep hx

/-- So do the codes of several symbols, one after another (44_bit_unpacker.md R102). -/
theorem decodeBits_codes {s : State} (ht : s.TreeCurrent) (hc : s.CodesCurrent) (syms : List Byte)
    (present : ∀ sym ∈ syms, s.freqAt sym ≠ 0) : s.decodeBits s.root (syms.flatMap (codeOf s)) = some (syms, s.root) := by
  induction syms with
  | nil => rfl
  | cons sym syms ih =>
    rw [List.flatMap_cons, decodeBits_append, decodeBits_code ht hc (present sym (by simp)), Option.bind_some,
      ih fun other h => present other (by simp [h])]
    rfl

/-- Bits that lead to ROOT end with a bit that completes a symbol (10_state.md R36.8). -/
theorem ne_nil_of_decodeBits_root {s : State} (ht : s.TreeCurrent) {u : NodeIdx} {bits : List Bool} {syms : List Byte}
    (hu : s.Standing u) (hne : bits ≠ []) (h : s.decodeBits u bits = some (syms, s.root)) : syms ≠ [] := by
  have whole := h
  rw [← List.dropLast_append_getLast hne] at whole
  obtain ⟨xs, w, ys, h1, -, -⟩ := decodeBits_take h (bits.length - 1)
  rw [← List.dropLast_eq_take] at h1
  rcases decodeBits_snoc ht hu h1 whole with ⟨sym, rfl, -⟩ | ⟨-, hlt, -⟩
  · simp
  · exact absurd hlt (BitVec.lt_irrefl _)

/-- Bits that lead to ROOT and complete exactly the symbols owed are all consumed: none comes after the last symbol. -/
theorem walks_of_decodeBits_root {s : State} (ht : s.TreeCurrent) (hw : s.WalkerPlaced) {bits : List Bool} {syms : List Byte}
    (h : s.decodeBits s.uNode bits = some (syms, s.root)) (all : syms.length = s.uRem.toNat) : s.Walks bits syms s.root := by
  refine ⟨h, fun k hk xs w hx => ?_, all.le⟩
  obtain ⟨xs', w', ys, h1, h2, rfl⟩ := decodeBits_take h k
  obtain ⟨rfl, rfl⟩ := Prod.mk.inj (Option.some.inj (h1.symm.trans hx))
  have more : ys ≠ [] := ne_nil_of_decodeBits_root ht (decodeBits_standing ht _ hw h1) (by simpa using hk) h2
  have := List.length_pos_iff.2 more
  rw [List.length_append] at all
  omega

/-- A walk of bits is a walk of the first of them and, from the state they lead to, a walk of the others. -/
theorem State.Walks.split {s : State} {xs ys : List Bool} {syms : List Byte} {u : NodeIdx} (walk : s.Walks (xs ++ ys) syms u) :
    ∃ as w bs, syms = as ++ bs ∧ s.Walks xs as w ∧ (s.walked xs.length as w).Walks ys bs u := by
  obtain ⟨as, w, bs, h1, h2, rfl⟩ := decodeBits_take walk.decoded xs.length
  rw [List.take_left' rfl] at h1
  rw [List.drop_left' rfl] at h2
  have enough : as.length + bs.length ≤ s.uRem.toNat := by simpa using walk.enough
  have rem : (s.walked xs.length as w).uRem.toNat = s.uRem.toNat - as.length := by
    have := s.uRem.isLt
    simp only [State.walked, BitVec.toNat_sub, BitVec.toNat_ofNat]
    omega
  refine ⟨as, w, bs, rfl,
    ⟨h1, fun k hk zs v hz => ?_, by omega⟩,
    ⟨by rw [decodeBits_walked]; exact h2, fun k hk zs v hz => ?_, by omega⟩⟩
  · exact walk.owes k (by rw [List.length_append]; omega) zs v (by rw [List.take_append_of_le_length hk.le]; exact hz)
  · rw [decodeBits_walked] at hz
    have owed := walk.owes (xs.length + k) (by simpa using hk) (as ++ zs) v (by
      rw [List.take_length_add_append, decodeBits_append, h1, Option.bind_some, show s.decodeBits w (ys.take k) = _ from hz]
      rfl)
    rw [List.length_append] at owed
    omega

/-- A walk depends on the arena, ROOT, where the walker stands and the symbols owed. -/
theorem State.Walks.congr {s t : State} {bits : List Bool} {syms : List Byte} {u : NodeIdx} (walk : s.Walks bits syms u)
    (hn : t.node = s.node) (hr : t.root = s.root) (hu : t.uNode = s.uNode) (ho : t.uRem = s.uRem) : t.Walks bits syms u := by
  have same := decodeBits_congr hn hr
  refine ⟨by rw [same, hu]; exact walk.decoded, fun k hk xs w h => ?_, ho ▸ walk.enough⟩
  rw [same, hu] at h
  rw [ho]
  exact walk.owes k hk xs w h

/-! ### An unpack session -/

/-- The state after a byte whose 8 bits completed `syms` and led the walker to `u` (44_bit_unpacker.md R97). -/
def State.byteFed (s : State) (syms : List Byte) (u : NodeIdx) : State :=
  { s.walked 8 syms u with uFed := s.uFed + 1, resp := BitVec.ofNat 32 syms.length }

/-- The state after a packed stream of `n` bytes has been fed to its end: `used` data bits completed `syms` and led the walker to `u`
(R97, R98). -/
def State.streamFed (s : State) (n used : Nat) (syms : List Byte) (u : NodeIdx) (resp : Word) : State :=
  { s.walked used syms u with uFed := s.uFed + BitVec.ofNat 32 n, uLast := true, resp := resp }

theorem byteFed_streamFed (s : State) (n used : Nat) (xs ys : List Byte) (w u : NodeIdx) (resp : Word) :
    (s.byteFed xs w).streamFed n used ys u resp = s.streamFed (n + 1) (8 + used) (xs ++ ys) u resp := by
  simp [State.byteFed, State.streamFed, State.walked, BitVec.ofNat_add, BitVec.add_assoc, BitVec.sub_sub, BitVec.add_comm 1#32]

section
variable {s : State} (clear : s.err = false) (isOpen : s.unpackOpen = true) (notLast : s.uLast = false)
include clear isOpen notLast

/-- UNPACK_FEED of a byte whose bits are all consumed (44_bit_unpacker.md R97). -/
theorem exec_unpackFeed {v : Byte} {syms : List Byte} {u : NodeIdx} (walk : s.Walks (byteBits v) syms u) :
    exec (.unpackFeed v) s = .next (s.byteFed syms u) := by
  refine (guarded_of_ok clear (by simp [isOpen, notLast]) _ _).trans ?_
  rw [walk.feedBits]
  rfl

/-- UNPACK_LAST of a byte whose data bits are all consumed and complete the symbols owed (R98). -/
theorem exec_unpackLast {v : Byte} {syms : List Byte} {u : NodeIdx} (walk : s.Walks (budgetOf s (.unpackLast v)) syms u)
    (all : syms.length = s.uRem.toNat) :
    exec (.unpackLast v) s =
      .next (s.streamFed 1 (8 - s.uPad.toNat) syms u (BitVec.ofNat 32 syms.length)) := by
  have paid : s.uRem - BitVec.ofNat 24 syms.length = 0 := by rw [all]; simp
  refine (guarded_of_ok clear (by simp [isOpen, notLast]) _ _).trans ?_
  rw [show budgetBits s.uPad v = budgetOf s (.unpackLast v) from rfl, walk.feedBits, budgetOf_last_length]
  exact require_of_true (decide_eq_true paid) ..

end

/-- The rest of a session is in front of the block: the bytes hold `bits` and the padding of U_PAD zeros, and `bits` complete the symbols
owed and lead the walker to `u` (20_memory.md R59; 44_bit_unpacker.md R100). -/
structure State.Streams (s : State) (bytes : List Byte) (bits : List Bool) (syms : List Byte) (u : NodeIdx) : Prop where
  clear : s.err = false
  isOpen : s.unpackOpen = true
  notLast : s.uLast = false
  data : bitsOf bytes = bits ++ List.replicate s.uPad.toNat false
  walk : s.Walks bits syms u
  all : syms.length = s.uRem.toNat

/-- The last byte's UNPACK_LAST. -/
theorem State.Streams.last {s : State} {v : Byte} {bits : List Bool} {syms : List Byte} {u : NodeIdx} (h : s.Streams [v] bits syms u) :
    exec (.unpackLast v) s = .next (s.streamFed 1 bits.length syms u (BitVec.ofNat 32 syms.length)) := by
  have hv : byteBits v = bits ++ List.replicate s.uPad.toNat false := by simpa [bitsOf] using h.data
  have len : bits.length = 8 - s.uPad.toNat := by
    have := congrArg List.length hv
    simp only [byteBits_length, List.length_append, List.length_replicate] at this
    omega
  have data : budgetOf s (.unpackLast v) = bits := by
    show (byteBits v).take (8 - s.uPad.toNat) = bits
    rw [hv, List.take_left' len]
  rw [exec_unpackLast h.clear h.isOpen h.notLast (data.symm ▸ h.walk) h.all, len]

/-- Another byte's UNPACK_FEED: its bits are all data, since the padding is less than a byte. -/
theorem State.Streams.feed {s : State} {v b : Byte} {bytes : List Byte} {bits : List Bool} {syms : List Byte} {u : NodeIdx}
    (h : s.Streams (v :: b :: bytes) bits syms u) :
    ∃ rest xs ys w, bits = byteBits v ++ rest ∧ syms = xs ++ ys ∧ exec (.unpackFeed v) s = .next (s.byteFed xs w) ∧
      (s.byteFed xs w).Streams (b :: bytes) rest ys u := by
  obtain ⟨clear, isOpen, notLast, data, walk, all⟩ := h
  have whole : byteBits v ++ bitsOf (b :: bytes) = bits ++ List.replicate s.uPad.toNat false := data
  have pre : byteBits v <+: bits := by
    refine List.prefix_of_prefix_length_le (List.prefix_append ..) (whole.symm ▸ List.prefix_append ..) ?_
    have len : (byteBits v).length + ((byteBits b).length + (bitsOf bytes).length) = bits.length + s.uPad.toNat := by
      simpa [bitsOf] using congrArg List.length whole
    have := s.uPad.isLt
    rw [byteBits_length, byteBits_length] at len
    rw [byteBits_length]
    omega
  obtain ⟨rest, rfl⟩ := pre
  rw [List.append_assoc, List.append_cancel_left_eq] at whole
  obtain ⟨xs, w, ys, rfl, first, others⟩ := walk.split
  have owed : ys.length = (s.byteFed xs w).uRem.toNat := by
    have := s.uRem.isLt
    rw [List.length_append] at all
    rw [show (s.byteFed xs w).uRem = s.uRem - BitVec.ofNat 24 xs.length from rfl, BitVec.toNat_sub, BitVec.toNat_ofNat]
    omega
  exact ⟨rest, xs, ys, w, rfl, rfl, exec_unpackFeed clear isOpen notLast first,
    clear, isOpen, notLast, whole, others.congr rfl rfl rfl rfl, owed⟩

/-- The feed commands of a packed stream decode it to its end (44_bit_unpacker.md R97, R98; 20_memory.md R59). -/
theorem execAll_feedCommands : ∀ (bytes : List Byte) {s : State} {bits : List Bool} {syms : List Byte} {u : NodeIdx},
    bytes ≠ [] → s.Streams bytes bits syms u →
    ∃ resp, execAll (feedCommands bytes) s = .next (s.streamFed bytes.length bits.length syms u resp)
  | [], _, _, _, _, hne, _ => absurd rfl hne
  | [_], _, _, _, _, _, h => ⟨_, execAll_cons h.last []⟩
  | v :: b :: bytes, s, _, _, u, _, h => by
    obtain ⟨rest, xs, ys, w, rfl, rfl, run, others⟩ := h.feed
    obtain ⟨resp, runs⟩ := execAll_feedCommands (b :: bytes) (by simp) others
    refine ⟨resp, (execAll_cons run _).trans (runs.trans ?_)⟩
    rw [byteFed_streamFed, List.length_append, byteBits_length]
    rfl

/-- UNPACK_END of a session that has had its last byte, if it had any, and owes nothing (R99). -/
theorem exec_unpackEnd {s : State} (clear : s.err = false) (isOpen : s.unpackOpen = true) (ended : s.uFed = 0 ∨ s.uLast = true)
    (paid : s.uRem = 0) : exec .unpackEnd s = .next { s with unpackOpen := false, resp := s.uSyms } := by
  refine (guarded_of_ok clear isOpen _ _).trans ((require_of_true (by simpa using ended) ..).trans ?_)
  exact require_of_true (decide_eq_true paid) ..

/-- An unpack session (44_bit_unpacker.md R102): data bits that lead from ROOT to ROOT and complete as many symbols as TOTAL, padded to
whole bytes, give back exactly the symbols. -/
theorem execAll_unpackSession {s : State} (clear : s.err = false) (valid : s.treeValid = true) (idle : s.sessionOpen = false)
    (ht : s.TreeCurrent) {bytes syms : List Byte} {bits : List Bool} {pad : BitVec 3}
    (hbits : bitsOf bytes = bits ++ List.replicate pad.toNat false) (hd : s.decodeBits s.root bits = some (syms, s.root))
    (all : syms.length = s.total.toNat) :
    ∃ u, execAll ([.unpackBegin pad] ++ feedCommands bytes ++ [.unpackEnd]) s = .next u ∧ u.err = false ∧
      u.outq = s.outq ++ syms := by
  have begin_run := exec_unpackBegin clear idle valid pad
  have decoded : (s.unpackBegun pad).decodeBits s.root bits = some (syms, s.root) :=
    (decodeBits_congr (s := s) (t := s.unpackBegun pad) rfl rfl bits _).trans hd
  have walk : (s.unpackBegun pad).Walks bits syms s.root :=
    walks_of_decodeBits_root (s := s.unpackBegun pad) ht (.inl rfl) decoded all
  rw [List.append_assoc, List.singleton_append, execAll_cons begin_run]
  by_cases hne : bytes = []
  · subst hne
    obtain ⟨rfl, -⟩ := List.append_eq_nil_iff.1 hbits.symm
    obtain rfl : [] = syms := congrArg Prod.fst (Option.some.inj hd)
    have paid : (s.unpackBegun pad).uRem = 0 := BitVec.eq_of_toNat_eq all.symm
    have end_run := exec_unpackEnd (s := s.unpackBegun pad) clear rfl (.inl rfl) paid
    exact ⟨_, execAll_cons end_run [], clear, (List.append_nil _).symm⟩
  · obtain ⟨resp, feed_run⟩ := execAll_feedCommands bytes (s := s.unpackBegun pad) hne ⟨clear, rfl, rfl, hbits, walk, all⟩
    have paid : ((s.unpackBegun pad).streamFed bytes.length bits.length syms s.root resp).uRem = 0 := by
      show s.total - BitVec.ofNat 24 syms.length = 0
      rw [all]; simp
    have end_run := exec_unpackEnd (s := (s.unpackBegun pad).streamFed _ _ _ _ resp) clear rfl (.inr rfl) paid
    exact ⟨_, (execAll_append feed_run _).trans (execAll_cons end_run []), clear, rfl⟩

end Sys2Proof.Machine

namespace Sys2Proof.Machine
open Sys2Proof.Claims Sys2Proof.Laws

/-! ## The counts of an input -/

theorem mem_countEntries {input : List Byte} {e : Byte × Nat} :
    e ∈ countEntries input ↔ e.2 = input.count e.1 ∧ e.1 ∈ input := by
  simp only [countEntries, List.mem_filter, List.mem_map, List.mem_range, decide_eq_true_eq]
  constructor
  · rintro ⟨⟨v, -, rfl⟩, hne⟩
    exact ⟨rfl, List.count_pos_iff.1 (Nat.pos_of_ne_zero hne)⟩
  · rintro ⟨he, hm⟩
    refine ⟨⟨e.1.toNat, e.1.isLt, ?_⟩, ?_⟩
    · rw [BitVec.ofNat_toNat, BitVec.setWidth_eq, ← he]
    · rw [he]
      exact (List.count_pos_iff.2 hm).ne'

theorem countEntries_nodup (input : List Byte) : ((countEntries input).map Prod.fst).Nodup := by
  have all : (((List.range 256).map fun v => (BitVec.ofNat 8 v, input.count (BitVec.ofNat 8 v))).map Prod.fst).Nodup := by
    rw [List.map_map]
    refine List.Nodup.map_on (fun a ha b hb h => ?_) List.nodup_range
    exact ofNat_byte_inj (List.mem_range.1 ha) (List.mem_range.1 hb) h
  exact all.sublist (List.filter_sublist.map Prod.fst)

theorem countEntries_length_le (input : List Byte) : (countEntries input).length ≤ 256 :=
  (List.length_filter_le ..).trans (by simp)

/-- The counts of an input's values make up its length. -/
theorem countEntries_sum (input : List Byte) : ((countEntries input).map Prod.snd).sum = input.length := by
  have keys : ((countEntries input).map Prod.fst).Perm input.dedup := by
    refine (List.perm_ext_iff_of_nodup (countEntries_nodup input) input.nodup_dedup).2 fun v => ?_
    rw [List.mem_dedup, List.mem_map]
    constructor
    · rintro ⟨e, he, rfl⟩
      exact (mem_countEntries.1 he).2
    · exact fun hv => ⟨(v, input.count v), mem_countEntries.2 ⟨rfl, hv⟩, rfl⟩
  calc ((countEntries input).map Prod.snd).sum
    _ = (((countEntries input).map Prod.fst).map fun v => input.count v).sum := by
        rw [List.map_map]
        exact congrArg List.sum (List.map_congr_left fun e he => (mem_countEntries.1 he).1)
    _ = (input.dedup.map fun v => input.count v).sum := (keys.map _).sum_eq
    _ = input.length := List.sum_map_count_dedup_eq_length input

/-- What the host gives the block of an input (20_memory.md R54, R61): each value that occurs, with its count, once. -/
structure CountsOf (input : List Byte) (entries : List (Byte × Count)) : Prop where
  nodup : (entries.map Prod.fst).Nodup
  counts : ∀ e ∈ entries, e.2 ≠ 0
  present : ∀ v ∈ input, v ∈ entries.map Prod.fst
  total : (entries.map fun e => e.2.toNat).sum = input.length
  length_le : entries.length ≤ 256

theorem countsOf_of_blockEntries {input : List Byte} {entries : List (Byte × Count)} (h : blockEntries input = some entries) :
    CountsOf input entries := by
  rw [blockEntries] at h
  split at h
  · rename_i small
    obtain rfl := Option.some.inj h
    have value {e : Byte × Nat} (he : e ∈ countEntries input) : (BitVec.ofNat 16 e.2).toNat = e.2 := by
      have := of_decide_eq_true (List.all_eq_true.1 small e he)
      rw [BitVec.toNat_ofNat]
      omega
    constructor
    · rw [List.map_map]
      exact countEntries_nodup input
    · intro e' he'
      obtain ⟨e, he, rfl⟩ := List.mem_map.1 he'
      obtain ⟨hc, hm⟩ := mem_countEntries.1 he
      intro e0
      have pos := List.count_pos_iff.2 hm
      have := value he
      rw [show BitVec.ofNat 16 e.2 = 0 from e0] at this
      simp at this
      omega
    · intro v hv
      rw [List.map_map]
      exact List.mem_map.2 ⟨(v, input.count v), mem_countEntries.2 ⟨rfl, hv⟩, rfl⟩
    · rw [List.map_map, ← countEntries_sum]
      exact congrArg List.sum (List.map_congr_left fun e he => value he)
    · rw [List.length_map]
      exact countEntries_length_le input
  · cases h

/-! ### The table they make -/

theorem countTable_snoc (entries : List (Byte × Count)) (e : Byte × Count) :
    countTable (entries ++ [e]) = (countTable entries).set e.1.toNat e.2 e.1.isLt := by
  simp [countTable]

theorem countTable_absent {entries : List (Byte × Count)} {v : Byte} (h : v ∉ entries.map Prod.fst) :
    (countTable entries)[v.toNat]'v.isLt = 0 := by
  induction entries using List.reverseRecOn with
  | nil => simp [countTable]
  | append_singleton es e ih =>
    simp only [List.map_append, List.mem_append, not_or, List.map_cons, List.map_nil, List.mem_singleton] at h
    obtain ⟨h1, h2⟩ := h
    simp only [countTable_snoc]
    rw [Vector.getElem_set_ne _ _ fun e' => h2 (BitVec.eq_of_toNat_eq e'.symm)]
    exact ih h1

/-- The table reads an entry's count. -/
theorem countTable_present {entries : List (Byte × Count)} (nodup : (entries.map Prod.fst).Nodup) {e : Byte × Count} (h : e ∈ entries) :
    (countTable entries)[e.1.toNat]'e.1.isLt = e.2 := by
  induction entries using List.reverseRecOn with
  | nil => cases h
  | append_singleton es x ih =>
    rw [List.map_append, List.map_cons, List.map_nil, List.nodup_append] at nodup
    obtain ⟨nodup, -, apart⟩ := nodup
    simp only [countTable_snoc]
    rcases List.mem_append.1 h with h | h
    · have hne : x.1 ≠ e.1 := fun e' => apart e.1 (List.mem_map_of_mem h) x.1 (by simp) e'.symm
      rw [Vector.getElem_set_ne _ _ fun e' => hne (BitVec.eq_of_toNat_eq e')]
      exact ih nodup h
    · obtain rfl := List.mem_singleton.1 h
      simp

/-- The table's sum is that of the counts. -/
theorem sumCounts_countTable {entries : List (Byte × Count)} (nodup : (entries.map Prod.fst).Nodup) :
    sumCounts (countTable entries) = (entries.map fun e => e.2.toNat).sum := by
  induction entries using List.reverseRecOn with
  | nil => exact (total_toNat State.reset).symm.trans (congrArg BitVec.toNat (total_clearFreq State.reset))
  | append_singleton es e ih =>
    rw [List.map_append, List.map_cons, List.map_nil, List.nodup_append] at nodup
    obtain ⟨nodup, -, apart⟩ := nodup
    have absent : e.1 ∉ es.map Prod.fst := fun h => apart _ h _ (by simp) rfl
    have moved := sumCounts_set (countTable es) e.1.toNat e.1.isLt e.2
    rw [countTable_absent absent] at moved
    rw [countTable_snoc, List.map_append, List.sum_append, ← ih nodup]
    simpa using moved

theorem CountsOf.freqAt_ne_zero {input : List Byte} {entries : List (Byte × Count)} (h : CountsOf input entries) {s : State}
    (hf : s.freq = countTable entries) : ∀ v ∈ input, s.freqAt v ≠ 0 := by
  intro v hv
  obtain ⟨e, he, rfl⟩ := List.mem_map.1 (h.present v hv)
  simp only [State.freqAt, hf]
  rw [countTable_present h.nodup he]
  exact h.counts e he

theorem CountsOf.total_eq {input : List Byte} {entries : List (Byte × Count)} (h : CountsOf input entries) {s : State}
    (hf : s.freq = countTable entries) : s.total.toNat = input.length := by
  rw [total_toNat, hf, sumCounts_countTable h.nodup, h.total]

/-! ## The encoded form -/

/-- A count survives its two bytes (20_memory.md R55). -/
theorem count_of_bytes (c : Count) : ((c.extractLsb' 8 8).setWidth 16 <<< 8) ||| (c.extractLsb' 0 8).setWidth 16 = c := by
  refine BitVec.eq_of_getLsbD_eq fun i hi => ?_
  rcases Nat.lt_or_ge i 8 with h | h
  · simp [h, hi]
  · simp [h, hi, show ¬ i < 8 by omega, show i - 8 < 8 by omega, show 8 + (i - 8) = i by omega]

theorem takeEntries_flatMap (entries : List (Byte × Count)) (rest : List Byte) :
    takeEntries entries.length (entries.flatMap entryBytes ++ rest) = some (entries, rest) := by
  induction entries with
  | nil => rfl
  | cons e es ih =>
    show (takeEntries es.length (es.flatMap entryBytes ++ rest)).map _ = _
    rw [ih]
    simp [count_of_bytes]

/-- The encoded form reads back (20_memory.md R52, R53, R57, R60). -/
theorem parseContainer_encodedForm {entries : List (Byte × Count)} (hne : entries ≠ []) (h256 : entries.length ≤ 256)
    (nodup : (entries.map Prod.fst).Nodup) (counts : ∀ e ∈ entries, e.2 ≠ 0) (packed : List Byte) (pad : BitVec 3) :
    parseContainer (encodedForm entries packed pad) = .ok (.encoded entries packed pad) := by
  have hpos := List.length_pos_iff.2 hne
  have number : (if (BitVec.ofNat 8 entries.length : Byte) = 0 then 256 else (BitVec.ofNat 8 entries.length : Byte).toNat) =
      entries.length := by
    split
    · rename_i h0
      have := congrArg BitVec.toNat h0
      simp at this
      omega
    · rename_i h0
      have : entries.length ≠ 256 := fun e => h0 (by rw [e]; rfl)
      rw [BitVec.toNat_ofNat]
      omega
  have small : ¬ (7 : Byte) < pad.setWidth 8 := by
    have := pad.isLt
    rw [BitVec.lt_def]
    simp
    omega
  have nonzero : (entries.map Prod.snd).contains 0 = false := by
    simp only [List.contains_eq_mem, decide_eq_false_iff_not, List.mem_map, not_exists, not_and]
    exact counts
  have padding : (pad.setWidth 8).setWidth 3 = pad := by simp
  have shape : encodedForm entries packed pad =
      1 :: BitVec.ofNat 8 entries.length :: (entries.flatMap entryBytes ++ (packed ++ [pad.setWidth 8])) := by simp [encodedForm]
  rw [shape, parseContainer, if_neg (by decide), if_neg (by decide)]
  simp only [number, takeEntries_flatMap, List.getLast?_concat, List.dropLast_concat, small, nodup, nonzero, padding, if_false,
    not_true_eq_false, Bool.false_eq_true]

theorem encodedForm_length (entries : List (Byte × Count)) (packed : List Byte) (pad : BitVec 3) :
    (encodedForm entries packed pad).length = 3 + 3 * entries.length + packed.length := by
  simp [encodedForm, entryBytes, List.length_flatMap]
  omega

end Sys2Proof.Machine

namespace Sys2Proof.Machine
open Sys2Proof.Claims Sys2Proof.Laws

/-! ## The round trip -/

theorem sessionOpen_eq_false {s : State} (idle : ¬ InSession s) : s.sessionOpen = false := by
  rw [InSession, not_or, Bool.not_eq_true, Bool.not_eq_true] at idle
  obtain ⟨noPack, noUnpack⟩ := idle
  rw [State.sessionOpen, noPack, noUnpack]
  rfl

/-- A symbol with a count has a code (10_state.md R26). -/
theorem codeAt_len_ne_zero {s : State} (ht : s.TreeCurrent) (hc : s.CodesCurrent) {sym : Byte} (present : s.freqAt sym ≠ 0) :
    (s.codeAt sym).len ≠ 0 := by
  obtain ⟨p, hp, e, hnil⟩ := codeAt_eq_ofPath ht hc sym
  intro h0
  have len := ofPath_len hp
  rw [← e, h0] at len
  exact present (hnil.1 (List.length_eq_zero_iff.1 len.symm))

/-- State `t` holds the tree of a list of counts, with no error pending and no session open, and has emitted what `s` had. -/
structure BuiltFrom (s : State) (entries : List (Byte × Count)) (t : State) : Prop where
  freq : t.freq = countTable entries
  valid : t.treeValid = true
  tree : t.TreeCurrent
  clear : t.err = false
  idle : t.sessionOpen = false
  outq : t.outq = s.outq

/-- `packed` is an input's codes, padded with zeros, in the codes of the state `t` that packed it, whose tree is that of the input's
counts (43_bit_packer.md R94). -/
structure PackedBy (t : State) (entries : List (Byte × Count)) (input packed : List Byte) : Prop where
  freq : t.freq = countTable entries
  tree : t.TreeCurrent
  codes : t.CodesCurrent
  bits : bitsOf packed = input.flatMap (codeOf t) ++ List.replicate t.pPad.toNat false

/-- LOAD_FREQ and BUILD make the tree of the counts (20_memory.md R59, R61). -/
theorem execAll_loadBuild {s : State} (clear : s.err = false) (idle : s.sessionOpen = false) (entries : List (Byte × Count)) :
    ∃ t, execAll ((Pseudo.loadFreq entries).expand ++ [Instr.build]) s = .next t ∧ BuiltFrom s entries t := by
  have build := exec_build (s := s.loaded (countTable entries)) clear idle
  refine ⟨_, (execAll_append (execAll_loadFreq clear idle entries) _).trans (execAll_cons build []), ?_⟩
  exact ⟨rfl, rfl, withTree_treeCurrent (s.loaded (countTable entries)), clear, idle, rfl⟩

/-- GENCODES then makes the codes of the tree (R61). -/
theorem BuiltFrom.gencodes {s t : State} {entries : List (Byte × Count)} (h : BuiltFrom s entries t) :
    ∃ u, exec .gencodes t = .next u ∧ BuiltFrom s entries u ∧ u.codesValid = true ∧ u.CodesCurrent := by
  obtain ⟨tbl, table⟩ := codeTable_isSome h.tree
  obtain ⟨freq, valid, tree, clear, idle, outq⟩ := h
  exact ⟨_, exec_gencodes clear idle valid table, ⟨freq, valid, tree, clear, idle, outq⟩, rfl, table⟩

section
variable {s : State} (clear : s.err = false) (idle : s.sessionOpen = false) {input : List Byte} {entries : List (Byte × Count)}
  (counts : CountsOf input entries)
include clear idle counts

/-- The host's encode commands (20_memory.md R61) emit the input's packed codes. -/
theorem execAll_encodeCommands :
    ∃ t packed, execAll (encodeCommands entries input) s = .next t ∧ t.err = false ∧ t.outq = s.outq ++ packed ∧
      PackedBy t entries input packed := by
  obtain ⟨b, build, built⟩ := execAll_loadBuild clear idle entries
  obtain ⟨c, gencodes, coded, valid, codes⟩ := built.gencodes
  obtain ⟨packed, bits, pad, resp, pack, hbits⟩ := execAll_packSession coded.clear valid coded.idle (syms := input)
    fun v hv => codeAt_len_ne_zero coded.tree codes (counts.freqAt_ne_zero coded.freq v hv)
  have shape : encodeCommands entries input =
      ((Pseudo.loadFreq entries).expand ++ [Instr.build]) ++
        Instr.gencodes :: ([Instr.packBegin] ++ input.map Instr.packSym ++ [Instr.packFlush]) := by
    simp [encodeCommands, Pseudo.expand]
  refine ⟨c.sessionPacked packed bits (BitVec.ofNat 32 input.length) pad resp, packed, ?_, coded.clear,
    congrArg (· ++ packed) coded.outq, coded.freq, coded.tree, codes, hbits⟩
  rw [shape, execAll_append build, execAll_cons gencodes, pack]

/-- The host's decode commands (R59) give the input back, with the block in any state that can run them. -/
theorem execAll_decodeCommands {t : State} {packed : List Byte} (h : PackedBy t entries input packed) :
    ∃ u, execAll (decodeCommands entries packed t.pPad) s = .next u ∧ u.err = false ∧ u.outq = s.outq ++ input := by
  obtain ⟨b, build, built⟩ := execAll_loadBuild clear idle entries
  have codes : State.CodesCurrent { b with code := t.code } :=
    (codeTable_eq h.tree built.tree (built.freq.trans h.freq.symm)).trans h.codes
  have decoded : b.decodeBits b.root (input.flatMap (codeOf t)) = some (input, b.root) :=
    (decodeBits_congr (s := { b with code := t.code }) (t := b) rfl rfl _ _).trans
      (decodeBits_codes (s := { b with code := t.code }) built.tree codes input (counts.freqAt_ne_zero built.freq))
  obtain ⟨u, unpack, hu, hq⟩ := execAll_unpackSession built.clear built.valid built.idle built.tree h.bits decoded
    (counts.total_eq built.freq).symm
  have shape : decodeCommands entries packed t.pPad =
      ((Pseudo.loadFreq entries).expand ++ [Instr.build]) ++
        ([Instr.unpackBegin t.pPad] ++ feedCommands packed ++ [Instr.unpackEnd]) := by
    simp [decodeCommands, Pseudo.expand]
  refine ⟨u, ?_, hu, by rw [hq, built.outq]⟩
  rw [shape, execAll_append build, unpack]

end

theorem emittedBy_of_run {cmds : List Instr} {s t : State} {bytes : List Byte} (run : execAll cmds s = .next t) (clear : t.err = false)
    (emitted : t.outq = s.outq ++ bytes) : emittedBy cmds s = some (bytes, t) := by
  simp [emittedBy, run, clear, emitted]

/-- Settles O60: the raw form holds the input itself; the encoded form holds the counts, which give the decoder the same tree, and the
input's packed codes, which it decodes on that tree. -/
theorem decompressInvertsCompress : Obligations.DecompressInvertsCompress := by
  intro input s s' _ _ clear clear' idle idle'
  by_cases hnil : input = []
  · subst hnil
    exact ⟨[], rfl, rfl, by simp⟩
  have raw : decompress (rawForm input) s' = some input ∧ (rawForm input).length ≤ input.length + 1 := ⟨rfl, le_rfl⟩
  cases hb : blockEntries input with
  | none => exact ⟨rawForm input, by rw [compress, if_neg hnil, hb], raw⟩
  | some entries =>
    have counts := countsOf_of_blockEntries hb
    obtain ⟨t, packed, run, ht, hq, by_t⟩ := execAll_encodeCommands clear (sessionOpen_eq_false idle) counts
    refine ⟨selectForm input entries packed t.pPad, ?_, ?_⟩
    · rw [compress, if_neg hnil, hb]
      dsimp only
      rw [emittedBy_of_run run ht hq]
      rfl
    by_cases short : input.length ≤ 3 + 3 * entries.length + packed.length
    · rw [selectForm, if_pos short]
      exact raw
    · rw [selectForm, if_neg short, encodedForm_length]
      have hne : entries ≠ [] := by
        rintro rfl
        exact hnil (List.length_eq_zero_iff.1 counts.total.symm)
      obtain ⟨u, run', hu, hq'⟩ := execAll_decodeCommands clear' (sessionOpen_eq_false idle') counts by_t
      refine ⟨?_, by omega⟩
      rw [decompress, parseContainer_encodedForm hne counts.length_le counts.nodup counts.counts packed t.pPad]
      dsimp only
      rw [emittedBy_of_run run' hu hq']
      rfl

end Sys2Proof.Machine

namespace Sys2Proof.Machine
open Sys2Proof.Claims Sys2Proof.Laws

/-! ## Reads -/

/-- A check passed once is passed again, whatever else has changed. -/
theorem require_again {ok : Bool} {cmd : Word} {e : Err} {info : Word} {s s' t : State} {body body' : Result}
    (h : require ok cmd e info s body = .next t) (clear : t.err = false) (hb : body = .next t → body' = .next t) :
    require ok cmd e info s' body' = .next t := by
  rcases require_next.1 h with ⟨rfl, h⟩ | ⟨-, rfl⟩
  · rw [require_of_true rfl, hb h]
  · cases clear

/-- A node named once is named again. -/
theorem withNode_again {cmd : Word} {idx : NodeIdx} {s t : State} {resp : Word} {k k' : Node → Result}
    (h : withNode cmd idx s k = .next t) (clear : t.err = false) (hk : ∀ n, k n = .next t → k' n = .next t) :
    withNode cmd idx { s with resp := resp } k' = .next t := by
  rcases withNode_next.1 h with ⟨-, rfl⟩ | ⟨-, -, rfl⟩ | ⟨valid, low, n, hn, h⟩
  · cases clear
  · cases clear
  · exact withNode_next.2 (.inr (.inr ⟨valid, low, n, hn, hk n h⟩))

/-- A read looks at everything but RESP: what it answered it answers again, whatever RESP holds (20_memory.md R49). -/
theorem exec_read_again {i : Instr} {s t : State} (reads : OnlyReads i) (clear : s.err = false) (h : exec i s = .next t)
    (ok : t.err = false) (resp : Word) : exec i { s with resp := resp } = .next t := by
  have again {body body' : Result} (h : unlessPending s body = .next t) (hb : body = .next t → body' = .next t) :
      unlessPending { s with resp := resp } body' = .next t := by
    rw [unlessPending_of_clear clear] at h
    exact (unlessPending_of_clear (s := { s with resp := resp }) clear body').trans (hb h)
  cases i with
  | freqRd sym => exact again h id
  | nodeWt idx => exact again h fun h => withNode_again h ok fun _ => id
  | nodeLnk idx => exact again h fun h => withNode_again h ok fun _ => id
  | codeLen sym => exact again h fun h => require_again h ok id
  | codeBits sym k => exact again h fun h => require_again h ok id
  | regRd v =>
    have read (r : Reg) : State.readReg { s with resp := resp } r = s.readReg r := by cases r <;> rfl
    simp only [exec, execRegRd] at h ⊢
    cases hr : regMap[v.toNat]? with
    | some r =>
      rw [hr] at h
      simp only [read]
      exact h
    | none =>
      rw [hr] at h
      exact again h fun h => (by rw [fail_next.1 h] at ok; cases ok)
  | _ => cases reads

/-- Settles O19: of the ways to end, a read that raises nothing has only the answer (`exec_effect`). -/
theorem readsChangeOnlyResp : Obligations.ReadsChangeOnlyResp := by
  intro i s t reads clear h ok
  have answered : t = { s with resp := t.resp } := by
    cases exec_effect h with
    | dropped => rfl
    | answered => rfl
    | raised => cases ok
    | decodeFailed => cases ok
    | _ => cases reads
  exact ⟨answered, answered ▸ exec_read_again reads clear h ok t.resp⟩

/-! ## The host's events -/

theorem runWord_of_decode {w : Word} {i : Instr} (h : decode w = .ok i) (s : State) : runWord w s = exec i s := by
  rw [runWord, h]

/-- A legal word at the port of a block that executes nothing runs its command (20_memory.md R43). -/
theorem step_of_decode {s : State} {w : Word} {rest : List HostEvent} {i : Instr} (he : s.executing = none)
    (hi : s.inbox = .command w :: rest) (hd : decode w = .ok i) :
    step s = settled ⟨s.resp, s.err⟩ (exec i { s with inbox := rest }) := by
  rw [step_command he hi, runWord_of_decode hd]

/-- Settles O4: a command's outcome is the step's, finished with done where its bytes fit (`finish_of_fits`). -/
theorem stepRunsTheDecodedCommand : Obligations.StepRunsTheDecodedCommand := by
  intro s w rest i he hi hd
  rw [step_of_decode he hi hd]
  refine ⟨fun t ht hf => ?_, fun f hf => settled_fault.2 hf⟩
  rw [ht, settled, finish_of_fits hf]

/-- Settles O6, event by event; the reset input is `toReset`, as SRESET is. -/
theorem hostEventsTakeEffect : Obligations.HostEventsTakeEffect := by
  refine ⟨fun s rest b q he hi hq => ?_, fun s rest he hi hq => ?_, fun s rest hi => ?_, fun s he hi => step_nothing he hi⟩
  · rw [step_drain he hi, takeByte, quiet, hq]
    rfl
  · rw [step_drain he hi, takeByte, quiet, hq]
    rfl
  · cases he : s.executing with
    | none => exact step_rst he hi
    | some shown => rw [step_executing he, hi]; rfl

/-! ## The wait for room in OUTQ -/

section
variable {s : State} {shown : Shown} (he : s.executing = some shown)
include he

/-- A drain of a waiting block (20_memory.md R44): the head of OUTQ goes, and the command is done if the rest fits. -/
theorem step_waiting_drain {before later : List HostEvent} (hb : ∀ ev ∈ before, ∃ w, ev = .command w)
    (hi : s.inbox = before ++ .drain :: later) :
    step s = .next (finish shown { s with inbox := before ++ later, outq := s.outq.drop 1 }) := by
  rw [step_executing he, hi, waitStep_drain shown s hb, takeByte, List.drop_one]
  rfl

theorem step_waiting_done {before later : List HostEvent} (hb : ∀ ev ∈ before, ∃ w, ev = .command w)
    (hi : s.inbox = before ++ .drain :: later) (hf : fits s.outDepth (s.outq.length - 1) = true) :
    step s = .next { s with inbox := before ++ later, outq := s.outq.drop 1, executing := none, done := true } := by
  rw [step_waiting_drain he hb hi, finish_of_fits (by rw [List.length_drop]; exact hf)]

theorem step_waiting_on {before later : List HostEvent} (hb : ∀ ev ∈ before, ∃ w, ev = .command w)
    (hi : s.inbox = before ++ .drain :: later) (hf : fits s.outDepth (s.outq.length - 1) = false) :
    step s = .next { s with inbox := before ++ later, outq := s.outq.drop 1, done := false } := by
  rw [step_waiting_drain he hb hi, finish_of_full (by rw [List.length_drop]; exact hf), ← he]

theorem step_waiting_rst {before later : List HostEvent} (hb : ∀ ev ∈ before, ∃ w, ev = .command w)
    (hi : s.inbox = before ++ .rst :: later) : step s = .next { s.toReset with inbox := before ++ later } := by
  rw [step_executing he, hi, waitStep_rst shown s hb]
  rfl

theorem step_waiting_commands (hb : ∀ ev ∈ s.inbox, ∃ w, ev = .command w) : step s = .next { s with done := false } := by
  rw [step_executing he, waitStep_commands shown s hb]
  rfl

end

theorem commands_of_no_drain {evs : List HostEvent} (noDrain : HostEvent.drain ∉ evs) (noRst : HostEvent.rst ∉ evs) :
    ∀ ev ∈ evs, ∃ w, ev = .command w := by
  intro ev hev
  cases ev with
  | command w => exact ⟨w, rfl⟩
  | drain => exact absurd hev noDrain
  | rst => exact absurd hev noRst

/-- A waiting block with `k + 1` bytes beyond its depth is done by the last of as many drains, if no reset comes before it (20_memory.md
R44, R131): each drain takes one byte, and the host's commands stay in their order. -/
theorem stepN_waiting_drains {shown : Shown} {more : Nat} {later : List HostEvent} (k : Nat) : ∀ {s : State} {before : List HostEvent},
    s.executing = some shown → s.outDepth = .fifo more → s.outq.length = more + 1 + (k + 1) →
    s.inbox = before ++ .drain :: later → HostEvent.rst ∉ before → before.count .drain = k →
    stepN (k + 1) s = .next { s with
      inbox := before.filter (· ≠ .drain) ++ later, outq := s.outq.drop (k + 1), executing := none, done := true } := by
  induction k with
  | zero =>
    intro s before he hdepth hlen hi noRst count
    have noDrain : HostEvent.drain ∉ before := List.count_eq_zero.1 count
    have room : fits s.outDepth (s.outq.length - 1) = true := by rw [hdepth, fits_fifo]; omega
    have held : before.filter (· ≠ .drain) = before :=
      List.filter_eq_self.2 fun ev hev => decide_eq_true fun e => noDrain (e ▸ hev)
    rw [stepN, step_waiting_done he (commands_of_no_drain noDrain noRst) hi room, held]
    rfl
  | succ k ih =>
    intro s before he hdepth hlen hi noRst count
    obtain ⟨cmds, rest, rfl, noDrain⟩ := List.eq_append_cons_of_mem (List.count_pos_iff.1 (by omega : 0 < before.count .drain))
    simp only [List.mem_append, List.mem_cons, not_or] at noRst
    obtain ⟨rst1, -, rst2⟩ := noRst
    have full : fits s.outDepth (s.outq.length - 1) = false := by
      rw [hdepth, Bool.eq_false_iff, ne_eq, fits_fifo]; omega
    have first := step_waiting_on he (commands_of_no_drain noDrain rst1) (later := rest ++ .drain :: later) (by simpa using hi) full
    have others := ih (s := { s with inbox := cmds ++ (rest ++ .drain :: later), outq := s.outq.drop 1, done := false })
      (before := cmds ++ rest) he hdepth (by simp; omega) (by simp) (by simp [rst1, rst2])
      (by rw [List.count_append, List.count_cons_self] at count; rw [List.count_append]; omega)
    rw [stepN, first]
    dsimp only
    rw [others]
    simp

/-- Settles O7: the first clause by `finish_of_full`, the second event by event, the third drain by drain. -/
theorem fullOutputMakesCommandsWait : Obligations.FullOutputMakesCommandsWait := by
  refine ⟨fun s t w rest i he hi hd ht hf => ?_, fun s shown before later he hb => ⟨fun hi => ?_, ?_, ?_⟩, ?_⟩
  · rw [step_of_decode he hi hd, ht, settled, finish_of_full hf]
  · exact ⟨step_waiting_done he hb hi, step_waiting_on he hb hi⟩
  · exact step_waiting_rst he hb
  · rintro rfl
    exact step_waiting_commands he hb
  · intro s shown more excess before later he hdepth hlen hi noRst count
    subst count
    exact stepN_waiting_drains _ he hdepth hlen hi noRst rfl

end Sys2Proof.Machine

namespace Sys2Proof.Machine
open Sys2Proof.Claims Sys2Proof.Laws

/-! ## The decoder, row by row of the opcode map -/

/-- A word in a row's opcode is the row's command if it sets no bit the row's format reserves (30_encoding.md R68, R70). -/
theorem decode_of_row {w : Word} {r : OpRow} (row : opRows.find? (fun r => r.op == opField w) = some r) :
    decode w = if w &&& reservedMask r.fmt = 0 then .ok (r.build w) else .error (.reservedBits (w &&& reservedMask r.fmt)) := by
  simp only [decode, row]

theorem decode_of_no_row {w : Word} (h : ∀ r ∈ opRows, r.op ≠ opField w) : decode w = .error .unknownOpcode := by
  have noRow : opRows.find? (fun r => r.op == opField w) = none := List.find?_eq_none.2 fun r hr => by simpa using h r hr
  simp only [decode, noRow]

/-- Everything a word that decodes says: its opcode is a row's, it sets none of the row's reserved bits, and its operands are its
fields (R68 to R71). -/
theorem row_of_decode {w : Word} {i : Instr} (h : decode w = .ok i) :
    ∃ r ∈ opRows, r.op = opField w ∧ w &&& reservedMask r.fmt = 0 ∧ r.build w = i := by
  cases row : opRows.find? (fun r => r.op == opField w) with
  | none => simp only [decode, row, reduceCtorEq] at h
  | some r =>
    rw [decode_of_row row] at h
    split at h
    case isTrue clean =>
      exact ⟨r, List.mem_of_find?_eq_some row, by simpa using List.find?_some row, clean, Except.ok.inj h⟩
    case isFalse => cases h

/-! ## The operands in a command's word

A command's word is its opcode at bits 31:24, `hd`, with its operands placed by `|||`: one at bit 0, or one at bit 8 above a symbol at
bit 0 (R65). Each field reads back the operand placed there. -/

theorem low_operand {n : Nat} {hd : Word} (h : hd.extractLsb' 0 n = 0) (x : BitVec n) (hn : n ≤ 32 := by decide) :
    (hd ||| x.setWidth 32).extractLsb' 0 n = x := by
  rw [BitVec.extractLsb'_or, h]
  exact BitVec.eq_of_getLsbD_eq fun i hi => by simp [hi, hi.trans_le hn]

theorem high_operand {n : Nat} {hd : Word} (h : hd.extractLsb' 8 n = 0) (x : BitVec n) (sym : Byte)
    (hn : 8 + n ≤ 32 := by decide) : (hd ||| x.setWidth 32 <<< 8 ||| sym.setWidth 32).extractLsb' 8 n = x := by
  rw [BitVec.extractLsb'_or, BitVec.extractLsb'_or, h]
  exact BitVec.eq_of_getLsbD_eq fun i hi => by simp [hi, show 8 + i < 32 by omega]

theorem symField_below_high {n : Nat} {hd : Word} (h : symField hd = 0) (x : BitVec n) (sym : Byte) :
    symField (hd ||| x.setWidth 32 <<< 8 ||| sym.setWidth 32) = sym := by
  refine low_operand ?_ sym
  rw [BitVec.extractLsb'_or, ← symField, h]
  exact BitVec.eq_of_getLsbD_eq fun i hi => by simp [hi]

/-! ## Decode after encode -/

/-- A command's word selects a row and sets none of its reserved bits (`EncodingShape`), so it decodes to the command if that row reads
its operands back. -/
theorem decode_encode_of_shape {i : Instr} {op : Byte} {r : OpRow} (shape : EncodingShape.Statement i) (hop : opField (encode i) = op)
    (row : opRows.find? (fun r => r.op == op) = some r) (back : r.build (encode i) = i) : decode (encode i) = .ok i := by
  subst hop
  obtain ⟨fmt, clean⟩ := shape
  rw [row, Option.map_some, Option.some.injEq] at fmt
  rw [decode_of_row row, fmt, if_pos clean, back]

/-- Settles O1, command by command: each operand is read back from its field (`low_operand`, `high_operand`). -/
theorem decodeOfEncode : Obligations.DecodeOfEncode := by
  intro i
  cases i with
  | nop | freqClr | build | gencodes | packBegin | packFlush | unpackEnd | errClr | sreset => rfl
  | freqWr sym cnt =>
    exact decode_encode_of_shape (EncodingShape.freqWr sym cnt) (EncodingShape.opField_freqWr sym cnt) rfl
      (congrArg₂ Instr.freqWr (symField_below_high rfl cnt sym) (high_operand rfl cnt sym))
  | freqRd sym =>
    exact decode_encode_of_shape (EncodingShape.freqRd sym) (EncodingShape.opField_freqRd sym) rfl
      (congrArg Instr.freqRd (low_operand rfl sym))
  | nodeWt idx =>
    exact decode_encode_of_shape (EncodingShape.nodeWt idx) (EncodingShape.opField_nodeWt idx) rfl
      (congrArg Instr.nodeWt (low_operand rfl idx))
  | nodeLnk idx =>
    exact decode_encode_of_shape (EncodingShape.nodeLnk idx) (EncodingShape.opField_nodeLnk idx) rfl
      (congrArg Instr.nodeLnk (low_operand rfl idx))
  | codeLen sym =>
    exact decode_encode_of_shape (EncodingShape.codeLen sym) (EncodingShape.opField_codeLen sym) rfl
      (congrArg Instr.codeLen (low_operand rfl sym))
  | codeBits sym k =>
    exact decode_encode_of_shape (EncodingShape.codeBits sym k) (EncodingShape.opField_codeBits sym k) rfl
      (congrArg₂ Instr.codeBits (symField_below_high rfl k sym) (high_operand rfl k sym))
  | packSym sym =>
    exact decode_encode_of_shape (EncodingShape.packSym sym) (EncodingShape.opField_packSym sym) rfl
      (congrArg Instr.packSym (low_operand rfl sym))
  | unpackBegin pad =>
    exact decode_encode_of_shape (EncodingShape.unpackBegin pad) (EncodingShape.opField_unpackBegin pad) rfl
      (congrArg Instr.unpackBegin (low_operand rfl pad))
  | unpackFeed v =>
    exact decode_encode_of_shape (EncodingShape.unpackFeed v) (EncodingShape.opField_unpackFeed v) rfl
      (congrArg Instr.unpackFeed (low_operand rfl v))
  | unpackLast v =>
    exact decode_encode_of_shape (EncodingShape.unpackLast v) (EncodingShape.opField_unpackLast v) rfl
      (congrArg Instr.unpackLast (low_operand rfl v))
  | regRd v =>
    exact decode_encode_of_shape (EncodingShape.regRd v) (EncodingShape.opField_regRd v) rfl
      (congrArg Instr.regRd (low_operand rfl v))

/-! ## Encode after decode -/

/-- The word of a format with opcode bits `hd` and the operands of `w` in their fields (R65). -/
def formatWord (hd w : Word) : Format → Word
  | .n => hd
  | .s8 => hd ||| (symField w).setWidth 32
  | .sc => hd ||| ((cntField w).setWidth 32 <<< 8) ||| (symField w).setWidth 32
  | .i9 => hd ||| (idxField w).setWidth 32
  | .sk => hd ||| ((kField w).setWidth 32 <<< 8) ||| (symField w).setWidth 32
  | .p3 => hd ||| (padField w).setWidth 32

/-- `encode` places the operands a row reads as the row's format says. -/
theorem encode_build (w : Word) : ∀ r ∈ opRows, encode (r.build w) = formatWord (r.op.setWidth 32 <<< 24) w r.fmt := by
  intro r hr
  fin_cases hr <;> rfl

/-- A field put back where it was cut from is the word under the field's mask. -/
theorem field_in_place (w : Word) (lo n : Nat) :
    (w.extractLsb' lo n).setWidth 32 <<< lo = w &&& (BitVec.allOnes n).setWidth 32 <<< lo := by
  refine BitVec.eq_of_getLsbD_eq fun i hi => ?_
  by_cases below : i < lo
  · simp [below]
  · simp [below, hi, show lo + (i - lo) = i by omega, Bool.and_comm]

theorem low_field_in_place (w : Word) (n : Nat) : (w.extractLsb' 0 n).setWidth 32 = w &&& (BitVec.allOnes n).setWidth 32 := by
  simpa only [BitVec.shiftLeft_zero] using field_in_place w 0 n

/-- Opcode, operands and reserved bits are all the bits of a word: in each format their masks make up the whole word. -/
theorem formatWord_or_reserved (w : Word) (fmt : Format) :
    formatWord ((opField w).setWidth 32 <<< 24) w fmt ||| (w &&& reservedMask fmt) = w := by
  cases fmt <;>
  · simp only [formatWord, opField, symField, cntField, idxField, kField, padField, field_in_place, low_field_in_place,
      ← BitVec.and_or_distrib_left]
    exact BitVec.and_allOnes

/-- Settles O2: the word is its opcode and its operands, since its reserved bits are 0 (`formatWord_or_reserved`). -/
theorem encodeOfDecode : Obligations.EncodeOfDecode := by
  intro w i h
  obtain ⟨r, hr, op, clean, rfl⟩ := row_of_decode h
  rw [encode_build w r hr, op]
  simpa only [clean, BitVec.or_zero, BitVec.ofNat_eq_ofNat] using formatWord_or_reserved w r.fmt

/-! ## Illegal words -/

/-- The opcodes that R69 makes illegal. -/
def IllegalOpcode (op : Byte) : Prop :=
  (0x04 ≤ op ∧ op ≤ 0x0F) ∨ (0x13 ≤ op ∧ op ≤ 0x1F) ∨ (0x23 ≤ op ∧ op ≤ 0x2F) ∨ (0x33 ≤ op ∧ op ≤ 0x3F) ∨
    (0x44 ≤ op ∧ op ≤ 0xEF) ∨ (0xF2 ≤ op ∧ op ≤ 0xFE)

theorem row_op_legal : ∀ r ∈ opRows, ¬ IllegalOpcode r.op := by
  unfold IllegalOpcode
  decide

theorem decode_of_illegal_opcode {w : Word} (h : IllegalOpcode (opField w)) : decode w = .error .unknownOpcode :=
  decode_of_no_row fun r hr e => row_op_legal r hr (e ▸ h)

theorem row_of_legal : ∀ p ∈ legalOpcodes, (opRows.find? fun r => r.op == p.1).map OpRow.fmt = some p.2 := by decide

theorem reservedBits_eq (fmt : Format) : reservedBits fmt = reservedMask fmt := by cases fmt <;> rfl

theorem decode_of_reserved {w : Word} {fmt : Format} (legal : (opField w, fmt) ∈ legalOpcodes) (set : w &&& reservedBits fmt ≠ 0) :
    decode w = .error (.reservedBits (w &&& reservedBits fmt)) := by
  obtain ⟨r, row, rfl⟩ := Option.map_eq_some_iff.1 (row_of_legal _ legal)
  rw [reservedBits_eq] at set ⊢
  rw [decode_of_row row, if_neg set]

theorem runWord_of_error {w : Word} {d : DecodeError} (h : decode w = .error d) (s : State) :
    runWord w s = illegalCommand w d s := by
  rw [runWord, h]

/-- An illegal word at the port raises E_ILLEGAL, or is dropped while an error is pending (R69, R70, R114); either way it is done. -/
theorem step_of_illegal {s : State} {w : Word} {rest : List HostEvent} {d : DecodeError} (he : s.executing = none)
    (hi : s.inbox = .command w :: rest) (hf : fits s.outDepth s.outq.length = true) (hd : decode w = .error d) :
    (s.err = false → step s = .next { errorState s w 1 d.info with inbox := rest, done := true }) ∧
    (s.err = true → step s = .next { s with inbox := rest, done := true }) := by
  have illegal {t : State} := illegalCommand_next (w := w) (d := d) (s := { s with inbox := rest }) (t := t)
  rw [step_command he hi, runWord_of_error hd]
  refine ⟨fun clear => ?_, fun pending => ?_⟩
  · rw [illegal.2 (.inr ⟨clear, rfl⟩), settled, raise_of_not_decode rfl, finish_of_fits (by exact hf), ← he]
    rfl
  · rw [illegal.2 (.inl ⟨pending, rfl⟩), settled, finish_of_fits (by exact hf), ← he]

/-- Settles O5: either way the word does not decode, and its info word is the rule's. -/
theorem illegalWordsRaiseIllegal : Obligations.IllegalWordsRaiseIllegal := by
  intro s w rest he hi hf
  exact ⟨fun op => step_of_illegal he hi hf (decode_of_illegal_opcode op),
    fun fmt legal set => step_of_illegal he hi hf (decode_of_reserved legal set)⟩

/-! ## The examples -/

/-- Settles O3: each word is the word of its command. -/
theorem exampleWordsDecode : Obligations.ExampleWordsDecode :=
  ⟨decodeOfEncode .build, decodeOfEncode (.packSym 0x41), decodeOfEncode (.freqWr 0x41 5), decodeOfEncode (.nodeLnk 8),
    decodeOfEncode (.codeBits 0x42 0), decodeOfEncode (.unpackBegin 1), decodeOfEncode (.regRd 0), decodeOfEncode (.regRd 9),
    decodeOfEncode (.codeBits 0x42 7), decodeOfEncode (.nodeWt 0x1FF)⟩

end Sys2Proof.Machine

namespace Sys2Proof.Machine
open Sys2Proof.Claims Sys2Proof.Laws

/-! ## The frequency-table commands -/

theorem sessionOpen_eq_true {s : State} (session : InSession s) : s.sessionOpen = true := by
  rcases session with pack | unpack
  · simp [State.sessionOpen, pack]
  · simp [State.sessionOpen, unpack]

/-- A command whose sequencing rule is broken raises E_SEQ with STATUS, and changes nothing else (60_exceptions.md R109, R110). -/
theorem guarded_of_not_ok {s : State} (clear : s.err = false) {ok : Bool} (hok : ok = false) (cmd : Word) (body : Result) :
    unlessPending s (requireSeq ok cmd s body) = .next (errorState s cmd 2 s.status) := by
  rw [unlessPending_of_clear clear, requireSeq, require_of_false hok, raise_of_not_decode rfl]
  rfl

/-- `total_setFreq` in 24-bit arithmetic: TOTAL moves by the new count minus the old (40_freq_table.md R75). -/
theorem total_setFreq_eq (s : State) (sym : Byte) (cnt : Count) :
    (s.setFreq sym cnt).total = s.total - (s.freqAt sym).setWidth 24 + cnt.setWidth 24 := by
  have moved : (s.setFreq sym cnt).total + (s.freqAt sym).setWidth 24 = s.total + cnt.setWidth 24 := by
    have moves := total_setFreq s sym cnt
    bv_omega
  rw [eq_sub_of_add_eq moved]
  ring

/-- A table of zeros has no leaf, so the tree BUILD makes of it has none either (41_tree_builder.md R79). -/
theorem leafArena_of_no_counts {s : State} (zero : ∀ sym, s.freqAt sym = 0) : leafArena s.freq = [] :=
  List.eq_nil_iff_forall_not_mem.2 fun n hn => (mem_leafArena_syms s n.sym).1 (List.mem_map_of_mem hn) (zero n.sym)

/-- BUILD of a table of zeros makes the empty tree (41_tree_builder.md R82). -/
theorem exec_build_of_no_counts {s : State} (clear : s.err = false) (idle : s.sessionOpen = false) (zero : ∀ sym, s.freqAt sym = 0) :
    ∃ u, exec .build s = .next u ∧ u.empty = true ∧ u.root = 0x1FF := by
  have noLeaves : leafArena s.freq = [] := leafArena_of_no_counts zero
  exact ⟨_, exec_build clear idle, by simp [noLeaves], root_of_no_leaves (withTree_treeCurrent s) noLeaves⟩

/-- Settles O21: what the one entry written does is said by `setFreq`'s laws, TOTAL by `total_setFreq_eq`. -/
theorem freqWrLoadsACount : Obligations.FreqWrLoadsACount := by
  intro sym cnt s
  refine ⟨rfl, fun clear session => ?_, fun clear idle => ?_⟩
  · exact guarded_of_not_ok clear (by simp [sessionOpen_eq_true session]) _ _
  · exact ⟨_, exec_freqWr clear (sessionOpen_eq_false idle) sym cnt, rfl, freqAt_setFreq_same s sym cnt,
      fun _ other => freqAt_setFreq_other other, total_setFreq_eq s sym cnt⟩

/-- Settles O22: no check but that no error is pending. -/
theorem freqRdReturnsTheCount : Obligations.FreqRdReturnsTheCount := by
  intro sym s
  have reads {s : State} (clear : s.err = false) :
      exec (.freqRd sym) s = .next { s with resp := (s.freqAt sym).setWidth 32 } := unlessPending_of_clear clear _
  have unwritten : State.reset.freqAt sym = 0 := freqAt_clearFreq State.reset sym
  exact ⟨rfl, reads, by rw [reads rfl, unwritten]; rfl⟩

/-- Settles O23: the table is that of `clearFreq`, and BUILD finds no leaf in it (`exec_build_of_no_counts`). -/
theorem freqClrZeroesTheTable : Obligations.FreqClrZeroesTheTable := by
  intro s
  refine ⟨rfl, fun clear session => ?_, fun clear idle => ?_⟩
  · exact guarded_of_not_ok clear (by simp [sessionOpen_eq_true session]) _ _
  · have closed := sessionOpen_eq_false idle
    have zero (sym : Byte) : (s.loaded (Vector.replicate 256 0)).freqAt sym = 0 := freqAt_clearFreq s sym
    exact ⟨_, exec_freqClr clear closed, rfl, zero, total_clearFreq s, exec_build_of_no_counts clear closed zero⟩

end Sys2Proof.Machine

namespace Sys2Proof.Machine
open Sys2Proof.Claims Sys2Proof.Laws

/-! ## The tree builder -/

/-- The leaves of BUILD's arena are the symbols with a non-zero count (41_tree_builder.md R79). -/
theorem length_leafArena (s : State) : (leafArena s.freq).length = leafTotal s := leafArena_length s.freq

theorem leafTotal_le (s : State) : leafTotal s ≤ 256 := (length_leafArena s).ge.trans (leafArena_length_le s.freq)

/-- BUILD's arena holds L leaves and L - 1 internal nodes (R80). -/
theorem length_buildArena (s : State) : (buildArena s.freq).length = 2 * leafTotal s - 1 := by
  rw [← length_leafArena]
  by_cases noLeaves : leafArena s.freq = []
  · simp [buildArena_nil noLeaves, noLeaves]
  · obtain ⟨_, spec⟩ := buildArena_spec noLeaves
    exact spec.length

theorem leafTotal_pos_of_entry {s : State} {n : Nat} (h : n < (buildArena s.freq).length) : 0 < leafTotal s := by
  have := length_buildArena s
  omega

theorem leafArena_ne_nil_of_pos {s : State} (h : 0 < leafTotal s) : leafArena s.freq ≠ [] :=
  List.length_pos_iff.1 ((length_leafArena s).symm ▸ h)

/-! ### What BUILD answers -/

/-- ROOT of a tree of `leaves` leaves: the last node made, or NIL (R78). -/
def rootOfLeaves (leaves : Nat) : NodeIdx := if leaves = 0 then Config.nil else BitVec.ofNat 9 (2 * leaves - 2)

/-- The state with an arena and the registers and flags of a tree of `leaves` leaves (R78, R80). -/
def State.treeOf (s : State) (node : Vector Node 511) (leaves : Nat) : State :=
  { s with
    node := node, root := rootOfLeaves leaves, nodeCnt := BitVec.ofNat 10 (2 * leaves - 1), leafCnt := BitVec.ofNat 9 leaves
    resp := buildResp (BitVec.ofNat 9 leaves) (rootOfLeaves leaves) }.treeFlags leaves

theorem rootOf_buildArena (s : State) : rootOf (buildArena s.freq) = rootOfLeaves (leafTotal s) := by
  have len := length_buildArena s
  rw [rootOf, rootOfLeaves]
  exact if_congr (by rw [List.isEmpty_iff_length_eq_zero]; omega) rfl (by rw [len]; rfl)

theorem rootOfLeaves_toNat {leaves : Nat} (h : leaves ≤ 256) :
    (rootOfLeaves leaves).toNat = if leaves = 0 then 0x1FF else 2 * leaves - 2 := by
  unfold rootOfLeaves
  split
  · rfl
  · rw [BitVec.toNat_ofNat, Nat.mod_eq_of_lt (by omega)]

/-- BUILD outside a session: every register and flag it writes is told by the number of leaves (R78, R80). -/
theorem exec_build_treeOf {s : State} (clear : s.err = false) (idle : ¬ InSession s) :
    exec .build s = .next (s.treeOf (overlay (buildArena s.freq) s.node) (leafTotal s)) := by
  rw [exec_build clear (sessionOpen_eq_false idle), State.withTree, rootOf_buildArena, length_buildArena, length_leafArena]
  rfl

/-- Settles O25: the counts are those of a tree of `leafTotal s` leaves (`exec_build_treeOf`), and fit their registers. -/
theorem buildCompletesWithItsCounts : Obligations.BuildCompletesWithItsCounts := by
  intro s clear
  have le := leafTotal_le s
  refine ⟨fun session => ?_, fun idle => ⟨_, exec_build_treeOf clear idle, rfl, ?_, ?_, rootOfLeaves_toNat le⟩⟩
  · exact guarded_of_not_ok clear (by simp [sessionOpen_eq_true session]) _ _
  · exact Nat.mod_eq_of_lt (by omega)
  · exact Nat.mod_eq_of_lt (by omega)

/-- Settles O26: the tree of no leaves. -/
theorem buildOfTheEmptyTable : Obligations.BuildOfTheEmptyTable := by
  intro s clear idle zero
  have noLeaves : leafTotal s = 0 := by rw [← length_leafArena, leafArena_of_no_counts zero, List.length_nil]
  exact ⟨_, exec_build_treeOf clear idle, by rw [noLeaves]; rfl⟩

/-! ### The leaves -/

/-- Of the numbered entries of a list that pass a test, the one at position `k` stands behind those before it. -/
theorem getElem?_filter_zipIdx {α : Type} (p : α → Bool) (l : List α) : ∀ (k start : Nat) (x : α), l[k]? = some x → p x = true →
    ((l.zipIdx start).filter fun e => p e.1)[((l.take k).filter p).length]? = some (x, start + k) := by
  induction l with
  | nil => simp
  | cons y ys ih =>
    rintro (_ | k) start x h passes
    · obtain rfl : y = x := by simpa using h
      simp [List.zipIdx_cons, passes]
    · have rest := ih k (start + 1) x (by simpa using h) passes
      rw [Nat.add_right_comm, Nat.add_assoc] at rest
      cases py : p y <;> simpa [List.zipIdx_cons, List.filter_cons, py] using rest

/-- The leaf of a symbol stands in BUILD's arena behind those of the lower symbols (R79). -/
theorem leafArena_getElem? {s : State} {sym : Byte} (present : s.freqAt sym ≠ 0) :
    (leafArena s.freq)[leavesBelow s sym]? = some (leafNode sym (s.freqAt sym)) := by
  have count : s.freq.toList[sym.toNat]? = some (s.freqAt sym) := by
    rw [Vector.getElem?_toList, Vector.getElem?_eq_getElem sym.isLt, State.freqAt]
  rw [leafArena_eq, List.getElem?_map, leavesBelow, getElem?_filter_zipIdx (· ≠ 0) _ _ 0 _ count (by simpa using present)]
  simp

theorem buildArena_getElem?_of_leaf {s : State} {i : Nat} {n : Node} (h : (leafArena s.freq)[i]? = some n) :
    (buildArena s.freq)[i]? = some n := by
  obtain ⟨_, spec⟩ := buildArena_spec (List.ne_nil_of_mem (List.mem_of_getElem? h))
  obtain ⟨inner, arena⟩ := spec.leavesFirst
  rw [← arena, getElem?_append_of_some inner h]

/-- A leaf stands at its index after BUILD (R79). -/
theorem entry_leaf {t : State} (tree : t.TreeCurrent) {i : Nat} {n : Node} (h : (leafArena t.freq)[i]? = some n) :
    entry t i = some n := by
  have built := buildArena_getElem?_of_leaf h
  exact (TreeCurrent.entry tree (List.getElem?_eq_some_iff.1 built).1).trans built

/-- What BUILD leaves outside a session (R78): the tree of the counts it found, and its ROOT and LEAF_CNT in RESP. -/
theorem tree_of_build {s t : State} (clear : s.err = false) (idle : ¬ InSession s) (h : exec .build s = .next t) :
    t.TreeCurrent ∧ t.freq = s.freq ∧ t.resp = buildResp t.leafCnt t.root := by
  rw [exec_build clear (sessionOpen_eq_false idle)] at h
  obtain rfl := Host.Outcome.next.inj h
  exact ⟨withTree_treeCurrent s, rfl, rfl⟩

theorem nodeCnt_toNat {t : State} (tree : t.TreeCurrent) : t.nodeCnt.toNat = (buildArena t.freq).length := by
  obtain ⟨-, count, -, -⟩ := tree
  rw [count, BitVec.toNat_ofNat, Nat.mod_eq_of_lt (by have := buildArena_length_le t.freq; omega)]

/-- With one symbol present there is one leaf (R81). -/
theorem leafTotal_of_single {s : State} {sym : Byte} (present : s.freqAt sym ≠ 0)
    (only : ∀ other, other ≠ sym → s.freqAt other = 0) : leafTotal s = 1 := by
  have syms : ((leafArena s.freq).map Node.sym).Perm [sym] :=
    (List.perm_ext_iff_of_nodup (leafArena_syms_nodup s.freq) (List.nodup_singleton sym)).2 fun other => by
      rw [mem_leafArena_syms, List.mem_singleton]
      exact ⟨fun h => not_not.1 fun ne => h (only other ne), fun e => e ▸ present⟩
  simpa [length_leafArena] using syms.length_eq

/-- Settles O27: the one leaf is the tree (`leafTotal_of_single`), so no leaf stands before it. -/
theorem buildOfASingleSymbol : Obligations.BuildOfASingleSymbol := by
  intro s sym clear idle present only
  have single := leafTotal_of_single present only
  have leaf := leafArena_getElem? present
  have first : leavesBelow s sym = 0 := by
    have := (List.getElem?_eq_some_iff.1 leaf).1
    rw [length_leafArena, single] at this
    omega
  rw [first] at leaf
  have build := exec_build_treeOf clear idle
  obtain ⟨tree, -, -⟩ := tree_of_build clear idle build
  exact ⟨_, build, entry_leaf tree leaf, by rw [single]; rfl⟩

/-- Two current trees of the same counts agree in their registers and in every defined entry (R79). -/
theorem tree_congr {t t' : State} (tree : t.TreeCurrent) (tree' : t'.TreeCurrent) (same : t.freq = t'.freq) :
    t.root = t'.root ∧ t.nodeCnt = t'.nodeCnt ∧ t.leafCnt = t'.leafCnt ∧ ∀ i, i < t.nodeCnt.toNat → entry t i = entry t' i := by
  have count := nodeCnt_toNat tree
  have entry_eq {i : Nat} := TreeCurrent.entry tree' (i := i)
  obtain ⟨-, nodeCnt, root, leafCnt⟩ := id tree
  obtain ⟨-, nodeCnt', root', leafCnt'⟩ := tree'
  rw [← same] at entry_eq nodeCnt' root' leafCnt'
  refine ⟨root.trans root'.symm, nodeCnt.trans nodeCnt'.symm, leafCnt.trans leafCnt'.symm, fun i hi => ?_⟩
  rw [count] at hi
  exact (TreeCurrent.entry tree hi).trans (entry_eq hi).symm

/-- Settles O28: each leaf by `leafArena_getElem?`; the rest since the tree BUILD leaves is that of its counts (`tree_of_build`). -/
theorem leavesStandInSymbolOrder : Obligations.LeavesStandInSymbolOrder := by
  refine ⟨fun s t clear idle h sym present => ?_, fun s s' t t' clear idle clear' idle' same h h' => ?_⟩
  · obtain ⟨tree, freq, -⟩ := tree_of_build clear idle h
    exact entry_leaf tree (freq ▸ leafArena_getElem? present)
  · obtain ⟨tree, freq, resp⟩ := tree_of_build clear idle h
    obtain ⟨tree', freq', resp'⟩ := tree_of_build clear' idle' h'
    obtain ⟨root, nodeCnt, leafCnt, entries⟩ := tree_congr tree tree' (freq.trans (same.trans freq'.symm))
    exact ⟨root, nodeCnt, leafCnt, by rw [resp, resp', root, leafCnt], entries⟩

/-! ### The merges -/

section
variable {t : State} (tree : t.TreeCurrent)
include tree

/-- Every internal node of a current tree is the merge of the first two nodes of the queue (R80). -/
theorem mergedAt_of_tree {n : Nat} (inner : leafTotal t ≤ n) (made : n < (buildArena t.freq).length) :
    MergedAt (entry t) (leafTotal t) n := by
  obtain ⟨_, spec⟩ := buildArena_spec (leafArena_ne_nil_of_pos (leafTotal_pos_of_entry made))
  have merged := spec.merged n (length_leafArena t ▸ inner) made
  rw [length_leafArena] at merged
  exact mergedAt_congr (fun j hj => (TreeCurrent.entry tree (hj.trans_lt made)).symm) merged

/-- Leaves come first (R79, R80). -/
theorem leaf_iff_of_tree {i : Nat} {m : Node} (made : i < (buildArena t.freq).length) (hm : entry t i = some m) :
    m.leaf = true ↔ i < leafTotal t := by
  by_cases low : i < leafTotal t
  · rw [← length_leafArena] at low
    have leaf := entry_leaf tree (List.getElem?_eq_getElem low)
    obtain rfl := Option.some.inj (leaf.symm.trans hm)
    exact iff_of_true (leafArena_leaf t.freq _ (List.getElem_mem low)) (length_leafArena t ▸ low)
  · obtain ⟨m', _, _, hm', _, _, inner, -⟩ := mergedAt_of_tree tree (not_lt.1 low) made
    obtain rfl := Option.some.inj (hm'.symm.trans hm)
    exact iff_of_false (by simp [inner]) low

/-- No node weighs more than TOTAL (10_state.md R36.5). -/
theorem weight_le_total {i : Nat} {m : Node} (made : i < (buildArena t.freq).length) (hm : entry t i = some m) : m.wt ≤ t.total := by
  obtain ⟨_, spec⟩ := buildArena_spec (leafArena_ne_nil_of_pos (leafTotal_pos_of_entry made))
  have built := (TreeCurrent.entry tree made).symm.trans hm
  rw [BitVec.le_def, total_toNat]
  exact spec.bounded m (List.mem_of_getElem? built)

/-- A merge takes nodes made before it, and its weight is their sum as integers (R80, R24). -/
theorem children_of_tree {i : Nat} {m a b : Node} (inner : leafTotal t ≤ i) (made : i < (buildArena t.freq).length)
    (hm : entry t i = some m) (ha : entry t m.left.toNat = some a) (hb : entry t m.right.toNat = some b) :
    m.left.toNat < i ∧ m.right.toNat < i ∧ m.wt.toNat = a.wt.toNat + b.wt.toNat := by
  obtain ⟨m', a', b', hm', ha', hb', -, -, -, sum, left, right, -⟩ := mergedAt_of_tree tree inner made
  obtain rfl := Option.some.inj (hm'.symm.trans hm)
  obtain rfl := Option.some.inj (ha'.symm.trans ha)
  obtain rfl := Option.some.inj (hb'.symm.trans hb)
  exact ⟨left.1, right.1, sum⟩

/-- A node taken by one merge is not in the queue of a later one (R80). -/
theorem not_child_of_later {p q i : Nat} {m n : Node} (inner : leafTotal t ≤ p) (later : p < q) (made : q < (buildArena t.freq).length)
    (hm : entry t p = some m) (hn : entry t q = some n) (taken : m.left.toNat = i ∨ m.right.toNat = i) :
    ¬ (n.left.toNat = i ∨ n.right.toNat = i) := by
  obtain ⟨n', _, _, hn', _, _, _, _, _, _, ⟨_, left⟩, ⟨_, right⟩, -⟩ := mergedAt_of_tree tree (inner.trans later.le) made
  obtain rfl := Option.some.inj (hn'.symm.trans hn)
  have left := left p inner later m hm
  have right := right p inner later m hm
  rintro (rfl | rfl)
  · exact taken.elim left.1 left.2
  · exact taken.elim right.1 right.2

theorem parent_unique {p q i : Nat} {m n : Node} (hp : leafTotal t ≤ p) (hq : leafTotal t ≤ q) (madeP : p < (buildArena t.freq).length)
    (madeQ : q < (buildArena t.freq).length) (hm : entry t p = some m) (hn : entry t q = some n)
    (taken : m.left.toNat = i ∨ m.right.toNat = i) (taken' : n.left.toNat = i ∨ n.right.toNat = i) : q = p := by
  rcases lt_trichotomy q p with lt | eq | gt
  · exact absurd taken (not_child_of_later tree hq lt madeP hn hm taken')
  · exact eq
  · exact absurd taken' (not_child_of_later tree hp gt madeQ hm hn taken)

/-- Every node but the last has left the queue when BUILD ends (R78), so a merge has taken it. -/
theorem exists_parent {i : Nat} (notLast : i + 1 < (buildArena t.freq).length) :
    ∃ p m, leafTotal t ≤ p ∧ p < (buildArena t.freq).length ∧ entry t p = some m ∧ (m.left.toNat = i ∨ m.right.toNat = i) := by
  obtain ⟨_, spec⟩ := buildArena_spec (leafArena_ne_nil_of_pos (leafTotal_pos_of_entry notLast))
  by_contra! untaken
  have queued : Queued (entry t) (leafTotal t) (buildArena t.freq).length i :=
    ⟨by omega, fun p inner made m hm => untaken p m inner made hm⟩
  rw [queued_congr (g := entry t) fun j hj => TreeCurrent.entry tree hj, ← length_leafArena, ← spec.queued] at queued
  omega

/-- The root weighs TOTAL (10_state.md R36.5). -/
theorem root_weight (hasLeaf : 0 < leafTotal t) : ∃ m, t.nodeAt? t.root = some m ∧ m.wt = t.total := by
  have leaves := leafArena_ne_nil_of_pos hasLeaf
  obtain ⟨_, spec⟩ := buildArena_spec leaves
  obtain ⟨m, last, weight⟩ := spec.rootWeight
  have made := (List.getElem?_eq_some_iff.1 last).1
  refine ⟨m, ?_, BitVec.eq_of_toNat_eq (weight.trans (total_toNat t).symm)⟩
  rw [State.nodeAt?, TreeCurrent.root_toNat tree spec leaves, TreeCurrent.entry tree made, last]

end

/-- The number of leaves depends on FREQ alone. -/
theorem leafTotal_congr {s t : State} (h : t.freq = s.freq) : leafTotal t = leafTotal s := by rw [leafTotal, leafTotal, h]

/-- Settles O29: the merge loop makes every internal node so (`mergedAt_of_tree`). -/
theorem mergesTakeTheLeastTwo : Obligations.MergesTakeTheLeastTwo := by
  intro s t clear idle h n inner made
  obtain ⟨tree, freq, -⟩ := tree_of_build clear idle h
  rw [← leafTotal_congr freq] at inner ⊢
  rw [nodeCnt_toNat tree] at made
  obtain ⟨m, a, b, hm, ha, hb, leaf, sym, sum, -, rest⟩ := mergedAt_of_tree tree inner made
  exact ⟨m, a, b, hm, ha, hb, leaf, sym, sum, rest⟩

/-- Settles O30, clause by clause from what holds of a current tree. -/
theorem theTreeIsWellShaped : Obligations.TheTreeIsWellShaped := by
  intro s t clear idle h hasLeaf
  obtain ⟨tree, freq, -⟩ := tree_of_build clear idle h
  rw [← leafTotal_congr freq] at hasLeaf ⊢
  rw [nodeCnt_toNat tree]
  refine ⟨fun i m made hm => ⟨weight_le_total tree made hm, leaf_iff_of_tree tree made hm⟩,
    fun i m a b inner made hm ha hb => children_of_tree tree inner made hm ha hb, fun i notLast => ?_, root_weight tree hasLeaf⟩
  obtain ⟨p, m, inner, made, hm, taken⟩ := exists_parent tree notLast
  exact ⟨p, inner, made, ⟨m, hm, taken⟩, fun q n hq madeQ hn taken' => parent_unique tree inner hq made madeQ hm hn taken taken'⟩

/-! ### Reading a node -/

section
variable {s : State} (clear : s.err = false) (cmd : Word) (idx : NodeIdx) (k : Node → Result)
include clear

/-- A node named without a valid tree (R83, R84). -/
theorem withNode_of_no_tree (invalid : s.treeValid = false) :
    unlessPending s (withNode cmd idx s k) = .next (errorState s cmd 2 s.status) :=
  guarded_of_not_ok clear invalid cmd _

/-- A node named at or above NODE_CNT (R83, R84). -/
theorem withNode_of_undefined (valid : s.treeValid = true) (high : s.nodeCnt.toNat ≤ idx.toNat) :
    unlessPending s (withNode cmd idx s k) = .next (errorState s cmd 3 (zext idx)) := by
  rw [unlessPending_of_clear clear, withNode_next]
  exact .inr (.inl ⟨valid, high, (raise_of_not_decode (e := .range) rfl s cmd (zext idx)).symm⟩)

/-- A defined node named (R83, R84). -/
theorem withNode_of_defined (valid : s.treeValid = true) (low : idx.toNat < s.nodeCnt.toNat) {n : Node}
    (hn : s.nodeAt? idx = some n) {t : State} (hk : k n = .next t) :
    unlessPending s (withNode cmd idx s k) = .next t := by
  rw [unlessPending_of_clear clear, withNode_next]
  exact .inr (.inr ⟨valid, low, n, hn, hk⟩)

end

/-- Settles O31, outcome by outcome of naming a node. -/
theorem nodeWtReturnsTheWeight : Obligations.NodeWtReturnsTheWeight := fun idx _ =>
  ⟨rfl, fun clear invalid => withNode_of_no_tree clear _ idx _ invalid,
    fun clear valid high => withNode_of_undefined clear _ idx _ valid high,
    fun _ clear valid low hn => withNode_of_defined clear _ idx _ valid low hn rfl⟩

/-- Settles O32, outcome by outcome of naming a node; RESP is `linkWord`. -/
theorem nodeLnkReturnsTheLinks : Obligations.NodeLnkReturnsTheLinks := fun idx _ =>
  ⟨rfl, fun clear invalid => withNode_of_no_tree clear _ idx _ invalid,
    fun clear valid high => withNode_of_undefined clear _ idx _ valid high,
    fun _ clear valid low hn => withNode_of_defined clear _ idx _ valid low hn rfl⟩

end Sys2Proof.Machine

namespace Sys2Proof.Machine
open Sys2Proof.Claims Sys2Proof.Laws

/-! ## The code table generator -/

/-! ### The entries of the code table -/

/-- Every symbol once, in ascending order: the index of the code table. -/
def allSyms : List Byte := (List.finRange 256).map BitVec.ofFin

theorem mem_allSyms (sym : Byte) : sym ∈ allSyms := List.mem_map.2 ⟨sym.toFin, List.mem_finRange _, rfl⟩

theorem nodup_allSyms : allSyms.Nodup := (List.nodup_finRange 256).map fun _ _ => BitVec.ofFin.inj

theorem code_eq_map_allSyms (s : State) : s.code.toList = allSyms.map s.codeAt := by
  refine List.ext_getElem (by simp [allSyms]) fun i h1 h2 => ?_
  simp [allSyms, State.codeAt]

/-- What GENCODES answers is the greatest of the lengths and 0 (42_code_generator.md R85). -/
theorem maxLen_spec (s : State) :
    (∀ sym, (s.codeAt sym).len.toNat ≤ maxLen s.code) ∧
    (maxLen s.code = 0 ∨ ∃ sym, (s.codeAt sym).len.toNat = maxLen s.code) := by
  have lens : maxLen s.code = (allSyms.map fun sym => (s.codeAt sym).len.toNat).foldl max 0 := by
    rw [maxLen, code_eq_map_allSyms, List.map_map]
    rfl
  obtain ⟨mem, le⟩ := List.max?_eq_some_iff.1 (List.max?_cons' (x := 0) (xs := allSyms.map fun sym => (s.codeAt sym).len.toNat))
  rw [← lens] at mem le
  refine ⟨fun sym => le _ (List.mem_cons_of_mem _ (List.mem_map_of_mem (mem_allSyms sym))), (List.mem_cons.1 mem).imp id fun h => ?_⟩
  obtain ⟨sym, -, e⟩ := List.mem_map.1 h
  exact ⟨sym, e⟩

/-! ### The codes of a current table -/

/-- LEN is 0 exactly for a symbol without a leaf (10_state.md R26). -/
theorem codeAt_len_eq_zero {s : State} (tree : s.TreeCurrent) (codes : s.CodesCurrent) (sym : Byte) :
    (s.codeAt sym).len = 0 ↔ s.freqAt sym = 0 := by
  refine ⟨fun h => by_contra fun present => codeAt_len_ne_zero tree codes present h, fun absent => ?_⟩
  obtain ⟨p, -, e, hnil⟩ := codeAt_eq_ofPath tree codes sym
  rw [e, hnil.2 absent, ofPath_nil]
  rfl

/-- With one leaf, its symbol is the only one with a count, and has the code "0" (R87). -/
theorem codeOf_single {s : State} (tree : s.TreeCurrent) (codes : s.CodesCurrent) (one : leafTotal s = 1) :
    ∃ only, ∀ sym, s.freqAt sym ≠ 0 → sym = only ∧ codeOf s sym = [false] := by
  obtain ⟨only, present, -, table⟩ := codeTable_single tree ((length_leafArena s).trans one)
  have code : s.code = noCodes.set only.toNat ⟨1, 0⟩ only.isLt := Option.some.inj (codes.symm.trans table)
  refine ⟨only, fun sym hsym => ?_⟩
  obtain rfl := (present sym).1 hsym
  have entry : s.codeAt sym = Code.ofPath [false] := by simp [State.codeAt, code, ofPath_zero]
  exact ⟨rfl, by rw [codeOf, entry, path_ofPath (by decide)]⟩

theorem codesSpec_of_leafTotal {s : State} (tree : s.TreeCurrent) (codes : s.CodesCurrent) (two : 2 ≤ leafTotal s) :
    ∃ t, CodesSpec s t ∧ t.syms.length = leafTotal s := by
  rw [← length_leafArena] at two ⊢
  exact codesSpec tree codes two

theorem leafTotal_pos_of_present {s : State} {sym : Byte} (present : s.freqAt sym ≠ 0) : 0 < leafTotal s := by
  rw [← length_leafArena]
  simpa using List.length_pos_of_mem ((mem_leafArena_syms s sym).2 present)

section
variable {s : State} {t : HTree} (spec : CodesSpec s t)
include spec

/-- With two or more leaves, the code of a symbol that has one is its path in the tree (R86). -/
theorem codeOf_mem_paths {sym : Byte} (present : s.freqAt sym ≠ 0) : (sym, codeOf s sym) ∈ t.paths := by
  obtain ⟨x, hx, rfl⟩ := List.mem_map.1 (t.map_fst_paths ▸ (spec.syms sym).2 present)
  rwa [codeOf, spec.codes x hx, path_ofPath (spec.short x hx)]

/-- The table's entries with a code are, in some order, the paths of the tree (R86). -/
theorem codes_perm_paths (coded : ∀ sym, (s.codeAt sym).len = 0 ↔ s.freqAt sym = 0) :
    (s.code.toList.filter fun c => c.len ≠ 0).Perm (t.paths.map fun x => Code.ofPath x.2) := by
  have present : (allSyms.filter fun sym => (s.codeAt sym).len ≠ 0).Perm t.syms := by
    refine (List.perm_ext_iff_of_nodup (nodup_allSyms.filter _) spec.nodup).2 fun sym => ?_
    simp only [List.mem_filter, decide_eq_true_eq, mem_allSyms, true_and, ne_eq, coded, spec.syms]
  have entries : t.syms.map s.codeAt = t.paths.map fun x => Code.ofPath x.2 := by
    rw [← t.map_fst_paths, List.map_map]
    exact List.map_congr_left spec.codes
  rw [code_eq_map_allSyms, List.filter_map, ← entries]
  exact present.map _

end

/-- A leaf's path leads from the root of its tree to the leaf (R86). -/
theorem follow_path {s : State} {t : HTree} : ∀ {i : NodeIdx}, Rep (s.node[·]?) i.toNat t → ∀ x ∈ t.paths,
    ∃ n, follow s i x.2 = some n ∧ n.leaf = true ∧ n.sym = x.1 := by
  induction t with
  | leaf sym =>
    rintro i ⟨n, hn, hl, hs⟩ x hx
    obtain rfl := List.mem_singleton.1 hx
    exact ⟨n, hn, hl, hs⟩
  | node l r ihl ihr =>
    rintro i ⟨n, hn, hl, left, right⟩ x hx
    have descend (b : Bool) (p : List Bool) : follow s i (b :: p) = follow s (if b then n.right else n.left) p := by
      rw [follow, show s.nodeAt? i = some n from hn]
      simp [hl]
    simp only [HTree.paths, List.mem_append, List.mem_map] at hx
    obtain ⟨y, hy, rfl⟩ | ⟨y, hy, rfl⟩ := hx
    · rw [descend]; exact ihl left y hy
    · rw [descend]; exact ihr right y hy

/-! ### GENCODES -/

/-- The state in which GENCODES has written a code table (R85). -/
def State.withCodes (s : State) (tbl : Vector Code 256) : State :=
  { s with code := tbl, codesValid := true, resp := BitVec.ofNat 32 (maxLen tbl) }

/-- GENCODES outside a session, on a current tree, writes its codes (R85). -/
theorem exec_gencodes_withCodes {s : State} (clear : s.err = false) (idle : ¬ InSession s) (valid : s.treeValid = true)
    (tree : s.TreeCurrent) :
    ∃ tbl, exec .gencodes s = .next (s.withCodes tbl) ∧ (s.withCodes tbl).TreeCurrent ∧ (s.withCodes tbl).CodesCurrent := by
  obtain ⟨tbl, table⟩ := codeTable_isSome tree
  exact ⟨tbl, exec_gencodes clear (sessionOpen_eq_false idle) valid table, tree, table⟩

/-- A length is a byte, so the greatest one fits RESP. -/
theorem withCodes_resp_toNat (s : State) (tbl : Vector Code 256) : (s.withCodes tbl).resp.toNat = maxLen tbl := by
  have small : maxLen tbl < 256 := by
    rcases (maxLen_spec (s.withCodes tbl)).2 with zero | ⟨sym, e⟩
    · exact zero.trans_lt (by decide)
    · exact e ▸ BitVec.isLt _
  exact (BitVec.toNat_ofNat ..).trans (Nat.mod_eq_of_lt (by omega))

/-- Settles O33: the table exists and is the tree's (`exec_gencodes_withCodes`), and RESP is its greatest length (`maxLen_spec`). -/
theorem gencodesCompletesWithTheGreatestLength : Obligations.GencodesCompletesWithTheGreatestLength := by
  intro s clear
  refine ⟨fun broken => guarded_of_not_ok clear ?_ _ _, fun inv valid idle => ?_⟩
  · rcases broken with invalid | session
    · simp [invalid]
    · simp [sessionOpen_eq_true session]
  · obtain ⟨tbl, run, tree, codes⟩ := exec_gencodes_withCodes clear idle valid (inv.treeCurrent valid)
    obtain ⟨bound, attained⟩ := maxLen_spec (s.withCodes tbl)
    have answer : maxLen (s.withCodes tbl).code = (s.withCodes tbl).resp.toNat := (withCodes_resp_toNat s tbl).symm
    rw [answer] at bound attained
    exact ⟨_, run, rfl, bound, attained.imp_left BitVec.eq_of_toNat_eq, codeAt_len_eq_zero tree codes⟩

/-! ### The codes of a good state -/

theorem State.Inv.codesOfTree {s : State} (inv : s.Inv) (valid : s.codesValid = true) : s.TreeCurrent ∧ s.CodesCurrent :=
  ⟨inv.treeCurrent (inv.codesHaveTree valid), inv.codesCurrent valid⟩

/-- SINGLE tells of a tree with one leaf (10_state.md R19). -/
theorem leafTotal_of_singleFlag {s : State} (inv : s.Inv) (tree : s.TreeCurrent) (single : s.single = true) : leafTotal s = 1 := by
  obtain ⟨-, -, -, count⟩ := tree
  have flag := inv.singleFlag
  rw [single, count, length_leafArena, eq_comm, Bool.and_eq_true] at flag
  obtain ⟨-, one⟩ := flag
  exact eq_of_beq ((leafCnt_beq (leafTotal_le s) (by decide : 1 ≤ 256)).trans one)

/-- Settles O34: a code is a path of the tree at ROOT (`codeOf_mem_paths`), and a path leads to its leaf (`follow_path`). -/
theorem codesArePathsToTheirLeaves : Obligations.CodesArePathsToTheirLeaves := by
  intro s inv valid two sym coded
  obtain ⟨tree, codes⟩ := inv.codesOfTree valid
  obtain ⟨t, spec, -⟩ := codesSpec_of_leafTotal tree codes two
  have present : s.freqAt sym ≠ 0 := mt (codeAt_len_eq_zero tree codes sym).2 coded
  exact follow_path spec.rep _ (codeOf_mem_paths spec present)

/-- Settles O37: one leaf has no other symbol beside it, and the paths of a larger tree part at some node (`HTree.paths_pairwise`). -/
theorem noCodeIsAPrefixOfAnother : Obligations.NoCodeIsAPrefixOfAnother := by
  intro s inv valid sym other distinct coded coded'
  obtain ⟨tree, codes⟩ := inv.codesOfTree valid
  have present : s.freqAt sym ≠ 0 := mt (codeAt_len_eq_zero tree codes sym).2 coded
  have present' : s.freqAt other ≠ 0 := mt (codeAt_len_eq_zero tree codes other).2 coded'
  rcases Nat.eq_or_lt_of_le (leafTotal_pos_of_present present) with one | two
  · obtain ⟨only, single⟩ := codeOf_single tree codes one.symm
    exact absurd ((single sym present).1.trans (single other present').1.symm) distinct
  · obtain ⟨t, spec, -⟩ := codesSpec_of_leafTotal tree codes two
    have : Std.Symm fun x y : Byte × List Bool => ¬ x.2 <+: y.2 ∧ ¬ y.2 <+: x.2 := ⟨fun _ _ => And.symm⟩
    exact (t.paths_pairwise.forall (codeOf_mem_paths spec present) (codeOf_mem_paths spec present')
      fun e => distinct (congrArg Prod.fst e)).1

/-- Settles O38: the codes are the tree's paths (`codes_perm_paths`), whose weights `HTree.kraft` sums. -/
theorem theCodeIsComplete : Obligations.TheCodeIsComplete := by
  intro s inv valid two
  obtain ⟨tree, codes⟩ := inv.codesOfTree valid
  obtain ⟨t, spec, leaves⟩ := codesSpec_of_leafTotal tree codes two
  have depth : t.depth ≤ 255 := by
    have := t.depth_lt_length
    have := leafTotal_le s
    omega
  calc ((s.code.toList.filter fun c => c.len ≠ 0).map fun c => 2 ^ (255 - c.len.toNat)).sum
    _ = (t.paths.map fun x => 2 ^ (255 - (Code.ofPath x.2).len.toNat)).sum := by
        rw [((codes_perm_paths spec (codeAt_len_eq_zero tree codes)).map _).sum_nat, List.map_map]
        rfl
    _ = (t.paths.map fun x => 2 ^ (255 - x.2.length)).sum := by
        rw [List.map_congr_left fun x hx => by rw [ofPath_len (spec.short x hx)]]
    _ = 2 ^ 255 := t.kraft 255 depth

/-- Settles O36: SINGLE tells of one leaf (`leafTotal_of_singleFlag`), whose code is `codeOf_single`. -/
theorem theSingleLeafCodeIsZero : Obligations.TheSingleLeafCodeIsZero := by
  intro s t inv clear valid single idle run sym present
  have one := leafTotal_of_singleFlag inv (inv.treeCurrent valid) single
  obtain ⟨tbl, run', tree, codes⟩ := exec_gencodes_withCodes clear idle valid (inv.treeCurrent valid)
  obtain rfl := Host.Outcome.next.inj (run'.symm.trans run)
  obtain ⟨_, code⟩ := codeOf_single tree codes one
  exact (code sym present).2

/-! ### Reading a code -/

/-- Word K of a code, from bit 31 down, is the code storage from bit 255 - 32K down (R89). -/
theorem codeSlice_getLsbD (bits : BitVec 256) (k : BitVec 3) {j : Nat} (hj : j < 32) :
    (codeSlice bits k).getLsbD (31 - j) = bits.getLsbD (255 - 32 * k.toNat - j) := by
  have hk := k.isLt
  rw [codeSlice, BitVec.getLsbD_extractLsb', decide_eq_true (by omega), Bool.true_and]
  congr 1
  omega

/-- The code storage of a current table reads as the code's bits, then zeros (10_state.md R26). -/
theorem codeAt_bits {s : State} (tree : s.TreeCurrent) (codes : s.CodesCurrent) (sym : Byte) {i : Nat} (hi : i < 256) :
    (s.codeAt sym).bits.getLsbD (255 - i) = (codeOf s sym).getD i false := by
  obtain ⟨p, short, entry, -⟩ := codeAt_eq_ofPath tree codes sym
  rw [codeOf, entry, path_ofPath short, ofPath_bits short hi, List.getD_eq_getElem?_getD]

/-- Settles O40: RESP is the slice (`codeSlice_getLsbD`), the stored bits are the code's (`codeAt_bits`). -/
theorem codeBitsReturnsTheSlice : Obligations.CodeBitsReturnsTheSlice := by
  intro sym k s
  refine ⟨rfl, fun clear invalid => guarded_of_not_ok clear invalid _ _, fun clear valid =>
    ⟨codeSlice (s.codeAt sym).bits k, guarded_of_ok clear valid _ _, fun j hj => ?_⟩⟩
  have slice := codeSlice_getLsbD (s.codeAt sym).bits k hj
  refine ⟨slice, fun inv => ?_⟩
  obtain ⟨tree, codes⟩ := inv.codesOfTree valid
  have hk := k.isLt
  rw [slice, Nat.sub_sub, codeAt_bits tree codes sym (by omega)]

/-- Settles O39: RESP is LEN, which is 0 for a symbol without a leaf (`codeAt_len_eq_zero`). -/
theorem codeLenReturnsTheLength : Obligations.CodeLenReturnsTheLength := by
  intro sym s
  have reads (clear : s.err = false) (valid : s.codesValid = true) :
      exec (.codeLen sym) s = .next { s with resp := (s.codeAt sym).len.setWidth 32 } := guarded_of_ok clear valid _ _
  refine ⟨rfl, fun clear invalid => guarded_of_not_ok clear invalid _ _, reads, fun inv clear valid absent => ?_⟩
  obtain ⟨tree, codes⟩ := inv.codesOfTree valid
  rw [reads clear valid, (codeAt_len_eq_zero tree codes sym).2 absent]
  rfl

end Sys2Proof.Machine

namespace Sys2Proof.Machine
open Sys2Proof.Claims Sys2Proof.Laws

/-! ## The packer -/

/-- Settles O45: the run is `execAll_packSession`. -/
theorem aSessionPacksTheConcatenatedCodes : Obligations.ASessionPacksTheConcatenatedCodes := by
  intro s syms _ clear codes idle coded
  obtain ⟨bytes, bits, pad, resp, run, packs⟩ := execAll_packSession clear codes (sessionOpen_eq_false idle) coded
  exact ⟨_, bytes, run, clear, rfl, packs, rfl, rfl⟩

/-- Settles O41: the condition of its `require` is that codes are valid and no session is open. -/
theorem packBeginOpensASession : Obligations.PackBeginOpensASession := by
  intro s
  refine ⟨rfl, fun clear broken => guarded_of_not_ok clear ?_ _ _, fun clear codes idle =>
    exec_packBegin clear (sessionOpen_eq_false idle) codes⟩
  rcases broken with invalid | session
  · simp [invalid]
  · simp [sessionOpen_eq_true session]

/-- The bytes that a code's bits send out stand at the tail of OUTQ, and PACK_SYM's response counts them (43_bit_packer.md R91). -/
theorem packed_emitted (s : State) (acc : Byte) (nacc : BitVec 4) (bytes : List Byte) :
    (packed s acc nacc bytes).outq.length - s.outq.length = bytes.length := by
  simp [packed]

theorem path_length (c : Code) : c.path.length = c.len.toNat := by simp [Code.path]

/-- Settles O42: what the code's bits do is `packBits_spec`; at most 7 of them wait, so the bytes that went out are the whole ones. -/
theorem packSymAppendsTheCode : Obligations.PackSymAppendsTheCode := by
  intro sym s
  have accepted (clear : s.err = false) (isOpen : s.packOpen = true) :=
    guarded_of_ok clear isOpen (encode (.packSym sym))
  refine ⟨rfl, fun clear closed => guarded_of_not_ok clear closed _ _, fun clear isOpen uncoded => ?_,
    fun clear isOpen coded clean => ?_⟩
  · refine (accepted clear isOpen _).trans ((require_of_false (by simpa using uncoded) ..).trans ?_)
    rw [raise_of_not_decode rfl]
    rfl
  · obtain ⟨acc, nacc, bytes, appended, clean', bits, count⟩ := packBits_spec (s := s) (s.codeAt sym).path clean
    have small : nacc.toNat ≤ 7 := clean'.1
    rw [path_length] at count
    refine ⟨s.packedSyms acc nacc bytes (s.pBits + zext (s.codeAt sym).len) (s.pSyms + 1) (BitVec.ofNat 32 bytes.length), bytes,
      (accepted clear isOpen _).trans ((require_of_true (by simpa using coded) ..).trans ?_), rfl, clean', by omega, bits⟩
    dsimp only
    rw [appended, packed_emitted]
    rfl

/-- Settles O43: `flushAcc` case by case; the byte in progress is padded with zeros (`padAcc_bits`). -/
theorem packFlushPadsAndCloses : Obligations.PackFlushPadsAndCloses := by
  intro s
  have accepted (clear : s.err = false) (isOpen : s.packOpen = true) :
      exec .packFlush s = complete (zext (flushAcc s).pPad) (flushAcc s) := guarded_of_ok clear isOpen _ _
  refine ⟨rfl, fun clear closed => guarded_of_not_ok clear closed _ _, fun clear isOpen whole => ?_,
    fun clear isOpen part clean => ⟨padAcc s.acc s.nacc, padAcc_bits clean, ?_⟩⟩
  · rw [accepted clear isOpen, flushAcc, if_pos whole]
    rfl
  · have pos : s.nacc.toNat ≠ 0 := fun e => part (BitVec.eq_of_toNat_eq e)
    have pad : zext (BitVec.ofNat 3 (8 - s.nacc.toNat)) = BitVec.ofNat 32 (8 - s.nacc.toNat) := by
      refine BitVec.eq_of_toNat_eq ?_
      simp [zext]
      omega
    rw [accepted clear isOpen, flushAcc, if_neg part]
    dsimp only
    rw [pad]
    rfl

/-! ### The packer's accounting -/

/-- The states agree on the registers of the packer's accounting (43_bit_packer.md R93). -/
structure SameAccounts (s t : State) : Prop where
  packOpen : t.packOpen = s.packOpen
  nacc : t.nacc = s.nacc
  pBytes : t.pBytes = s.pBytes
  pBits : t.pBits = s.pBits
  pPad : t.pPad = s.pPad

theorem SameAccounts.accounts {s t : State} (same : SameAccounts s t) (h : PackerAccounts s) : PackerAccounts t := by
  obtain ⟨e1, e2, e3, e4, e5⟩ := same
  simpa only [PackerAccounts, e1, e2, e3, e4, e5] using h

theorem SameAccounts.accountsExactly {s t : State} (same : SameAccounts s t) (h : PackerAccountsExactly s) :
    PackerAccountsExactly t := by
  obtain ⟨e1, e2, e3, e4, e5⟩ := same
  simpa only [PackerAccountsExactly, e1, e2, e3, e4, e5] using h

theorem finish_sameAccounts (shown : Shown) (s : State) : SameAccounts s (finish shown s) := by
  rw [finish_eq]
  exact ⟨rfl, rfl, rfl, rfl, rfl⟩

/-- Everything a step can do to the accounting: nothing, a reset, or what the command it runs does. -/
theorem step_accounts {s t : State} (h : step s = .next t) :
    SameAccounts s t ∨ SameAccounts State.reset t ∨
    ∃ w rest i u, s.executing = none ∧ s.inbox = .command w :: rest ∧ decode w = .ok i ∧ Effect i { s with inbox := rest } u ∧
      SameAccounts u t := by
  obtain ⟨shown, -, rfl⟩ | ⟨-, -, rfl⟩ | ⟨rest, -, -, rfl⟩ | ⟨rest, -, -, rfl⟩ | ⟨w, rest, u, he, hi, hu, rfl⟩ := step_next h
  · rcases waitStep_cases shown s s.inbox [] with ⟨_, _, -, -, e⟩ | ⟨_, _, -, -, e⟩ | ⟨-, e⟩ <;> rw [e]
    · exact .inl { finish_sameAccounts shown (takeByte { s with inbox := _ }) with }
    · exact .inr (.inl ⟨rfl, rfl, rfl, rfl, rfl⟩)
    · exact .inl ⟨rfl, rfl, rfl, rfl, rfl⟩
  · exact .inl ⟨rfl, rfl, rfl, rfl, rfl⟩
  · exact .inl ⟨rfl, rfl, rfl, rfl, rfl⟩
  · exact .inr (.inl ⟨rfl, rfl, rfl, rfl, rfl⟩)
  · have same := finish_sameAccounts ⟨s.resp, s.err⟩ u
    cases hd : decode w with
    | ok i =>
      rw [runWord_of_decode hd] at hu
      exact .inr (.inr ⟨w, rest, i, u, he, hi, hd, exec_effect hu, same⟩)
    | error d =>
      rw [runWord_of_error hd] at hu
      rcases illegalCommand_next.1 hu with ⟨-, rfl⟩ | ⟨-, rfl⟩ <;> exact .inl { same with }

/-- A code's bits are those that went out and those that wait (R93). -/
theorem packedSym_count {s : State} (small : s.nacc ≤ 7) {c : Code} {acc : Byte} {nacc : BitVec 4} {bytes : List Byte}
    (bits : packBits c.path s = packed s acc nacc bytes) :
    nacc ≤ 7 ∧ 8 * bytes.length + nacc.toNat = s.nacc.toNat + c.len.toNat := by
  obtain ⟨acc', nacc', bytes', e, small', count⟩ := packBits_account c.path small
  obtain ⟨rfl, rfl, rfl⟩ := packed_inj (bits.symm.trans e)
  exact ⟨small', path_length c ▸ count⟩

/-- A command keeps the accounting modulo 2^32 (R93). -/
theorem Effect.keeps_accounts {i : Instr} {s t : State} (h : Effect i s t) (hs : PackerAccounts s) : PackerAccounts t := by
  have ⟨small, inSession, _⟩ := hs
  cases h with
  | packBegin => exact ⟨noBits_small, fun _ => rfl, nofun⟩
  | packSym sym _ isOpen acc nacc bytes bits =>
    obtain ⟨small', count⟩ := packedSym_count small bits
    exact ⟨small', fun _ => packAccount_add (inSession isOpen) count, fun closed => absurd (isOpen.symm.trans closed) nofun⟩
  | flushNone _ isOpen whole => exact ⟨noBits_small, nofun, fun _ => flushAccount_none (inSession isOpen) whole⟩
  | flushByte _ isOpen part => exact ⟨noBits_small, nofun, fun _ => flushAccount_pad (inSession isOpen) part small⟩
  | sreset => exact ⟨noBits_small, nofun, fun _ => nothing_packed⟩
  | _ => exact hs

/-- The count of bits follows the bytes and the waiting bits as integers (R93): P_BYTES does not wrap where P_BITS does not. -/
theorem packAccount_add_exact {pBytes pBits : Word} {nacc nacc' : BitVec 4} {len : Byte} {n : Nat}
    (h : 8 * pBytes.toNat + nacc.toNat = pBits.toNat) (count : 8 * n + nacc'.toNat = nacc.toNat + len.toNat)
    (noWrap : pBits.toNat + len.toNat < 2 ^ 32) :
    8 * (pBytes + BitVec.ofNat 32 n).toNat + nacc'.toNat = (pBits + zext len).toNat := by
  simp only [zext, BitVec.toNat_add, BitVec.toNat_ofNat, BitVec.toNat_setWidth]
  omega

/-- A padded byte stands for the waiting bits, as integers (R92, R93). -/
theorem flushAccount_pad_exact {pBytes pBits : Word} {nacc : BitVec 4} (h : 8 * pBytes.toNat + nacc.toNat = pBits.toNat)
    (part : nacc ≠ 0) (small : nacc ≤ 7) :
    8 * (pBytes + 1).toNat = pBits.toNat + (BitVec.ofNat 3 (8 - nacc.toNat)).toNat := by
  have h7 : nacc.toNat ≤ 7 := small
  have h0 : nacc.toNat ≠ 0 := fun e => part (BitVec.eq_of_toNat_eq e)
  have := pBits.isLt
  simp only [BitVec.ofNat_eq_ofNat, BitVec.toNat_add, BitVec.toNat_ofNat]
  omega

/-- A command that does not wrap P_BITS keeps the accounting as integers (R93). -/
theorem Effect.keeps_accountsExactly {i : Instr} {s t : State} (h : Effect i s t) (hs : PackerAccountsExactly s)
    (noWrap : ∀ sym, i = .packSym sym → s.err = false → s.packOpen = true → s.pBits.toNat + (s.codeAt sym).len.toNat < 2 ^ 32) :
    PackerAccountsExactly t := by
  have ⟨small, inSession, _⟩ := hs
  cases h with
  | packBegin => exact ⟨noBits_small, fun _ => rfl, nofun⟩
  | packSym sym clear isOpen acc nacc bytes bits =>
    obtain ⟨small', count⟩ := packedSym_count small bits
    exact ⟨small', fun _ => packAccount_add_exact (inSession isOpen) count (noWrap sym rfl clear isOpen),
      fun closed => absurd (isOpen.symm.trans closed) nofun⟩
  | flushNone _ isOpen whole => exact ⟨noBits_small, nofun, fun _ => by simpa [whole] using inSession isOpen⟩
  | flushByte _ isOpen part => exact ⟨noBits_small, nofun, fun _ => flushAccount_pad_exact (inSession isOpen) part small⟩
  | sreset => exact ⟨noBits_small, nofun, fun _ => rfl⟩
  | _ => exact hs

theorem reset_accounts : PackerAccounts State.reset := ⟨noBits_small, nofun, fun _ => nothing_packed⟩

theorem reset_accountsExactly : PackerAccountsExactly State.reset := ⟨noBits_small, nofun, fun _ => rfl⟩

/-- Settles O44, over everything a step can do to the accounting (`step_accounts`). -/
theorem packerAccountingIsKept : Obligations.PackerAccountingIsKept := by
  refine ⟨reset_accountsExactly, reset_accounts, fun s t hs noWrap h => ?_, fun s t hs h => ?_⟩
  · obtain same | same | ⟨w, rest, i, u, he, hi, hd, eff, same⟩ := step_accounts h
    · exact same.accountsExactly hs
    · exact same.accountsExactly reset_accountsExactly
    · exact same.accountsExactly (eff.keeps_accountsExactly hs fun sym e => noWrap w rest sym he hi (e ▸ hd))
  · obtain same | same | ⟨_, _, _, _, -, -, -, eff, same⟩ := step_accounts h
    · exact same.accounts hs
    · exact same.accounts reset_accounts
    · exact same.accounts (eff.keeps_accounts hs)

end Sys2Proof.Machine

namespace Sys2Proof.Machine
open Sys2Proof.Claims Sys2Proof.Laws

/-! ## The unpacker -/

/-- Settles O46: the condition of its `require` is that a tree is valid and no session is open. -/
theorem unpackBeginOpensASession : Obligations.UnpackBeginOpensASession := by
  intro pad s
  refine ⟨rfl, fun clear broken => guarded_of_not_ok clear ?_ _ _, fun clear valid idle =>
    exec_unpackBegin clear (sessionOpen_eq_false idle) valid pad⟩
  rcases broken with invalid | session
  · simp [invalid]
  · simp [sessionOpen_eq_true session]

/-- A decode error closes the unpack session (60_exceptions.md R110, R115). -/
theorem raise_of_decode {e : Err} (h : e.isDecode = true) (s : State) (cmd info : Word) :
    s.raise cmd e info = { errorState s cmd e.code info with unpackOpen := false } := by
  simp [State.raise, errorState, h]

/-- Settles O49, check by check. -/
theorem unpackEndChecksAndCloses : Obligations.UnpackEndChecksAndCloses := by
  intro s
  have accepted (clear : s.err = false) (isOpen : s.unpackOpen = true) :=
    guarded_of_ok clear isOpen (encode .unpackEnd)
  refine ⟨rfl, fun clear broken => ?_, fun clear isOpen ended owing => ?_, exec_unpackEnd⟩
  · cases isOpen : s.unpackOpen with
    | false => exact guarded_of_not_ok clear isOpen _ _
    | true =>
      obtain ⟨fed, notLast⟩ := broken.resolve_left (by simp [isOpen])
      refine (accepted clear isOpen _).trans ((unlessPending_of_clear clear _).symm.trans ?_)
      exact guarded_of_not_ok clear (by simpa [notLast] using fed) _ _
  · refine (accepted clear isOpen _).trans ((require_of_true (by simpa using ended) ..).trans ?_)
    rw [require_of_false (by simpa using owing), raise_of_decode rfl]
    rfl

/-! ### The end of a session -/

/-- Everything an UNPACK_END that raises nothing has checked (44_bit_unpacker.md R99). -/
theorem unpackEnd_succeeds {s t : State} (clear : s.err = false) (run : exec .unpackEnd s = .next t) (ok : t.err = false) :
    s.unpackOpen = true ∧ (s.uFed = 0 ∨ s.uLast = true) ∧ s.uRem = 0 ∧ t = { s with unpackOpen := false, resp := s.uSyms } := by
  rw [show exec .unpackEnd s = execUnpackEnd s from rfl, execUnpackEnd, unlessPending_of_clear clear] at run
  obtain ⟨isOpen, run⟩ | ⟨-, rfl⟩ := requireSeq_next.1 run
  · obtain ⟨ended, run⟩ | ⟨-, rfl⟩ := requireSeq_next.1 run
    · obtain ⟨paid, run⟩ | ⟨-, rfl⟩ := require_next.1 run
      · exact ⟨isOpen, by simpa using ended, of_decide_eq_true paid, complete_next.1 run⟩
      · cases ok
    · cases ok
  · cases ok

/-- Settles O54: what the command has checked (`unpackEnd_succeeds`), put into the invariants of an open session. -/
theorem aSuccessfulEndHasDecodedEverything : Obligations.ASuccessfulEndHasDecodedEverything := by
  intro s t inv clear run ok
  obtain ⟨isOpen, ended, paid, rfl⟩ := unpackEnd_succeeds clear run ok
  refine ⟨?_, ?_, inv.walkerDone isOpen paid⟩
  · obtain ⟨-, sum⟩ := inv.owed isOpen
    rw [paid] at sum
    exact (BitVec.zero_add _).symm.trans sum
  · have used := inv.budget isOpen
    cases last : s.uLast with
    | true => simpa [last] using used
    | false =>
      have unfed : s.uFed = 0 := ended.resolve_right (by simp [last])
      simpa [last, unfed] using used

/-! ### The padding bits -/

/-- The outcomes are the same, but for the command word that an error records. -/
def SameButErrCmd (r r' : Result) : Prop :=
  ∀ t, r = .next t → ∃ t', r' = .next t' ∧ { t' with errCmd := t.errCmd } = t

theorem SameButErrCmd.refl (r : Result) : SameButErrCmd r r := fun t h => ⟨t, h, rfl⟩

theorem SameButErrCmd.fail (cmd cmd' : Word) (e : Err) (info : Word) (s : State) :
    SameButErrCmd (fail cmd e info s) (fail cmd' e info s) := by
  intro t h
  obtain rfl := fail_next.1 h
  exact ⟨_, rfl, rfl⟩

theorem SameButErrCmd.unlessPending {r r' : Result} (h : SameButErrCmd r r') (s : State) :
    SameButErrCmd (unlessPending s r) (unlessPending s r') := by
  cases pending : s.err with
  | true => rw [unlessPending_of_err pending, unlessPending_of_err pending]; exact .refl _
  | false => rwa [unlessPending_of_clear pending, unlessPending_of_clear pending]

theorem SameButErrCmd.require {r r' : Result} (h : SameButErrCmd r r') {ok : Bool} {cmd cmd' : Word} {e : Err} {info : Word} {s : State} :
    SameButErrCmd (require ok cmd e info s r) (require ok cmd' e info s r') := by
  cases ok with
  | true => exact h
  | false => exact .fail cmd cmd' e info s

theorem SameButErrCmd.afterWalk {k k' : State → Nat → Result} (h : ∀ t e, SameButErrCmd (k t e) (k' t e)) {cmd cmd' : Word}
    {w : Walk} :
    SameButErrCmd (afterWalk cmd w k) (afterWalk cmd' w k') := by
  cases w with
  | ok t e => exact h t e
  | raised err t => exact .fail cmd cmd' err _ t
  | lost => exact .refl _

/-- Bits below U_PAD are no budget bits (44_bit_unpacker.md R98, R100). -/
theorem budgetBits_congr {pad : BitVec 3} {v v' : Byte} (h : ∀ i, pad.toNat ≤ i → i < 8 → v.getLsbD i = v'.getLsbD i) :
    budgetBits pad v = budgetBits pad v' := by
  refine List.ext_getElem? fun i => ?_
  simp only [budgetBits, List.getElem?_take, byteBits_getElem?]
  split
  · rw [h (7 - i) (by omega) (by omega)]
  · rfl

/-- Settles O53: the two commands walk the same bits (`budgetBits_congr`), and nothing else of the byte is looked at but for ERRCMD. -/
theorem paddingBitsAreIgnored : Obligations.PaddingBitsAreIgnored := by
  intro v v' s t agree run
  have same : SameButErrCmd (execUnpackLast v s) (execUnpackLast v' s) := by
    rw [execUnpackLast, execUnpackLast, budgetBits_congr agree]
    exact .unlessPending (.require (.afterWalk fun t e => .require (.refl _))) s
  exact same t run

/-! ### The walk of a byte's bits -/

/-- Bits that decode, with a symbol owed before each, complete no more symbols than are owed (44_bit_unpacker.md R96). -/
theorem walks_of_owes {s : State} {bits : List Bool} {syms : List Byte} {u : NodeIdx}
    (h : s.decodeBits s.uNode bits = some (syms, u)) (ho : s.Owes bits) : s.Walks bits syms u := by
  have walk := feedBits_of_decode h ho 0
  obtain ⟨ys, v, -, -, hd, -, enough⟩ | ⟨_, _, _, _, h', -⟩ | ⟨h', -⟩ := feedBits_spec bits s 0
  · obtain ⟨rfl, rfl⟩ := Prod.mk.inj (Option.some.inj (hd.symm.trans h))
    exact ⟨h, ho, enough⟩
  · cases walk.symm.trans h'
  · cases walk.symm.trans h'

/-- Each bit completes at most one symbol (R96). -/
theorem decodeBits_length_le {s : State} (bits : List Bool) : ∀ {u v : NodeIdx} {syms : List Byte},
    s.decodeBits u bits = some (syms, v) → syms.length ≤ bits.length := by
  induction bits with
  | nil =>
    intro u v syms h
    obtain ⟨rfl, -⟩ := Prod.mk.inj (Option.some.inj h)
    exact le_rfl
  | cons b bits ih =>
    intro u v syms h
    obtain ⟨xs, w, ys, h1, h2, rfl⟩ := decodeBits_take h 1
    have one : xs.length ≤ 1 := by
      obtain ⟨n, -, ⟨-, rfl, -⟩ | ⟨-, c, m, -, -, ⟨-, rfl, -⟩ | ⟨-, rfl, -⟩⟩⟩ := decodeBits_one_cases h1 <;> simp
    have rest := ih h2
    rw [List.length_append, List.length_cons]
    omega

/-- As many symbols owed as there are bits are enough for any bits (R97). -/
theorem owes_of_length_le {s : State} {bits : List Bool} (h : bits.length ≤ s.uRem.toNat) : s.Owes bits := by
  intro k hk syms u hd
  have := decodeBits_length_le _ hd
  rw [List.length_take] at this
  omega

/-! ### A tree of one leaf -/

/-- ROOT of a current tree, from its number of leaves (41_tree_builder.md R80). -/
theorem root_eq_rootOfLeaves {s : State} (tree : s.TreeCurrent) : s.root = rootOfLeaves (leafTotal s) := by
  obtain ⟨-, -, root, -⟩ := tree
  rw [root, rootOf_buildArena]

/-- On a single leaf the walker stands at ROOT (10_state.md R36.8). -/
theorem State.Standing.atRoot_of_single {s : State} {u : NodeIdx} (hu : s.Standing u) (tree : s.TreeCurrent)
    (one : leafTotal s = 1) : u = s.root := by
  rcases hu with h | ⟨below, -⟩
  · exact h
  · rw [root_eq_rootOfLeaves tree, one] at below
    exact absurd below BitVec.not_lt_zero

/-- ROOT of a single leaf is the leaf (R87). -/
theorem root_leaf_of_single {s : State} (tree : s.TreeCurrent) (one : leafTotal s = 1) :
    ∃ n, s.nodeAt? s.root = some n ∧ n.leaf = true := by
  obtain ⟨_, -, ⟨n, hn, hl, -⟩, -⟩ := codeTable_single tree ((length_leafArena s).trans one)
  exact ⟨n, hn, hl⟩

/-- Each 0 at a leaf completes the leaf's symbol (44_bit_unpacker.md R96). -/
theorem decodeBits_zeros {s : State} {u : NodeIdx} {n : Node} (hn : s.nodeAt? u = some n) (hl : n.leaf = true) (k : Nat) :
    s.decodeBits u (List.replicate k false) = some (List.replicate k n.sym, u) := by
  induction k with
  | zero => rfl
  | succ k ih => simp [List.replicate_succ, State.decodeBits, hn, hl, ih]

/-- A tree of one leaf is told by SINGLE (10_state.md R19). -/
theorem singleFlag_of_leafTotal {s : State} (inv : s.Inv) (valid : s.treeValid = true) (one : leafTotal s = 1) : s.single = true := by
  obtain ⟨-, -, -, count⟩ := inv.treeCurrent valid
  rw [inv.singleFlag, valid, count, length_leafArena, one]
  rfl

/-! ### A tree of two or more leaves -/

/-- Where the walker may stand in a tree of two or more leaves is an internal node (10_state.md R36.8). -/
theorem State.Standing.inner {s : State} {u : NodeIdx} (hu : s.Standing u) (tree : s.TreeCurrent) (two : 2 ≤ leafTotal s) :
    ∃ n, s.nodeAt? u = some n ∧ n.leaf = false := by
  rcases hu with rfl | ⟨-, inner⟩
  · obtain ⟨t, -, rep, -, -, leaves⟩ := treeSpec tree (leafArena_ne_nil_of_pos (by omega))
    obtain ⟨n, hn, hl⟩ := rep.leaf_iff
    refine ⟨n, hn, Bool.eq_false_iff.2 fun leaf => ?_⟩
    obtain ⟨sym, rfl⟩ := hl.1 leaf
    rw [length_leafArena] at leaves
    simp [HTree.syms] at leaves
    omega
  · exact Option.map_eq_some_iff.1 inner

/-- Any bits lead through a tree of two or more leaves (44_bit_unpacker.md R96). -/
theorem decodeBits_isSome {s : State} (tree : s.TreeCurrent) (two : 2 ≤ leafTotal s) (bits : List Bool) :
    ∀ {u : NodeIdx}, s.Standing u → ∃ syms v, s.decodeBits u bits = some (syms, v) := by
  have one {u : NodeIdx} (hu : s.Standing u) (b : Bool) : ∃ syms v, s.decodeBits u [b] = some (syms, v) := by
    obtain ⟨n, hn, inner⟩ := hu.inner tree two
    obtain ⟨-, left, right⟩ := TreeCurrent.child_lt tree (leafArena_ne_nil_of_pos (by omega)) hu.le_root hn inner
    have below : (if b then n.right else n.left).toNat < u.toNat := by
      cases b
      · exact left
      · exact right
    obtain ⟨m, hm⟩ := nodeAt?_isSome (s := s) (below.trans (toNat_lt_of_nodeAt? hn))
    simp only [State.decodeBits, hn, inner, hm]
    cases m.leaf <;> simp
  induction bits with
  | nil => exact fun _ => ⟨[], _, rfl⟩
  | cons b bits ih =>
    intro u hu
    obtain ⟨xs, w, first⟩ := one hu b
    obtain ⟨ys, v, rest⟩ := ih (decodeBits_standing tree [b] hu first)
    exact ⟨xs ++ ys, v, by rw [decodeBits_cons first, rest]; rfl⟩

/-- Settles O47: a byte's bits are 0s at the one leaf (`decodeBits_zeros`), or any on a larger tree (`decodeBits_isSome`). -/
theorem unpackFeedCompletesWhileSymbolsAreOwed : Obligations.UnpackFeedCompletesWhileSymbolsAreOwed := by
  intro v s clear isOpen notLast
  refine ⟨fun syms u decoded owes => exec_unpackFeed clear isOpen notLast (walks_of_owes decoded owes), fun inv owed fits => ?_⟩
  obtain ⟨valid, tree, placed, leaves⟩ := inv.walkReady isOpen
  have pos : 0 < leafTotal s := length_leafArena s ▸ List.length_pos_iff.2 (leaves owed)
  have enough : 8 ≤ s.uRem.toNat → s.Owes (byteBits v) := fun h => owes_of_length_le h
  rcases Nat.eq_or_lt_of_le pos with one | two
  · obtain ⟨n, hn, hl⟩ := root_leaf_of_single tree one.symm
    obtain rfl : v = 0 := fits.resolve_left (by simp [singleFlag_of_leafTotal inv valid one.symm])
    have decoded := decodeBits_zeros hn hl 8
    rw [← State.Standing.atRoot_of_single placed tree one.symm] at decoded
    exact ⟨_, _, decoded, by simp, by simp, enough⟩
  · obtain ⟨syms, u, decoded⟩ := decodeBits_isSome tree two (byteBits v) placed
    refine ⟨syms, u, decoded, decodeBits_length_le _ decoded, fun single => ?_, enough⟩
    have := leafTotal_of_singleFlag inv tree single
    omega

/-! ### The errors of a byte's bits -/

/-- A bit of an UNPACK_FEED or UNPACK_LAST that raises ends the command there (60_exceptions.md R111). -/
theorem exec_of_feedBits_raised {v : Byte} {i : Instr} {s t : State} {e : Err} (feeds : i = .unpackFeed v ∨ i = .unpackLast v)
    (clear : s.err = false) (isOpen : s.unpackOpen = true) (notLast : s.uLast = false)
    (raised : feedBits (budgetOf s i) s 0 = .raised e t) : exec i s = .next (t.raise (encode i) e t.uUsed) := by
  rcases feeds with rfl | rfl
  all_goals
    refine (guarded_of_ok clear (by simp [isOpen, notLast]) _ _).trans ?_
    exact congrArg (afterWalk _ · _) raised

/-- Settles O50: the walk ends at the bit (`feedBits_trail`, `feedBits_badbit`), and the error raised there closes the session
(`raise_of_decode`). -/
theorem badBitsRaiseDecodeErrors : Obligations.BadBitsRaiseDecodeErrors := by
  intro v i s k syms u feeds clear isOpen notLast hk decoded owes
  have ends {e : Err} (decode : e.isDecode = true) (raised : feedBits (budgetOf s i) s 0 = .raised e (s.walked k syms u)) :
      exec i s = .next { errorState (s.walked k syms u) (encode i) e.code (s.uUsed + BitVec.ofNat 32 k) with
        unpackOpen := false } := by
    rw [exec_of_feedBits_raised feeds clear isOpen notLast raised, raise_of_decode decode]
    rfl
  refine ⟨fun all => ends rfl (feedBits_trail hk decoded owes all 0), fun inv single owed one => ?_⟩
  obtain ⟨-, tree, placed, -⟩ := inv.walkReady isOpen
  have leaves := leafTotal_of_singleFlag inv tree single
  obtain ⟨n, hn, hl⟩ := root_leaf_of_single tree leaves
  have atRoot : u = s.root := (decodeBits_standing tree _ placed decoded).atRoot_of_single tree leaves
  exact ends rfl (feedBits_badbit decoded one owed (by simp [atRoot, hn, hl]) 0)

/-! ### The last byte -/

/-- After the symbols owed nothing is owed (44_bit_unpacker.md R96). -/
theorem walked_uRem_eq_zero {s : State} {syms : List Byte} (all : syms.length = s.uRem.toNat) (used : Nat) (u : NodeIdx) :
    (s.walked used syms u).uRem = 0 := by
  show s.uRem - BitVec.ofNat 24 syms.length = 0
  rw [all]
  simp

/-- After fewer symbols something is. -/
theorem walked_uRem_ne_zero {s : State} {syms : List Byte} (fewer : syms.length < s.uRem.toNat) (used : Nat) (u : NodeIdx) :
    (s.walked used syms u).uRem ≠ 0 := by
  intro zero
  have rem : (s.uRem - BitVec.ofNat 24 syms.length).toNat = 0 := congrArg BitVec.toNat zero
  have := s.uRem.isLt
  rw [BitVec.toNat_sub, BitVec.toNat_ofNat] at rem
  omega

section
variable {v : Byte} {s : State} {syms : List Byte} {u : NodeIdx} (clear : s.err = false) (isOpen : s.unpackOpen = true)
  (notLast : s.uLast = false)
include clear isOpen notLast

/-- `exec_unpackLast`, U_REM written as what it has become. -/
theorem exec_unpackLast_all (walk : s.Walks (budgetOf s (.unpackLast v)) syms u) (all : syms.length = s.uRem.toNat) :
    exec (.unpackLast v) s = .next { s.walked (8 - s.uPad.toNat) syms u with
      uRem := 0, uFed := s.uFed + 1, uLast := true, resp := BitVec.ofNat 32 syms.length } := by
  rw [exec_unpackLast clear isOpen notLast walk all, ← walked_uRem_eq_zero all (8 - s.uPad.toNat) u]
  rfl

/-- UNPACK_LAST with symbols still owed at its end (44_bit_unpacker.md R98; 60_exceptions.md R111, R115). -/
theorem exec_unpackLast_fewer (decoded : s.decodeBits s.uNode (budgetOf s (.unpackLast v)) = some (syms, u))
    (fewer : syms.length < s.uRem.toNat) :
    exec (.unpackLast v) s = .next
      { errorState (s.walked (8 - s.uPad.toNat) syms u) (encode (.unpackLast v)) 6
          (s.uUsed + BitVec.ofNat 32 (8 - s.uPad.toNat)) with
        uFed := s.uFed + 1, uLast := true, unpackOpen := false } := by
  have walk := feedBits_of_decode decoded (owes_of_length decoded fewer) 0
  refine (guarded_of_ok clear (by simp [isOpen, notLast]) _ _).trans ?_
  rw [show budgetBits s.uPad v = budgetOf s (.unpackLast v) from rfl, walk, budgetOf_last_length]
  refine (require_of_false (decide_eq_false (walked_uRem_ne_zero fewer _ u)) ..).trans ?_
  rw [raise_of_decode rfl]
  rfl

end

/-- A symbol with a code has a count, so symbols' codes decode to the symbols (`decodeBits_codes`). -/
theorem decodeBits_of_coded {s : State} (inv : s.Inv) (valid : s.codesValid = true) {syms : List Byte}
    (coded : ∀ sym ∈ syms, (s.codeAt sym).len ≠ 0) : s.decodeBits s.root (syms.flatMap (codeOf s)) = some (syms, s.root) := by
  obtain ⟨tree, codes⟩ := inv.codesOfTree valid
  exact decodeBits_codes tree codes syms fun sym h => mt (codeAt_len_eq_zero tree codes sym).2 (coded sym h)

/-- Settles O48: the codes of the symbols owed decode to them (`decodeBits_of_coded`) and end at ROOT, so none of their bits comes after
the last symbol (`walks_of_decodeBits_root`). -/
theorem unpackLastCompletesAtTheLastSymbol : Obligations.UnpackLastCompletesAtTheLastSymbol := by
  intro v s clear isOpen notLast
  refine ⟨fun syms u decoded owes all => exec_unpackLast_all clear isOpen notLast ⟨decoded, owes, all.le⟩ all,
    fun syms inv valid atRoot all coded bits => ?_, fun syms u => exec_unpackLast_fewer clear isOpen notLast⟩
  have decoded : s.decodeBits s.uNode (budgetOf s (.unpackLast v)) = some (syms, s.root) := by
    rw [atRoot, bits, decodeBits_of_coded inv valid coded]
  obtain ⟨-, tree, placed, -⟩ := inv.walkReady isOpen
  exact exec_unpackLast_all clear isOpen notLast (walks_of_decodeBits_root tree placed decoded all.symm) all.symm

/-! ### Packing and unpacking -/

/-- Packing leaves the tree as it is. -/
theorem decodeBits_sessionPacked (s : State) (bytes : List Byte) (bits syms : Word) (pad : BitVec 3) (resp : Word) (u : NodeIdx)
    (data : List Bool) : (s.sessionPacked bytes bits syms pad resp).decodeBits u data = s.decodeBits u data :=
  decodeBits_congr (s := s) (t := s.sessionPacked bytes bits syms pad resp) rfl rfl data u

/-- Settles O55: the packed bits are the symbols' codes, padded (`execAll_packSession`), which lead from ROOT to ROOT and complete exactly
the symbols (`decodeBits_of_coded`); an unpack session of such bits gives the symbols back (`execAll_unpackSession`). -/
theorem unpackingInvertsPacking : Obligations.UnpackingInvertsPacking := by
  intro s syms inv clear valid idle coded all
  obtain ⟨bytes, bits, pad, resp, pack, data⟩ := execAll_packSession clear valid (sessionOpen_eq_false idle) coded
  obtain ⟨-, noUnpack⟩ := sessions_closed (sessionOpen_eq_false idle)
  obtain ⟨tree, -⟩ := inv.codesOfTree valid
  have decoded := decodeBits_of_coded inv valid coded
  obtain ⟨u, unpack, ok, emitted⟩ := execAll_unpackSession (s := s.sessionPacked bytes bits (BitVec.ofNat 32 syms.length) pad resp)
    clear (inv.codesHaveTree valid) noUnpack tree data ((decodeBits_sessionPacked ..).trans decoded) all
  exact ⟨_, bytes, u, pack, rfl, unpack, ok, emitted⟩

end Sys2Proof.Machine

namespace Sys2Proof.Machine
open Sys2Proof.Claims Sys2Proof.Laws

/-! ## The control commands -/

section RegRd
variable {s : State} {v : Byte}

/-- REG_RD of a number of the map answers with that register, an error pending or not (45_control.md R104). -/
theorem exec_regRd_of_mapped {r : Reg} (mapped : regMap[v.toNat]? = some r) :
    exec (.regRd v) s = .next { s with resp := s.readReg r } := by
  simp only [exec, execRegRd, mapped, complete]

/-- The map ends at 0x13 (10_state.md R32). -/
theorem regMap_eq_none (high : 0x13 < v) : regMap[v.toNat]? = none :=
  List.getElem?_eq_none (BitVec.lt_def.1 high)

/-- REG_RD of any other number has only its E_RANGE, which a pending error drops (60_exceptions.md R112). -/
theorem exec_regRd_of_unmapped (high : 0x13 < v) :
    exec (.regRd v) s = unlessPending s (fail (encode (.regRd v)) .range (zext v) s) := by
  simp only [exec, execRegRd, regMap_eq_none high]

end RegRd

/-- TOTAL zero-extended is the exact sum, which its 24 bits hold (`total_toNat`). -/
theorem zext_total (s : State) : zext s.total = BitVec.ofNat 32 (sumCounts s.freq) := by
  rw [← total_toNat, BitVec.ofNat_toNat]
  rfl

/-- Settles O15: a number above 0x13 is not of the map (`exec_regRd_of_unmapped`), and each one up to 0x13 finds its register there
(`exec_regRd_of_mapped`); only TOTAL is not read as it is stored (`zext_total`). -/
theorem regRdReadsTheRegisterMap : Obligations.RegRdReadsTheRegisterMap := by
  refine ⟨fun _ => rfl, fun s => ⟨fun v high clear => ?_, fun v high pending => ?_, ?_⟩⟩
  · rw [exec_regRd_of_unmapped high, unlessPending_of_clear clear, fail, raise_of_not_decode rfl]
    rfl
  · rw [exec_regRd_of_unmapped high, unlessPending_of_err pending]
  · have read {v : Byte} (r : Reg) (mapped : regMap[v.toNat]? = some r) := exec_regRd_of_mapped (s := s) mapped
    have readTotal := read (v := 0x07) .total rfl
    rw [State.readReg, zext_total] at readTotal
    exact ⟨read .status rfl, read .errcode rfl, read .errcmd rfl, read .errinfo rfl, read .root rfl, read .nodeCnt rfl,
      read .leafCnt rfl, readTotal, read .pacc rfl, read .pBytes rfl, read .pBits rfl, read .pSyms rfl, read .pPad rfl,
      read .uPad rfl, read .uRem rfl, read .uUsed rfl, read .uFed rfl, read .uSyms rfl, read .uNode rfl, read .id rfl⟩

/-- With no error pending there is nothing to return from (10_state.md R36.9). -/
theorem clearErr_of_clear {s : State} (clear : s.err = false) (noCode : s.errCode = 0) : s.clearErr = s := by
  rw [State.clearErr, ← clear, ← noCode]

/-- ERR_CLR answers with ERRCODE as it was (45_control.md R105). -/
theorem exec_errClr (s : State) : exec .errClr s = .next { s.clearErr with resp := zext s.errCode } := rfl

/-- Settles O13: `exec_errClr` in every state, and with no error pending ERRCODE is 0 and nothing is cleared (`clearErr_of_clear`). -/
theorem errClrReturnsFromTheError : Obligations.ErrClrReturnsFromTheError := by
  refine ⟨rfl, exec_errClr, fun s clear noCode => ?_⟩
  have zero : zext s.errCode = 0 := by rw [noCode]; rfl
  rw [exec_errClr, clearErr_of_clear clear noCode, zero]

/-- Settles O14: NOP is `complete 0`, which every state allows. -/
theorem nopWritesOnlyResp : Obligations.NopWritesOnlyResp := ⟨rfl, fun _ => complete_next.2 rfl⟩

/-- Every flag of STATUS is 0 after a reset (10_state.md R35). -/
@[simp] theorem toReset_status (s : State) : s.toReset.status = 0 :=
  (by decide : State.reset.status = 0)

/-- FREQ after a reset is the table FREQ_CLR leaves, so its laws give the counts and TOTAL. -/
@[simp] theorem toReset_freqAt (s : State) (sym : Byte) : s.toReset.freqAt sym = 0 := freqAt_clearFreq s sym

@[simp] theorem toReset_total (s : State) : s.toReset.total = 0 := total_clearFreq s

/-- Settles O17: SRESET is `toReset`, whose laws say each element. -/
theorem sresetRestoresResetValues : Obligations.SresetRestoresResetValues := by
  refine ⟨rfl, fun s => ⟨s.toReset, rfl, ?_⟩⟩
  simp [State.cmdReady]

end Sys2Proof.Machine

namespace Sys2Proof.Machine
open Sys2Proof.Claims Sys2Proof.Laws

/-! ## No good state stops

A command answers if it has a next state. The shared operations answer if what they go on with does; left are the walks of the arena. -/

theorem unlessPending_answers {s : State} {body : Result} (hb : ∃ t, body = .next t) : ∃ t, unlessPending s body = .next t := by
  cases pending : s.err with
  | true => exact ⟨s, unlessPending_of_err pending body⟩
  | false => rwa [unlessPending_of_clear pending]

theorem require_answers {ok : Bool} {cmd : Word} {e : Err} {info : Word} {s : State} {body : Result}
    (hb : ok = true → ∃ t, body = .next t) : ∃ t, require ok cmd e info s body = .next t := by
  cases ok with
  | true => exact hb rfl
  | false => exact ⟨_, rfl⟩

theorem complete_answers (resp : Word) (s : State) : ∃ t, complete resp s = .next t := ⟨_, rfl⟩

/-- A command with a sequencing condition, from what it does when the condition holds. -/
theorem guarded_answers {ok : Bool} {cmd : Word} {s : State} {body : Result} (hb : ok = true → ∃ t, body = .next t) :
    ∃ t, unlessPending s (requireSeq ok cmd s body) = .next t :=
  unlessPending_answers (require_answers hb)

/-- The entries below NODE_CNT are in the arena (10_state.md R24, 60_exceptions.md R108). -/
theorem withNode_answers {cmd : Word} {idx : NodeIdx} {s : State} (current : s.treeValid = true → s.TreeCurrent) {k : Node → Result}
    (hk : ∀ n, ∃ t, k n = .next t) : ∃ t, withNode cmd idx s k = .next t := by
  refine require_answers fun valid => require_answers fun low => ?_
  have inArena : idx.toNat < 511 := by
    have count := nodeCnt_toNat (current valid)
    have := buildArena_length_le s.freq
    have := of_decide_eq_true low
    omega
  obtain ⟨n, hn⟩ := nodeAt?_isSome (s := s) inArena
  rw [hn]
  exact hk n

/-- No walk of budget bits leaves the arena: where a symbol is owed the tree has leaves, a single leaf is met by each bit, and through
a larger tree any bits lead (44_bit_unpacker.md R96, 60_exceptions.md R108). -/
theorem State.WalkReady.not_lost {s : State} (ready : s.WalkReady) (bits : List Bool) (e : Nat) : feedBits bits s e ≠ .lost := by
  obtain ⟨-, tree, placed, leaves⟩ := ready
  intro lost
  obtain ⟨_, _, h, -⟩ | ⟨_, _, _, _, h, -⟩ | ⟨-, k, syms, u, -, led, owed, stuck, inner⟩ := feedBits_spec bits s e
  · cases h.symm.trans lost
  · cases h.symm.trans lost
  · have owing : s.uRem ≠ 0 := by
      intro none
      simp [none] at owed
    have pos : 0 < leafTotal s := length_leafArena s ▸ List.length_pos_iff.2 (leaves owing)
    rcases Nat.eq_or_lt_of_le pos with one | two
    · obtain ⟨n, hn, hl⟩ := root_leaf_of_single tree one.symm
      have atRoot : u = s.root := (decodeBits_standing tree _ placed led).atRoot_of_single tree one.symm
      exact inner (by rw [atRoot, hn, Option.map_some, hl])
    · obtain ⟨_, _, leads⟩ := decodeBits_isSome tree two (bits.take (k + 1)) placed
      cases stuck.symm.trans leads

theorem afterWalk_answers {cmd : Word} {w : Walk} {k : State → Nat → Result} (inside : w ≠ .lost) (hk : ∀ u e, ∃ t, k u e = .next t) :
    ∃ t, afterWalk cmd w k = .next t := by
  cases w with
  | ok u e => exact hk u e
  | raised err u => exact ⟨_, rfl⟩
  | lost => exact absurd rfl inside

/-- In a good state every command answers. -/
theorem exec_answers (i : Instr) {s : State} (inv : s.Inv) : ∃ t, exec i s = .next t := by
  cases i with
  | nop | errClr | sreset => exact ⟨_, rfl⟩
  | freqWr | freqClr | build | codeLen | codeBits | packBegin | packFlush | unpackBegin =>
    exact guarded_answers fun _ => complete_answers _ _
  | freqRd sym => exact unlessPending_answers (complete_answers _ _)
  | nodeWt idx | nodeLnk idx => exact unlessPending_answers (withNode_answers inv.treeCurrent fun n => complete_answers _ _)
  | gencodes =>
    refine guarded_answers fun ok => ?_
    obtain ⟨valid, -⟩ := Bool.and_eq_true_iff.1 ok
    obtain ⟨tbl, table⟩ := codeTable_isSome (inv.treeCurrent valid)
    rw [table]
    exact complete_answers _ _
  | packSym sym => exact guarded_answers fun _ => require_answers fun _ => complete_answers _ _
  | unpackFeed v =>
    refine guarded_answers fun ok => ?_
    obtain ⟨isOpen, -⟩ := Bool.and_eq_true_iff.1 ok
    exact afterWalk_answers ((inv.walkReady isOpen).not_lost _ 0) fun u e => complete_answers _ _
  | unpackLast v =>
    refine guarded_answers fun ok => ?_
    obtain ⟨isOpen, -⟩ := Bool.and_eq_true_iff.1 ok
    exact afterWalk_answers ((inv.walkReady isOpen).not_lost _ 0) fun u e => require_answers fun _ => complete_answers _ _
  | unpackEnd => exact guarded_answers fun _ => require_answers fun _ => require_answers fun _ => complete_answers _ _
  | regRd v =>
    simp only [exec, execRegRd]
    cases regMap[v.toNat]? with
    | some r => exact complete_answers _ _
    | none => exact unlessPending_answers ⟨_, rfl⟩

/-- So does every word: an illegal one raises E_ILLEGAL or is dropped (60_exceptions.md R114). -/
theorem runWord_answers (w : Word) {s : State} (inv : s.Inv) : ∃ t, runWord w s = .next t := by
  cases hd : decode w with
  | ok i => exact runWord_of_decode hd s ▸ exec_answers i inv
  | error d => exact runWord_of_error hd s ▸ unlessPending_answers ⟨_, rfl⟩

/-- Settles O58: of what a step does only running a word could stop it (`runWord_answers`). -/
theorem goodStatesNeverStop : Obligations.GoodStatesNeverStop := by
  intro s inv
  cases he : s.executing with
  | some shown => exact ⟨_, step_executing he⟩
  | none =>
    cases hi : s.inbox with
    | nil => exact ⟨_, step_nothing he hi⟩
    | cons ev rest =>
      cases ev with
      | drain => exact ⟨_, step_drain he hi⟩
      | rst => exact ⟨_, step_rst he hi⟩
      | command w =>
        obtain ⟨u, run⟩ := runWord_answers w (inv.withInbox rest)
        exact ⟨_, (step_command he hi).trans (settled_next.2 ⟨u, run, rfl⟩)⟩

end Sys2Proof.Machine

namespace Sys2Proof.Machine
open Sys2Proof.Claims Sys2Proof.Laws

/-! ## While an error is pending -/

/-- A command that does not run while an error is pending is dropped (60_exceptions.md R112): `unlessPending` stands before all it does. -/
theorem exec_dropped {i : Instr} {s : State} (pending : s.err = true) (drops : ¬ RunsWhilePending i) : exec i s = .next s := by
  cases i with
  | nop | errClr | sreset => exact absurd trivial drops
  | regRd v => rw [exec_regRd_of_unmapped (BitVec.not_le.1 drops), unlessPending_of_err pending]
  | _ => exact unlessPending_of_err pending _

/-- The register map holds every number up to 0x13 (10_state.md R32). -/
theorem regMap_isSome {v : Byte} (low : v ≤ 0x13) : ∃ r, regMap[v.toNat]? = some r :=
  ⟨_, List.getElem?_eq_getElem (Nat.lt_succ_of_le (BitVec.le_def.1 low))⟩

/-- The commands that run while an error is pending answer in every state (R112). -/
theorem exec_answers_while_pending {i : Instr} (runs : RunsWhilePending i) (s : State) : ∃ t, exec i s = .next t := by
  cases i with
  | nop | errClr | sreset => exact ⟨_, rfl⟩
  | regRd v =>
    obtain ⟨r, mapped⟩ := regMap_isSome runs
    exact ⟨_, exec_regRd_of_mapped mapped⟩
  | _ => cases runs

/-- While an error is pending no command emits, so a legal word is done in its step (R112; 20_memory.md R44). -/
theorem step_of_decode_pending {s t : State} {w : Word} {rest : List HostEvent} {i : Instr} (he : s.executing = none)
    (hi : s.inbox = .command w :: rest) (room : fits s.outDepth s.outq.length = true) (pending : s.err = true) (hd : decode w = .ok i)
    (run : exec i { s with inbox := rest } = .next t) : step s = .next { t with executing := none, done := true } := by
  have fitsAfter : fits t.outDepth t.outq.length = true :=
    runWord_pending_fits (s := { s with inbox := rest }) ((runWord_of_decode hd _).trans run) pending room
  rw [step_of_decode he hi hd, run, settled, finish_of_fits fitsAfter]

/-- Settles O9: a word that is no command is dropped by `step_of_illegal`, a command by `exec_dropped`; each of the four that run ends in
its own effect (`step_of_decode_pending`). -/
theorem pendingErrorDropsCommands : Obligations.PendingErrorDropsCommands := by
  intro s w rest he hi room pending
  have ends {i : Instr} {t : State} (hd : decode w = .ok i) (run : exec i { s with inbox := rest } = .next t) :=
    step_of_decode_pending he hi room pending hd run
  refine ⟨fun drops => ?_, fun i hd runs => ?_, fun hd => ?_, fun hd => ?_, fun hd => ends hd rfl, fun v hd low => ?_⟩
  · cases hd : decode w with
    | error d => exact (step_of_illegal he hi room hd).2 pending
    | ok i => rw [ends hd (exec_dropped pending (drops i hd)), ← he]
  · obtain ⟨t, run⟩ := exec_answers_while_pending runs { s with inbox := rest }
    exact ⟨t, run, ends hd run⟩
  · rw [ends hd rfl, ← he]
  · rw [ends hd (exec_errClr _), ← he]
    rfl
  · obtain ⟨r, mapped⟩ := regMap_isSome low
    have read : State.readReg { s with inbox := rest } r = s.readReg r := by cases r <;> rfl
    exact ⟨r, mapped, by rw [ends hd (exec_regRd_of_mapped mapped), read, ← he]⟩

/-- Settles O12: of the ways a command can end with an error pending (`exec_effect`), it is dropped or answers, and only ERR_CLR and
SRESET write the error registers. -/
theorem firstErrorIsKept : Obligations.FirstErrorIsKept := by
  intro i s t pending run notErrClr notSreset
  cases exec_effect run with
  | dropped => exact ⟨pending, rfl, rfl, rfl⟩
  | answered => exact ⟨pending, rfl, rfl, rfl⟩
  | errClr => exact absurd rfl notErrClr
  | sreset => exact absurd rfl notSreset
  | _ => cases pending.symm.trans ‹s.err = false› -- every other way of ending has found no error pending

/-! ## What an error leaves -/

/-- Everything a command that raises an error can leave: one constructor for each kind of check that fails. -/
inductive Failure : Instr → State → State → Prop where
  /-- a `require` check that is no decode error (60_exceptions.md R110); a decoded command is not illegal -/
  | check {i s} (e : Err) (info : Word) (plain : e.isDecode = false) (legal : e ≠ .illegal) :
      Failure i s (errorState s (encode i) e.code info)
  /-- a bit of the byte fed, after `used` bits that had their effects (R111; 44_bit_unpacker.md R96) -/
  | bit {i s} (v : Byte) (feeds : i = .unpackFeed v ∨ i = .unpackLast v) (isOpen : s.unpackOpen = true) (e : Err) (used : Nat)
      (syms : List Byte) (u : NodeIdx) (before : used < (budgetOf s i).length)
      (walk : s.Walks ((budgetOf s i).take used) syms u)
      (cause : (e = .decTrail ∧ syms.length = s.uRem.toNat) ∨
        (e = .decBadbit ∧ syms.length < s.uRem.toNat ∧ (budgetOf s i)[used]? = some true ∧
          (s.nodeAt? u).map Node.leaf = some true)) :
      Failure i s (s.decodeFailed (encode i) e (s.uUsed + BitVec.ofNat 32 used) used syms u s.uFed s.uLast)
  /-- symbols still owed after the last byte (R111; 44_bit_unpacker.md R98) -/
  | lastByte {s} (v : Byte) (isOpen : s.unpackOpen = true) (syms : List Byte) (u : NodeIdx)
      (walk : s.Walks (budgetOf s (.unpackLast v)) syms u) (owing : syms.length < s.uRem.toNat) :
      Failure (.unpackLast v) s
        (s.decodeFailed (encode (.unpackLast v)) .decEos (s.uUsed + BitVec.ofNat 32 (8 - s.uPad.toNat)) (8 - s.uPad.toNat) syms u
          (s.uFed + 1) true)
  /-- symbols still owed at the end of the session (44_bit_unpacker.md R99) -/
  | sessionEnd {s} (isOpen : s.unpackOpen = true) :
      Failure .unpackEnd s { errorState s (encode .unpackEnd) 6 s.uUsed with unpackOpen := false }

/-- Where the outcome of command `i` in state `s` is an error, it is one of `Failure`. -/
def FailsAs (i : Instr) (s : State) (r : Result) : Prop := ∀ t, r = .next t → t.err = true → Failure i s t

section
variable {i : Instr} {s : State}

theorem FailsAs.of_next {u : State} (hu : u.err = true → Failure i s u) : FailsAs i s (.next u) := by
  intro t h raised
  obtain rfl := Host.Outcome.next.inj h
  exact hu raised

theorem FailsAs.of_fault {f : Fault} : FailsAs i s (.fault f) := fun _ h => nomatch h

/-- A command that completes has raised nothing. -/
theorem FailsAs.complete {u : State} {resp : Word} (clear : u.err = false) : FailsAs i s (complete resp u) :=
  .of_next fun raised => absurd (clear.symm.trans raised) nofun

theorem FailsAs.fail {e : Err} {info : Word} (plain : e.isDecode = false) (legal : e ≠ .illegal) :
    FailsAs i s (fail (encode i) e info s) :=
  .of_next fun _ => raise_of_not_decode plain s (encode i) info ▸ .check e info plain legal

theorem FailsAs.require {ok : Bool} {e : Err} {info : Word} {body : Result} (plain : e.isDecode = false) (legal : e ≠ .illegal)
    (hb : ok = true → FailsAs i s body) : FailsAs i s (require ok (encode i) e info s body) := by
  cases ok with
  | true => exact hb rfl
  | false => exact .fail plain legal

theorem FailsAs.requireSeq {ok : Bool} {body : Result} (hb : ok = true → FailsAs i s body) :
    FailsAs i s (requireSeq ok (encode i) s body) :=
  .require rfl nofun hb

theorem FailsAs.unlessPending (clear : s.err = false) {body : Result} (hb : FailsAs i s body) : FailsAs i s (unlessPending s body) := by
  rwa [unlessPending_of_clear clear]

theorem FailsAs.guarded (clear : s.err = false) {ok : Bool} {body : Result} (hb : ok = true → FailsAs i s body) :
    FailsAs i s (Machine.unlessPending s (Machine.requireSeq ok (encode i) s body)) :=
  .unlessPending clear (.requireSeq hb)

theorem FailsAs.withNode {idx : NodeIdx} {k : Node → Result} (hk : ∀ n, FailsAs i s (k n)) :
    FailsAs i s (withNode (encode i) idx s k) := by
  refine .requireSeq fun _ => .require rfl nofun fun _ => ?_
  cases s.nodeAt? idx with
  | none => exact .of_fault
  | some n => exact hk n

/-- The bits of a byte fed: one of them raises, or all have their effect (44_bit_unpacker.md R96 to R98). -/
theorem FailsAs.afterWalk {v : Byte} (feeds : i = .unpackFeed v ∨ i = .unpackLast v) (isOpen : s.unpackOpen = true)
    {k : State → Nat → Result}
    (hk : ∀ syms u, s.Walks (budgetOf s i) syms u → FailsAs i s (k (s.walked (budgetOf s i).length syms u) syms.length)) :
    FailsAs i s (afterWalk (encode i) (feedBits (budgetOf s i) s 0) k) := by
  obtain ⟨syms, u, walk, -, decoded, owes, enough⟩ | ⟨e, used, syms, u, walk, before, decoded, owes, cause⟩ | ⟨walk, -⟩ :=
    feedBits_spec (budgetOf s i) s 0
  · rw [walk, Nat.zero_add]
    exact hk syms u ⟨decoded, owes, enough⟩
  · have decode : e.isDecode = true := by rcases cause with ⟨rfl, -⟩ | ⟨rfl, -⟩ <;> rfl
    rw [walk]
    refine .of_next fun _ => ?_
    rw [raise_of_decode decode]
    exact .bit v feeds isOpen e used syms u before (walks_of_owes decoded owes) cause
  · rw [walk]
    exact .of_fault

end

/-- A walk after which something is owed has completed fewer symbols than were owed before it (R96). -/
theorem State.Walks.owing {s : State} {bits : List Bool} {syms : List Byte} {u : NodeIdx} (walk : s.Walks bits syms u) {used : Nat}
    (more : (s.walked used syms u).uRem ≠ 0) : syms.length < s.uRem.toNat :=
  walk.enough.lt_of_ne fun all => more (walked_uRem_eq_zero all used u)

/-- After the bits of the last byte UNPACK_LAST checks that nothing is owed (44_bit_unpacker.md R98). -/
theorem execUnpackLast_failsAs {s : State} (clear : s.err = false) (v : Byte) : FailsAs (.unpackLast v) s (execUnpackLast v s) := by
  refine .guarded clear fun ok => ?_
  obtain ⟨isOpen, -⟩ := Bool.and_eq_true_iff.1 ok
  refine .afterWalk (i := .unpackLast v) (.inr rfl) isOpen fun syms u walk => ?_
  rw [budgetOf_last_length]
  by_cases paid : (s.walked (8 - s.uPad.toNat) syms u).uRem = 0
  · rw [require_of_true (decide_eq_true paid)]
    exact .complete clear
  · rw [require_of_false (decide_eq_false paid), raise_of_decode rfl]
    exact .of_next fun _ => .lastByte v isOpen syms u walk (walk.owing paid)

/-- Whatever error a command raises, it is one of `Failure`. -/
theorem exec_failsAs (i : Instr) {s : State} (clear : s.err = false) : FailsAs i s (exec i s) := by
  cases i with
  | nop => exact .complete clear
  | freqWr | freqClr | build | codeLen | codeBits | packBegin | unpackBegin =>
    exact .guarded clear fun _ => .complete clear
  | freqRd sym => exact .unlessPending clear (.complete clear)
  | nodeWt idx => exact .unlessPending clear (.withNode (i := .nodeWt idx) fun _ => .complete clear)
  | nodeLnk idx => exact .unlessPending clear (.withNode (i := .nodeLnk idx) fun _ => .complete clear)
  | gencodes =>
    refine .guarded clear fun _ => ?_
    cases codeTable s.node s.root with
    | none => exact .of_fault
    | some tbl => exact .complete clear
  | packSym sym =>
    obtain ⟨acc, nacc, bytes, bits⟩ := packBits_packed (s.codeAt sym).path s
    refine .guarded clear fun _ => .require rfl nofun fun _ => ?_
    rw [bits s rfl rfl]
    exact .complete clear
  | packFlush =>
    have flushed : (flushAcc s).err = false := by rw [flushAcc]; split <;> exact clear
    exact .guarded clear fun _ => .complete flushed
  | unpackFeed v =>
    refine .guarded clear fun ok => ?_
    obtain ⟨isOpen, -⟩ := Bool.and_eq_true_iff.1 ok
    exact .afterWalk (i := .unpackFeed v) (.inl rfl) isOpen fun _ _ _ => .complete clear
  | unpackLast v => exact execUnpackLast_failsAs clear v
  | unpackEnd =>
    refine .guarded clear fun isOpen => .requireSeq fun _ => ?_
    cases decide (s.uRem = 0) with
    | true => exact .complete clear
    | false =>
      rw [require_of_false rfl, raise_of_decode rfl]
      exact .of_next fun _ => .sessionEnd isOpen
  | regRd v =>
    simp only [exec, execRegRd]
    cases regMap[v.toNat]? with
    | some r => exact .complete clear
    | none => exact .unlessPending clear (.fail (i := .regRd v) rfl nofun)
  | errClr => exact .complete rfl
  | sreset => exact .of_next nofun

/-- The codes of the checks that are no decode errors (60_exceptions.md R109). -/
theorem code_of_check {e : Err} : e.isDecode = false → e ≠ .illegal → 2 ≤ e.code ∧ e.code ≤ 4 := by
  cases e <;> decide

/-- Settles O11, failure by failure (`exec_failsAs`). -/
theorem errorsAreRecordedPrecisely : Obligations.ErrorsAreRecordedPrecisely := by
  intro i s t clear run raised
  have eos : 5 ≤ Err.decEos.code := by decide
  cases exec_failsAs i clear t run raised with
  | check e info plain legal =>
    obtain ⟨low, high⟩ := code_of_check plain legal
    exact ⟨rfl, rfl, .inl ⟨low, high, rfl⟩⟩
  | bit v feeds isOpen e used syms u before walk cause =>
    have decode : 5 ≤ e.code := by rcases cause with ⟨rfl, -⟩ | ⟨rfl, -⟩ <;> decide
    exact ⟨rfl, rfl, .inr ⟨decode, (code_range e).2, rfl, isOpen, v, feeds.imp_right .inl⟩⟩
  | lastByte v isOpen => exact ⟨rfl, rfl, .inr ⟨eos, (code_range .decEos).2, rfl, isOpen, v, .inr (.inl rfl)⟩⟩
  | sessionEnd isOpen => exact ⟨rfl, rfl, .inr ⟨eos, (code_range .decEos).2, rfl, isOpen, 0, .inr (.inr ⟨rfl, rfl⟩)⟩⟩

/-- Settles O51: of the failures (`exec_failsAs`) a decode error of a byte is one at a bit, or E_DEC_EOS after all of them. -/
theorem decodeErrorsKeepTheirEffects : Obligations.DecodeErrorsKeepTheirEffects := by
  intro v i s t feeds clear run raised code
  cases exec_failsAs i clear t run raised with
  | check e info plain legal =>
    obtain ⟨-, high⟩ := code_of_check plain legal
    exact absurd (BitVec.le_trans code high) (by decide : ¬ (5 : Byte) ≤ 4)
  | bit v' feeds' isOpen e used syms u before walk cause =>
    refine ⟨syms, used, before.le, walk.decoded, walk.owes, ?_⟩
    rcases cause with ⟨rfl, all⟩ | ⟨rfl, fewer, one, leaf⟩
    · exact ⟨rfl, .inr (.inl ⟨rfl, before, all⟩)⟩
    · exact ⟨rfl, .inr (.inr ⟨rfl, one, fewer, leaf⟩)⟩
  | lastByte v' isOpen syms u walk owing =>
    obtain rfl : v' = v := by simpa using feeds
    have whole : (budgetOf s (.unpackLast v')).take (8 - s.uPad.toNat) = budgetOf s (.unpackLast v') :=
      List.take_of_length_le (budgetOf_last_length s v').le
    refine ⟨syms, 8 - s.uPad.toNat, (budgetOf_last_length s v').ge, ?_, ?_, rfl, .inl ⟨rfl, rfl, rfl, owing⟩⟩
    · rw [whole]
      exact walk.decoded
    · rw [whole]
      exact walk.owes
  | sessionEnd => rcases feeds with h | h <;> cases h

end Sys2Proof.Machine

namespace Sys2Proof.Machine
open Sys2Proof.Claims Sys2Proof.Laws

/-! ## The sequencing table -/

/-- No E_SEQ comes out: the outcome, where it is an error, has another code (60_exceptions.md R109). -/
def RaisesNoSeq (r : Result) : Prop := ∀ t, r = .next t → t.err = true → t.errCode ≠ 2

theorem RaisesNoSeq.of_next {t : State} (clear : t.err = false) : RaisesNoSeq (.next t) := by
  intro u run raised
  obtain rfl := Host.Outcome.next.inj run
  cases clear.symm.trans raised

theorem RaisesNoSeq.of_complete {s : State} {resp : Word} (clear : s.err = false) : RaisesNoSeq (complete resp s) :=
  .of_next clear

theorem RaisesNoSeq.of_fault {f : Fault} : RaisesNoSeq (.fault f) := fun _ run => nomatch run

theorem code_ne_two {e : Err} : e ≠ .seq → e.code ≠ 2 := by cases e <;> decide

theorem RaisesNoSeq.of_fail {cmd info : Word} {e : Err} {s : State} (other : e ≠ .seq) : RaisesNoSeq (fail cmd e info s) := by
  intro t run _
  rw [fail_next.1 run]
  exact code_ne_two other

theorem RaisesNoSeq.of_require {ok : Bool} {cmd info : Word} {e : Err} {s : State} {body : Result} (other : e ≠ .seq)
    (hb : RaisesNoSeq body) : RaisesNoSeq (require ok cmd e info s body) := by
  cases ok with
  | true => exact hb
  | false => exact .of_fail other

theorem RaisesNoSeq.of_unlessPending {s : State} {body : Result} (clear : s.err = false) (hb : RaisesNoSeq body) :
    RaisesNoSeq (unlessPending s body) := by
  rwa [unlessPending_of_clear clear]

/-- A walk of budget bits raises decode errors only, and itself leaves no error pending (44_bit_unpacker.md R96). -/
theorem RaisesNoSeq.of_afterWalk {cmd : Word} {bits : List Bool} {s : State} {k : State → Nat → Result} (clear : s.err = false)
    (hk : ∀ t e, t.err = false → RaisesNoSeq (k t e)) : RaisesNoSeq (afterWalk cmd (feedBits bits s 0) k) := by
  obtain ⟨syms, u, walk, -⟩ | ⟨e, used, syms, u, walk, -, -, -, cause⟩ | ⟨walk, -⟩ := feedBits_spec bits s 0 <;> rw [walk]
  · exact hk _ _ clear
  · refine .of_fail ?_
    rcases cause with ⟨rfl, -⟩ | ⟨rfl, -⟩ <;> decide
  · exact .of_fault

/-- The row of command `i` in the sequencing table, for the outcome `r` of `i` in `s`: E_SEQ with STATUS where the condition is false,
no E_SEQ where it is true (70_reset_and_hazards.md R127). -/
def ObeysSequencing (i : Instr) (s : State) (r : Result) : Prop :=
  (¬ SequenceAllows s i → r = .next (errorState s (encode i) 2 s.status)) ∧ (SequenceAllows s i → RaisesNoSeq r)

section
variable {i : Instr} {s : State}

/-- A command without a condition. -/
theorem ObeysSequencing.of_always {r : Result} (always : SequenceAllows s i) (hr : RaisesNoSeq r) : ObeysSequencing i s r :=
  ⟨fun broken => absurd always broken, fun _ => hr⟩

/-- A command whose sequencing check is the condition of the table. -/
theorem ObeysSequencing.of_guarded (clear : s.err = false) {ok : Bool} (condition : ok = true ↔ SequenceAllows s i) {body : Result}
    (hb : RaisesNoSeq body) : ObeysSequencing i s (unlessPending s (requireSeq ok (encode i) s body)) := by
  refine ⟨fun broken => ?_, fun allowed => ?_⟩
  · exact guarded_of_not_ok clear (Bool.eq_false_iff.2 (mt condition.1 broken)) _ _
  · rwa [guarded_of_ok clear (condition.2 allowed)]

/-- A command that names a node (41_tree_builder.md R83, R84). -/
theorem ObeysSequencing.of_withNode (clear : s.err = false) {idx : NodeIdx} (condition : s.treeValid = true ↔ SequenceAllows s i)
    {f : Node → Word} : ObeysSequencing i s (unlessPending s (withNode (encode i) idx s fun n => complete (f n) s)) := by
  refine .of_guarded clear condition (.of_require nofun ?_)
  cases s.nodeAt? idx with
  | none => exact .of_fault
  | some n => exact .of_complete clear

end

theorem sessionOpen_eq_false_iff (s : State) : s.sessionOpen = false ↔ ¬ InSession s :=
  ⟨fun closed session => absurd (closed.symm.trans (sessionOpen_eq_true session)) nofun, sessionOpen_eq_false⟩

/-- Two sequencing checks in a row are the check of both conditions. -/
theorem requireSeq_requireSeq (a b : Bool) (cmd : Word) (s : State) (body : Result) :
    requireSeq a cmd s (requireSeq b cmd s body) = requireSeq (a && b) cmd s body := by
  cases a <;> rfl

theorem flushAcc_err (s : State) : (flushAcc s).err = s.err := by
  rw [flushAcc]
  split <;> rfl

theorem packBits_err (bits : List Bool) (s : State) : (packBits bits s).err = s.err := by
  obtain ⟨acc, nacc, bytes, packs⟩ := packBits_packed bits s
  rw [packs s rfl rfl]
  rfl

/-- Every command obeys its row of the sequencing table. -/
theorem exec_obeysSequencing (i : Instr) {s : State} (clear : s.err = false) : ObeysSequencing i s (exec i s) := by
  cases i with
  | nop => exact .of_always trivial (.of_complete clear)
  | errClr => exact .of_always trivial (.of_complete rfl)
  | sreset => exact .of_always trivial (.of_next rfl)
  | freqRd sym => exact .of_always trivial (.of_unlessPending clear (.of_complete clear))
  | freqWr | freqClr | build =>
    exact .of_guarded clear (by simp [SequenceAllows, sessionOpen_eq_false_iff]) (.of_complete clear)
  | nodeWt | nodeLnk => exact .of_withNode clear Iff.rfl
  | gencodes =>
    refine .of_guarded clear (by simp [SequenceAllows, sessionOpen_eq_false_iff]) ?_
    cases codeTable s.node s.root with
    | none => exact .of_fault
    | some tbl => exact .of_complete clear
  | codeLen | codeBits => exact .of_guarded clear Iff.rfl (.of_complete clear)
  | packBegin | unpackBegin =>
    exact .of_guarded clear (by simp [SequenceAllows, sessionOpen_eq_false_iff]) (.of_complete clear)
  | packSym sym =>
    exact .of_guarded clear Iff.rfl (.of_require nofun (.of_complete ((packBits_err _ s).trans clear)))
  | packFlush => exact .of_guarded clear Iff.rfl (.of_complete ((flushAcc_err s).trans clear))
  | unpackFeed v =>
    exact .of_guarded clear (by simp [SequenceAllows]) (.of_afterWalk clear fun _ _ walked => .of_complete walked)
  | unpackLast v =>
    exact .of_guarded clear (by simp [SequenceAllows])
      (.of_afterWalk clear fun _ _ walked => .of_require nofun (.of_complete walked))
  | unpackEnd =>
    rw [show exec .unpackEnd s = execUnpackEnd s from rfl, execUnpackEnd, requireSeq_requireSeq]
    exact .of_guarded clear (by simp [SequenceAllows]) (.of_require nofun (.of_complete clear))
  | regRd v =>
    refine .of_always trivial ?_
    simp only [exec, execRegRd]
    cases regMap[v.toNat]? with
    | some r => exact .of_complete clear
    | none => exact .of_unlessPending clear (.of_fail nofun)

/-- Settles O10, row by row of the table (`exec_obeysSequencing`). -/
theorem sequencingTableIsEnforced : Obligations.SequencingTableIsEnforced := fun i _ clear => exec_obeysSequencing i clear

end Sys2Proof.Machine

namespace Sys2Proof.Machine
open Sys2Proof.Claims Sys2Proof.Laws

/-! ## After a reset -/

/-- Settles O18: with no error pending and no session open the eight complete, and the sequencing table (`exec_obeysSequencing`) allows
none of the others, since after a reset no flag of STATUS is set. -/
theorem afterResetOnlyEightCommandsSucceed : Obligations.AfterResetOnlyEightCommandsSucceed := by
  intro s
  have clear : s.toReset.err = false := rfl
  have idle : s.toReset.sessionOpen = false := rfl
  refine ⟨fun i ok => ?_, fun i notFreqWr notFreqRd notRegRd notOther => ?_⟩
  · rcases ok with ⟨sym, cnt, rfl⟩ | ⟨sym, rfl⟩ | ⟨v, rfl, low⟩ | other
    · exact ⟨_, exec_freqWr clear idle sym cnt, rfl⟩
    · exact ⟨_, unlessPending_of_clear clear _, rfl⟩
    · obtain ⟨r, mapped⟩ := regMap_isSome low
      exact ⟨_, exec_regRd_of_mapped mapped, rfl⟩
    · simp only [List.mem_cons, List.not_mem_nil, or_false] at other
      rcases other with rfl | rfl | rfl | rfl | rfl
      · exact ⟨_, rfl, rfl⟩
      · exact ⟨_, exec_freqClr clear idle, rfl⟩
      · exact ⟨_, exec_build clear idle, rfl⟩
      · exact ⟨_, exec_errClr _, rfl⟩
      · exact ⟨_, rfl, rfl⟩
  · rw [← toReset_status s]
    refine (exec_obeysSequencing i clear).1 ?_
    cases i with
    | freqWr sym cnt => exact absurd rfl (notFreqWr sym cnt)
    | freqRd sym => exact absurd rfl (notFreqRd sym)
    | regRd v => exact absurd rfl (notRegRd v)
    | nop | freqClr | build | errClr | sreset => simp at notOther
    | _ => simp [SequenceAllows]

end Sys2Proof.Machine

namespace Sys2Proof.Machine
open Sys2Proof.Claims Sys2Proof.Laws

/-! ## What the ports tell -/

/-- What the ports show as a step begins (70_reset_and_hazards.md R133). -/
def State.shown (s : State) : Shown := ⟨s.respData, s.errO⟩

theorem shown_of_executing {s : State} {shown : Shown} (he : s.executing = some shown) : s.shown = shown := by
  simp [State.shown, State.respData, State.errO, he]

theorem shown_of_idle {s : State} (he : s.executing = none) : s.shown = ⟨s.resp, s.err⟩ := by
  simp [State.shown, State.respData, State.errO, he]

/-- Everything a step can do to the ports: a command that runs or waits ends or goes on waiting, with what was shown before; a reset comes;
or no command ends and they show what they showed. -/
theorem step_ports {s t : State} (h : step s = .next t) :
    (∃ u, t = finish s.shown u) ∨ (HostEvent.rst ∈ s.inbox ∧ ∃ u, t = resetInput u) ∨ (t.done = false ∧ t.shown = s.shown) := by
  obtain ⟨shown, he, rfl⟩ | ⟨-, -, rfl⟩ | ⟨rest, -, -, rfl⟩ | ⟨rest, -, hi, rfl⟩ | ⟨w, rest, u, he, -, -, rfl⟩ := step_next h
  · obtain ⟨_, _, -, -, e⟩ | ⟨_, _, hi, -, e⟩ | ⟨-, e⟩ := waitStep_cases shown s s.inbox [] <;> rw [e]
    · exact .inl ⟨_, by rw [shown_of_executing he]⟩
    · exact .inr (.inl ⟨by simp [hi], _, rfl⟩)
    · exact .inr (.inr ⟨rfl, rfl⟩)
  · exact .inr (.inr ⟨rfl, rfl⟩)
  · exact .inr (.inr ⟨rfl, rfl⟩)
  · exact .inr (.inl ⟨by simp [hi], _, rfl⟩)
  · exact .inl ⟨u, by rw [shown_of_idle he]⟩

/-- A command that runs or waits is done exactly if the block is ready again (R133). -/
theorem finish_done_eq_cmdReady (shown : Shown) (s : State) : (finish shown s).done = (finish shown s).cmdReady := by
  obtain ⟨done, ready⟩ := finish_done shown s
  rw [done, ready]

theorem finish_inbox (shown : Shown) (s : State) : (finish shown s).inbox = s.inbox := by rw [finish_eq]

/-- A step of the wait takes no command word: of the host's events only a drain or a reset goes (R133, log 4). -/
theorem waitStep_keeps_commands (shown : Shown) (s : State) :
    (waitStep shown s [] s.inbox).inbox.filter (fun ev => ev ≠ .drain ∧ ev ≠ .rst) =
      s.inbox.filter (fun ev => ev ≠ .drain ∧ ev ≠ .rst) := by
  obtain ⟨before, later, hi, -, e⟩ | ⟨before, later, hi, -, e⟩ | ⟨-, e⟩ := waitStep_cases shown s s.inbox [] <;> rw [e]
  · rw [finish_inbox, hi]
    simp
  · rw [hi]
    simp [resetInput]
  · rfl

/-- Settles O8: done and what the ports show by `step_ports`, an accepted word by `finish`, the words kept by `waitStep_keeps_commands`. -/
theorem portsTellOfACommandsProgress : Obligations.PortsTellOfACommandsProgress := by
  intro s t h
  refine ⟨fun w rest ready hi => ?_, fun done => ?_, fun busy => ?_, fun notDone => ?_⟩
  · rw [step_command (Option.isNone_iff_eq_none.1 ready) hi, settled_next] at h
    obtain ⟨u, -, rfl⟩ := h
    exact finish_done_eq_cmdReady _ u
  · obtain ⟨u, rfl⟩ | ⟨-, u, rfl⟩ | ⟨notDone, -⟩ := step_ports h
    · rwa [← finish_done_eq_cmdReady]
    · rfl
    · cases notDone.symm.trans done
  · obtain ⟨shown, he⟩ := Option.isSome_iff_exists.1 (Option.isNone_eq_false_iff.1 busy)
    obtain rfl := Host.Outcome.next.inj ((step_executing he).symm.trans h)
    exact waitStep_keeps_commands shown s
  · obtain ⟨u, rfl⟩ | ⟨rst, u, rfl⟩ | ⟨-, same⟩ := step_ports h
    · exact .inl (finish_shown notDone)
    · exact .inr ⟨rst, rfl, rfl⟩
    · exact .inl (Shown.mk.inj same)

end Sys2Proof.Machine
